-- ==== Sys2Proof/Word.lean ====
section
/-! DEFINITION. The words of the block and their plainest arithmetic (spec 00_scope R5, R6). Nothing in this
block is signed and no register wraps on purpose; every width is the one the spec names. -/

namespace Sys2Proof

/-- A byte, "8 bits and holds an unsigned value 0..255" (R6). -/
abbrev Byte := BitVec 8

/-- A word of the Host port, an FT counter, ILEN, OLEN (R5, R61). -/
abbrev Word := BitVec 32

/-- A cumulative frequency NODE[i].FREQ (R5: NFREQ_W = 40). -/
abbrev Freq := BitVec 40

/-- A node index, or NONE = 0x1FF (R5, R29). -/
abbrev NodeIx := BitVec 9

/-- A code or a bit stream: "a finite sequence of bits", the root decision first (R7). -/
abbrev Bits := List Bool

/-- `ceil(n/8) = (n + 7) div 8` (R6). -/
def ceilDiv8 (n : Nat) : Nat := (n + 7) / 8

end Sys2Proof
end

