-- ==== Sys2Proof/Syntax.lean ====
section
/-! DEFINITION. The instructions: one constructor per row of spec/opcode_table.json. Rows of format CMD are the
commands and the illegal opcodes that a write of CMD starts (30_encoding R90 to R92); rows of format CONTAINER_BYTE
are the bytes of the serialized container that DECODE reads one after another (R100 to R104). -/

namespace Sys2Proof

/-- One constructor per row of the opcode table. An illegal row that covers several opcodes carries the opcode
itself, the detail byte its failure reports (R92). -/
inductive Instr where
  /-- 0x01, R120. -/
  | count
  /-- 0x02, R130. -/
  | build
  /-- 0x03, R150. -/
  | walk
  /-- 0x04, R151. -/
  | compile
  /-- 0x05, R171. -/
  | encode
  /-- 0x06, R191. -/
  | decode
  /-- 0x00, R92. -/
  | illegal00
  /-- 0x07, R92. -/
  | illegal07
  /-- 0x08..0x0F, R92. -/
  | illegal08_0F (op : Byte)
  /-- 0x10..0x1F, R92. -/
  | illegal10_1F (op : Byte)
  /-- 0x20..0x3F, R92. -/
  | illegal20_3F (op : Byte)
  /-- 0x40..0x7F, R92. -/
  | illegal40_7F (op : Byte)
  /-- 0x80..0xFF, R92. -/
  | illegal80_FF (op : Byte)
  /-- The container's first byte, the number of entries minus 1 (R101). -/
  | containerCount (n : Byte)
  /-- An entry's first byte, its symbol (R102). -/
  | containerEntrySym (sym : Byte)
  /-- An entry's second byte, its code length in bits, which says how many CODE bytes follow (R102). -/
  | containerEntryLen (len : Byte)
  /-- The container's last byte, the number of unused bits of the last payload byte (R104). -/
  | containerPad (pad : Byte)
deriving DecidableEq, Repr

/-- Which field of a container a byte stands in. Its place says so, not its value (R100). -/
inductive ContainerField where
  | count
  | entrySym
  | entryLen
  | pad
deriving DecidableEq, Repr

/-- What an instruction is read from: a whole word written to CMD (R90), or one byte of a container (R100). -/
inductive CodeUnit where
  | cmdWord (v : Word)
  | containerByte (field : ContainerField) (b : Byte)
deriving DecidableEq, Repr

/-- Why the decoder refuses. -/
inductive DecodeReject where
  /-- A CMD word is exactly four bytes (R61, R90). -/
  | notOneWord
  /-- A PAD byte above 7, which is no row of the table (R104, log entry 17). DECODE itself gives it a meaning (R203). -/
  | padOutOfRange
deriving DecidableEq, Repr

end Sys2Proof
end

