-- ==== Sys2Proof/WellFormed.lean ====
section
/-! DEFINITION. When an instruction is a row of the table: an illegal opcode's byte lies in its row's range, a PAD
byte is at most 7 (the mask and match columns of spec/opcode_table.json). -/

namespace Sys2Proof

/-- The row's fixed bits: `op` under `mask` is `value`. -/
def fixedBits (op mask value : Byte) : Bool := op &&& mask == value

/-- The table's own check of every operand. -/
def Instr.wf : Instr → Bool
  | .count => true
  | .build => true
  | .walk => true
  | .compile => true
  | .encode => true
  | .decode => true
  | .illegal00 => true
  | .illegal07 => true
  | .illegal08_0F op => fixedBits op 0xF8 0x08
  | .illegal10_1F op => fixedBits op 0xF0 0x10
  | .illegal20_3F op => fixedBits op 0xE0 0x20
  | .illegal40_7F op => fixedBits op 0xC0 0x40
  | .illegal80_FF op => fixedBits op 0x80 0x80
  | .containerCount _ => true
  | .containerEntrySym _ => true
  | .containerEntryLen _ => true
  | .containerPad pad => fixedBits pad 0xF8 0x00

end Sys2Proof
end

