-- ==== Sys2Proof/Decode.lean ====
section
/-! DEFINITION. The decoder, total on any code unit and on any bytes, rejecting by name, and the encoder written from
the same tables (30_encoding R90, R91, R101, R102, R104). -/

namespace Sys2Proof

/-- The opcode map of R91 over every value of OPCODE. -/
def decodeOpcode (op : Byte) : Instr :=
  if op = 0x00 then .illegal00
  else if op = 0x01 then .count
  else if op = 0x02 then .build
  else if op = 0x03 then .walk
  else if op = 0x04 then .compile
  else if op = 0x05 then .encode
  else if op = 0x06 then .decode
  else if op = 0x07 then .illegal07
  else if fixedBits op 0xF8 0x08 then .illegal08_0F op
  else if fixedBits op 0xF0 0x10 then .illegal10_1F op
  else if fixedBits op 0xE0 0x20 then .illegal20_3F op
  else if fixedBits op 0xC0 0x40 then .illegal40_7F op
  else .illegal80_FF op

/-- R90: OPCODE is bits [7:0] of the word; "Bits v[31:8] are ignored" (R22). -/
def opcodeOf (v : Word) : Byte := v.extractLsb' 0 8

/-- The decoder. A container byte is read by the field it stands in (R100); a PAD byte above 7 is no row of the table
(log entry 17). -/
def decode : CodeUnit → Except DecodeReject Instr
  | .cmdWord v => .ok (decodeOpcode (opcodeOf v))
  | .containerByte .count b => .ok (.containerCount b)
  | .containerByte .entrySym b => .ok (.containerEntrySym b)
  | .containerByte .entryLen b => .ok (.containerEntryLen b)
  | .containerByte .pad b => if fixedBits b 0xF8 0x00 then .ok (.containerPad b) else .error .padOutOfRange

/-- A word from its four bytes, lowest lane first (R64). -/
def wordOfBytes (b0 b1 b2 b3 : Byte) : Word := b3 ++ b2 ++ b1 ++ b0

/-- Lane `k` of a word: bits [8k+7 : 8k] (R64). -/
def laneOf (v : Word) (k : Nat) : Byte := v.extractLsb' (8 * k) 8

/-- A word's four bytes, lowest lane first (R64). -/
def bytesOfWord (v : Word) : List Byte := [laneOf v 0, laneOf v 1, laneOf v 2, laneOf v 3]

/-- The decoder on the bytes of a CMD write: one whole word, never fewer or more bytes (R61, R90). -/
def decodeCmdBytes : List Byte → Except DecodeReject Instr
  | [b0, b1, b2, b3] => decode (.cmdWord (wordOfBytes b0 b1 b2 b3))
  | _ => .error .notOneWord

/-- The code unit of an instruction: the opcode of R91 in a word whose reserved bits are 0, or the container byte. -/
def encode : Instr → CodeUnit
  | .count => .cmdWord 0x01
  | .build => .cmdWord 0x02
  | .walk => .cmdWord 0x03
  | .compile => .cmdWord 0x04
  | .encode => .cmdWord 0x05
  | .decode => .cmdWord 0x06
  | .illegal00 => .cmdWord 0x00
  | .illegal07 => .cmdWord 0x07
  | .illegal08_0F op => .cmdWord (op.setWidth 32)
  | .illegal10_1F op => .cmdWord (op.setWidth 32)
  | .illegal20_3F op => .cmdWord (op.setWidth 32)
  | .illegal40_7F op => .cmdWord (op.setWidth 32)
  | .illegal80_FF op => .cmdWord (op.setWidth 32)
  | .containerCount n => .containerByte .count n
  | .containerEntrySym sym => .containerByte .entrySym sym
  | .containerEntryLen len => .containerByte .entryLen len
  | .containerPad pad => .containerByte .pad pad

/-- The `nbits` low bits of `w` as the word the Host writes to CMD, every bit above them 0. -/
def tableWord (nbits w : Nat) : Word := BitVec.ofNat 32 (w % 2 ^ nbits)

/-- The instruction this decoder reads from a table word: it is laid out as the four byte lanes of a CMD write. A
container byte is not told from an opcode by its value, so it is not what this reads (log entry 6). -/
def decodeTableWord (nbits w : Nat) : Option Instr :=
  if 1 ≤ nbits ∧ nbits ≤ 32 then (decodeCmdBytes (bytesOfWord (tableWord nbits w))).toOption else none

end Sys2Proof
end

