-- ==== Sys2Proof/Config.lean ====
section
/-! DEFINITION. What an implementation fixes (R5) and the free values: what the spec leaves unspecified (V1, V2,
V10 of 93_implementation_defined). The two open sizes IBUF_SIZE and OBUF_SIZE are a record of plain data that a
state carries unchanged, so that a claim about every state is a claim about every legal size (log entry 1). -/

namespace Sys2Proof.Config

/-- R5: NSYM, the size of the symbol alphabet. -/
def nsym : Nat := 256

/-- R5: NNODE, the number of slots of the tree arena NODE. -/
def nnode : Nat := 511

/-- R5: MAXLEN, the largest code length in bits. -/
def maxLen : Nat := 255

/-- R5: TRIE_SIZE, the capacity of the decoder's scratch trie; R201: it can never be exceeded. -/
def trieSize : Nat := 65281

/-- R5: NONE, the "no node" value 0x1FF. -/
def noNode : NodeIx := 0x1FF#9

/-- The OPEN parameters of R5 (a `parameter` by V9). No step changes them. -/
structure Params where
  ibufSize : Nat
  obufSize : Nat
deriving DecidableEq, Repr

/-- R5: the default sizes 65536 and 524288. -/
def Params.default : Params := { ibufSize := 65536, obufSize := 524288 }

/-- R5: "a multiple of 4, 4 ≤ SIZE ≤ 2^24", for both sizes. -/
abbrev Params.Legal (p : Params) : Prop :=
  p.ibufSize % 4 = 0 ∧ 4 ≤ p.ibufSize ∧ p.ibufSize ≤ 2 ^ 24 ∧
  p.obufSize % 4 = 0 ∧ 4 ≤ p.obufSize ∧ p.obufSize ≤ 2 ^ 24

/-- FREE VALUE (V1, R33, R38): what IBUF[a] holds after the reset that the first argument numbers, while nothing
has written it. Log entry 2. -/
opaque freeIbufByte : Nat → Nat → Byte

/-- FREE VALUE (V1, R34, R38): what OBUF[a] holds after the reset that the first argument numbers, while nothing
has written it. Log entry 2. -/
opaque freeObufByte : Nat → Nat → Byte

/-- FREE VALUE (V2, R62): the word a Host read of anything but STATUS returns while RUN = BUSY; the argument numbers
the draw. Log entry 3. -/
opaque freeBusyRead : Nat → Word

/-- FREE VALUE (V10, R262): how many Host accesses land between the start of a command and its completion step; the
argument numbers the draw. Log entry 4. -/
opaque freeBusyTime : Nat → Nat

end Sys2Proof.Config
end

