-- ==== Sys2Proof/Machine/State.lean ====
section
/-! DEFINITION. The state of one HUFFCORE instance: everything 10_state R20 lists, then the decoder's scratch (R35)
that the container rows act on, then the model's own fields (the Host's queue of accesses and the words it got back,
the counters that number free values). All of it is plain data. -/

namespace Sys2Proof.Machine

/-- R21: whether a command is in flight. -/
inductive Run where
  | idle
  | busy
deriving DecidableEq, Repr

/-- R220, R221: one constructor for every cause a command can end with. -/
inductive Failure where
  /-- kind 1: BUILD, WALK, COMPILE, ENCODE. -/
  | emptyInput
  /-- kind 2: ENCODE; the first uncovered input byte. -/
  | missingCode (sym : Byte)
  /-- kind 3, sub 1: DECODE. -/
  | truncated
  /-- kind 3, sub 2: DECODE. -/
  | padding
  /-- kind 3, sub 3: DECODE. -/
  | noChild
  /-- kind 3, sub 4: DECODE. -/
  | partialCode
  /-- kind 4, sub 1: DECODE. -/
  | throughLeaf
  /-- kind 4, sub 2: DECODE. -/
  | sameNode
  /-- kind 4, sub 3: DECODE. -/
  | endsAtInternal
  /-- kind 5: ENCODE, DECODE. -/
  | outputOverflow
  /-- kind 6, sub 1: an illegal opcode. -/
  | illegalOpcode (op : Byte)
  /-- kind 6, sub 2: ILEN > IBUF_SIZE at COUNT, COMPILE, ENCODE, DECODE. -/
  | illegalLength
deriving DecidableEq, Repr

/-- R26: the fields of STATUS that are state (BUSY is RUN, seen through STATUS). -/
structure Status where
  done : Bool
  error : Bool
  kind : BitVec 4
  sub : BitVec 4
  detail : Byte
deriving DecidableEq, Repr

/-- R22, R38: every field 0. -/
def Status.clear : Status := { done := false, error := false, kind := 0, sub := 0, detail := 0 }

/-- R30: one record of the tree arena. -/
structure Node where
  used : Bool
  freq : Freq
  left : NodeIx
  right : NodeIx
deriving DecidableEq, Repr

/-- R30: "An unused slot is {USED=0, FREQ=0, LEFT=NONE, RIGHT=NONE}". -/
def Node.unused : Node := { used := false, freq := 0, left := Config.noNode, right := Config.noNode }

/-- R32: one record of the codebook; BITS[k] is code bit c[k]. -/
structure CbRec where
  valid : Bool
  len : Byte
  bits : BitVec 256
deriving DecidableEq, Repr

/-- R32: the record of a symbol that has no code. -/
def CbRec.invalid : CbRec := { valid := false, len := 0, bits := 0 }

/-- R102, R191: one parsed entry; its LEN is the length of `code`. -/
structure Entry where
  sym : Byte
  code : Bits
deriving DecidableEq, Repr

/-- R35 (c), R191 phase A: how far the parser of a container has got. It is scratch: the completion of a command
leaves it `empty`, and no Host access sees it (log entry 5). -/
structure Scan where
  /-- Entries the COUNT byte declared and that are still to be read. -/
  left : Nat
  /-- The byte position `p`. -/
  p : Nat
  /-- The SYM byte of the entry being read. -/
  sym : Byte
  /-- `ENT`, in container order. -/
  ents : List Entry
deriving DecidableEq, Repr

/-- No container is being read. -/
def Scan.empty : Scan := { left := 0, p := 0, sym := 0, ents := [] }

/-- One access of the Host (R61), one step of its polling loop (R108), or the platform's reset (R250). -/
inductive HostOp where
  /-- `RD addr`. -/
  | read (addr : Word)
  /-- `WR addr, data`. -/
  | write (addr data : Word)
  /-- `WAIT`: read STATUS, again and again until BUSY is 0. -/
  | wait
  /-- The reset input. -/
  | reset
deriving DecidableEq, Repr

/-- A register file or buffer: the entries that differ from what an unlisted index reads as, index rising (log
entry 9). -/
abbrev Table (α : Type) := List (Nat × α)

/-- A buffer of bytes (R33, R34), by byte index. Only written bytes are listed (log entry 2). -/
abbrev Memory := List Host.Cell

/-- The state. -/
structure State where
  /-- PARAMETER, not state (R5, R39): the two sizes; no step changes them. -/
  params : Config.Params
  /-- R21. -/
  run : Run
  /-- R25. -/
  cmd : Byte
  /-- R26. -/
  status : Status
  /-- R27. -/
  ilen : Word
  /-- R28. -/
  olen : Word
  /-- R29. -/
  root : NodeIx
  /-- R31: the counters that are not 0. -/
  ft : Table Word
  /-- R30: the used slots. -/
  node : Table Node
  /-- R32: the valid records. -/
  cb : Table CbRec
  /-- R33: the bytes written since reset. -/
  ibuf : Memory
  /-- R34: the bytes written since reset. -/
  obuf : Memory
  /-- R35: the container parser's scratch. -/
  scan : Scan
  /-- MODEL's own: the Host accesses still to come, in the order issued (R70). -/
  inbox : List HostOp
  /-- MODEL's own: the words the Host's reads returned, the oldest first. -/
  replies : List Word
  /-- MODEL's own: while BUSY, how many Host accesses still come before the completion step (V10). -/
  wait : Nat
  /-- MODEL's own: the number of the next free value. -/
  fresh : Nat
  /-- MODEL's own: the number of the last reset, which names the unspecified bytes of IBUF and OBUF (V1). -/
  epoch : Nat
deriving DecidableEq, Repr

/-- The block never stops: every failure is a completed command (R23, R227), every access outside the map reads 0 or
is ignored (R61, R69). So no step faults, and the type has no constructor (log entry 8). -/
inductive Fault : Type
deriving DecidableEq, Repr

/-- Why a step has no meaning. -/
inductive Refusal where
  /-- An arm of `exec` whose instruction has no meaning yet; no arm uses it. Safe: nothing follows from a refusal. -/
  | notModelled (mnemonic : String)
deriving DecidableEq, Repr

/-- R38: the machine right after reset, with the default sizes of R5, an idle Host and no word read (log entries 10
and 11). -/
def State.reset : State where
  params := Config.Params.default
  run := .idle
  cmd := 0
  status := Status.clear
  ilen := 0
  olen := 0
  root := Config.noNode
  ft := []
  node := []
  cb := []
  ibuf := []
  obuf := []
  scan := Scan.empty
  inbox := []
  replies := []
  wait := 0
  fresh := 1
  epoch := 0

/-- What a step of this model answers. -/
abbrev Result := Host.Outcome State Fault Refusal

end Sys2Proof.Machine
end

