-- ==== Sys2Proof/Machine/Flags.lean ====
section
/-! DEFINITION. STATUS: the codes of the failures (60_exceptions R220, R221), the fields a completion writes
(10_state R23) and the word the Host reads (30_encoding R93). -/

namespace Sys2Proof.Machine

/-- R220: the failure kind. -/
def Failure.kindCode : Failure → BitVec 4
  | .emptyInput => 1
  | .missingCode _ => 2
  | .truncated => 3
  | .padding => 3
  | .noChild => 3
  | .partialCode => 3
  | .throughLeaf => 4
  | .sameNode => 4
  | .endsAtInternal => 4
  | .outputOverflow => 5
  | .illegalOpcode _ => 6
  | .illegalLength => 6

/-- R221: the sub-cause. -/
def Failure.subCode : Failure → BitVec 4
  | .emptyInput => 0
  | .missingCode _ => 0
  | .truncated => 1
  | .padding => 2
  | .noChild => 3
  | .partialCode => 4
  | .throughLeaf => 1
  | .sameNode => 2
  | .endsAtInternal => 3
  | .outputOverflow => 0
  | .illegalOpcode _ => 1
  | .illegalLength => 2

/-- R221: the detail byte. -/
def Failure.detailByte : Failure → Byte
  | .emptyInput => 0
  | .missingCode sym => sym
  | .truncated => 0
  | .padding => 0
  | .noChild => 0
  | .partialCode => 0
  | .throughLeaf => 0
  | .sameNode => 0
  | .endsAtInternal => 0
  | .outputOverflow => 0
  | .illegalOpcode op => op
  | .illegalLength => 0

/-- R23: what a completion leaves in STATUS, all five fields (log entry 12). -/
def Status.ofResult : Option Failure → Status
  | none => { done := true, error := false, kind := 0, sub := 0, detail := 0 }
  | some f => { done := true, error := true, kind := f.kindCode, sub := f.subCode, detail := f.detailByte }

/-- A flag as a one-bit field. -/
def flagBit (b : Bool) : BitVec 1 := BitVec.ofBool b

/-- R26, R93: bit 0 of STATUS is RUN. -/
def Run.busyBit : Run → BitVec 1
  | .idle => 0
  | .busy => 1

/-- R93: the word a Host read of STATUS returns. -/
def statusWord (run : Run) (st : Status) : Word :=
  0#8 ++ st.detail ++ st.sub ++ st.kind ++ 0#5 ++ flagBit st.error ++ flagBit st.done ++ run.busyBit

end Sys2Proof.Machine
end

