-- ==== Sys2Proof/Machine/Ops.lean ====
section
/-! DEFINITION. The shared operations: register files and buffers, the start and the completion of a command (which is
where a failure is taken), the reset event. Rules 10_state R21 to R34, 60_exceptions R223 to R228, 70_reset R250. -/

namespace Sys2Proof.Machine

/-- The listed entry at index `k`. -/
def Table.get? {α : Type} : Table α → Nat → Option α
  | [], _ => none
  | (i, v) :: rest, k => if i = k then some v else Table.get? rest k

/-- List `v` at index `k`, in index order. -/
def Table.insert {α : Type} : Table α → Nat → α → Table α
  | [], k, v => [(k, v)]
  | (i, w) :: rest, k, v =>
    if k < i then (k, v) :: (i, w) :: rest
    else if k = i then (k, v) :: rest
    else (i, w) :: Table.insert rest k v

/-- Index `k` is listed no more. -/
def Table.erase {α : Type} (t : Table α) (k : Nat) : Table α := t.filter fun e => e.1 ≠ k

/-- The canonical order: indexes strictly rising. -/
abbrev Table.Rising {α : Type} (t : Table α) : Prop := t.Pairwise fun a b => a.1 < b.1

/-- Every index is below `n`. -/
abbrev Table.Below {α : Type} (t : Table α) (n : Nat) : Prop := ∀ e ∈ t, e.1 < n

/-- R31: FT[s]; an absent symbol's counter is 0. -/
def ftGet (ft : Table Word) (s : Nat) : Word := (Table.get? ft s).getD 0

/-- R31, R95: FT[s] <- v; only the symbols that appear are listed. -/
def ftPut (ft : Table Word) (s : Nat) (v : Word) : Table Word :=
  if v = 0 then Table.erase ft s else Table.insert ft s v

/-- R30: NODE[i]; a slot that is not listed is unused. -/
def nodeGet (nd : Table Node) (i : Nat) : Node := (Table.get? nd i).getD Node.unused

/-- R30: NODE[i] <- r. -/
def nodePut (nd : Table Node) (i : Nat) (r : Node) : Table Node :=
  if r = Node.unused then Table.erase nd i else Table.insert nd i r

/-- R32: CB[s]; a record that is not listed is invalid. -/
def cbGet (cb : Table CbRec) (s : Nat) : CbRec := (Table.get? cb s).getD CbRec.invalid

/-- R32: CB[s] <- r. -/
def cbPut (cb : Table CbRec) (s : Nat) (r : CbRec) : Table CbRec :=
  if r = CbRec.invalid then Table.erase cb s else Table.insert cb s r

/-- The canonical form of the frequency table. -/
abbrev FtWf (ft : Table Word) : Prop := Table.Rising ft ∧ Table.Below ft 256 ∧ ∀ e ∈ ft, e.2 ≠ 0

/-- The canonical form of the tree arena. -/
abbrev NodeWf (nd : Table Node) : Prop := Table.Rising nd ∧ Table.Below nd 511 ∧ ∀ e ∈ nd, e.2 ≠ Node.unused

/-- The canonical form of the codebook. -/
abbrev CbWf (cb : Table CbRec) : Prop := Table.Rising cb ∧ Table.Below cb 256 ∧ ∀ e ∈ cb, e.2 ≠ CbRec.invalid

/-- The byte written at index `a` since reset, if any. -/
def Memory.get? (m : Memory) (a : Nat) : Option Byte := Table.get? m a

/-- Write one byte. -/
def Memory.write (m : Memory) (a : Nat) (b : Byte) : Memory := Table.insert m a b

/-- `MemWrite`: the bytes land at a, a+1, ... (R9). -/
def Memory.writeBytes : Memory → Nat → List Byte → Memory
  | m, _, [] => m
  | m, a, b :: bs => Memory.writeBytes (Memory.write m a b) (a + 1) bs

/-- The canonical form of a buffer of `size` bytes. What an unlisted byte reads as is a free value, so no listed byte
is compared with it: listed means written since reset (log entry 2). -/
abbrev Memory.wf (m : Memory) (size : Nat) : Prop := Table.Rising m ∧ Table.Below m size

/-- IBUF[a] (R33): what was written, or the unspecified byte the last reset left there. -/
def State.ibufByte (s : State) (a : Nat) : Byte := (s.ibuf.get? a).getD (Config.freeIbufByte s.epoch a)

/-- OBUF[a] (R34): what was written, or the unspecified byte the last reset left there. -/
def State.obufByte (s : State) (a : Nat) : Byte := (s.obuf.get? a).getD (Config.freeObufByte s.epoch a)

/-- R22: an accepted CMD write starts a command. It is also what ends a failure's record, the only "return" there is
(R228): DONE, ERROR, ERRKIND, ERRSUB and ERRDETAIL are cleared. How long the command takes is a free value (V10). -/
def State.startCommand (s : State) (v : Word) : State :=
  { s with
    cmd := v.extractLsb' 0 8
    status := Status.clear
    run := .busy
    wait := Config.freeBusyTime s.fresh
    fresh := s.fresh + 1 }

/-- R23: the end of a completion step, with the failure taken if the pseudocode ended by one: RUN <- IDLE and STATUS
says DONE and why. Nothing else is saved, and there is no handler to go to (R226, R227). The scratch is gone (R35). -/
def State.complete (s : State) (r : Option Failure) : State :=
  { s with run := .idle, status := Status.ofResult r, scan := Scan.empty }

/-- R10, R23: `raise f`. -/
def State.raise (s : State) (f : Failure) : State := s.complete (some f)

/-- R226 for ENCODE and DECODE: any failure sets OLEN <- 0 and writes no byte of OBUF. -/
def State.raiseNoOutput (s : State) (f : Failure) : State := { s with olen := 0 }.raise f

/-- R177, R207: a command that did not fail writes exactly OBUF[0..OLEN-1]. -/
def State.setOutput (s : State) (out : List Byte) : State :=
  { s with obuf := s.obuf.writeBytes 0 out, olen := BitVec.ofNat 32 out.length }

/-- Validate, then commit (R177, R207): the whole result, or the failure and none of it. -/
def State.commit (s : State) : Except Failure (List Byte) → State
  | .ok out => (s.setOutput out).complete none
  | .error f => s.raiseNoOutput f

/-- R224: "ILEN > IBUF_SIZE", the length check of every command that reads IBUF. -/
def State.lengthBad (s : State) : Bool := s.params.ibufSize < s.ilen.toNat

/-- R250, R38: the reset event, in any state. A command in flight is abandoned. The Host's queue and the words it
already read are its own, not the block's; the bytes of IBUF and OBUF are unspecified anew. -/
def State.resetEvent (s : State) : State :=
  { State.reset with
    params := s.params
    inbox := s.inbox
    replies := s.replies
    fresh := s.fresh + 1
    epoch := s.fresh }

end Sys2Proof.Machine
end

