-- ==== Sys2Proof/Machine/Operands.lean ====
section
/-! DEFINITION. The operand forms: the bytes of IBUF a command reads and the bit streams inside them (00_scope R7, R8,
20_memory R65, R73), a symbol's code in CB, and the words of the register formats (30_encoding R93 to R97). -/

namespace Sys2Proof.Machine

/-- IBUF[0..ILEN-1] (R27): the input of COUNT, COMPILE, ENCODE and DECODE, read byte by byte (R73 form 1). -/
def State.input (s : State) : List Byte := (List.range s.ilen.toNat).map s.ibufByte

/-- Bit number `k` of a region of bytes: bit `k mod 8` of byte `k div 8` (R65, R73 form 2). -/
def bitAt (bytes : List Byte) (k : Nat) : Bool := (bytes.getD (k / 8) 0).getLsbD (k % 8)

/-- `unpack(B, L)` (R8). -/
def unpack (bytes : List Byte) (n : Nat) : Bits := (List.range n).map (bitAt bytes)

/-- The byte whose bit `k` is `c[8j + k]`, bits past the end of `c` being 0 (R8). -/
def packByte (c : Bits) (j : Nat) : Byte :=
  BitVec.ofNat 8 ((List.range 8).foldr (fun k acc => (c.getD (8 * j + k) false).toNat + 2 * acc) 0)

/-- `pack(c)` (R8): ceil(L/8) bytes, least significant bit first. -/
def pack (c : Bits) : List Byte := (List.range (ceilDiv8 c.length)).map (packByte c)

/-- R171: `code(s)` is the bit sequence BITS[0], .., BITS[LEN - 1]. -/
def CbRec.code (r : CbRec) : Bits := (List.range r.len.toNat).map r.bits.getLsbD

/-- R94: CMD reads as its 8 bits, the rest 0. -/
def cmdWord (s : State) : Word := s.cmd.setWidth 32

/-- R94: ROOT reads as its 9 bits, the rest 0. -/
def rootWord (s : State) : Word := s.root.setWidth 32

/-- R96: word `w` of a NODE record. -/
def nodeWord (r : Node) : Nat → Word
  | 0 => r.freq.extractLsb' 0 32
  | 1 => (r.freq.extractLsb' 32 8).setWidth 32
  | 2 => 0#7 ++ r.right ++ 0#7 ++ r.left
  | 3 => (flagBit r.used).setWidth 32
  | _ => 0

/-- R97: word `w` of a CB record. -/
def cbWord (r : CbRec) : Nat → Word
  | 0 => flagBit r.valid ++ 0#23 ++ r.len
  | w + 1 => if w < 8 then r.bits.extractLsb' (32 * w) 32 else 0

/-- R64: the word whose lanes are IBUF[a], IBUF[a+1], IBUF[a+2], IBUF[a+3]. -/
def ibufWord (s : State) (a : Nat) : Word :=
  wordOfBytes (s.ibufByte a) (s.ibufByte (a + 1)) (s.ibufByte (a + 2)) (s.ibufByte (a + 3))

/-- R64: the same lanes for OBUF. -/
def obufWord (s : State) (a : Nat) : Word :=
  wordOfBytes (s.obufByte a) (s.obufByte (a + 1)) (s.obufByte (a + 2)) (s.obufByte (a + 3))

end Sys2Proof.Machine
end

