-- ==== Sys2Proof/Machine/Container.lean ====
section
/-! DEFINITION. The parts of DECODE (44_decode R191 to R206): the readings of a container's COUNT, SYM, LEN and PAD
bytes, the trie and its traversal. The container rows of the opcode table are one such reading each, on the scratch
that State holds for them (log entry 5). -/

namespace Sys2Proof.Machine

/-- R192: the COUNT byte gives n = COUNT + 1, without wrap, and the first entry stands at 1. -/
def scanCount (b : Byte) : Scan := { left := b.toNat + 1, p := 1, sym := 0, ents := [] }

/-- R191 phase A, R193: before an entry's SYM and LEN bytes there must be two bytes left; then SYM is read. -/
def scanSym (c : List Byte) (b : Byte) (sc : Scan) : Except Failure Scan :=
  if c.length < sc.p + 2 then .error .truncated else .ok { sc with sym := b, p := sc.p + 1 }

/-- R191 phase A, R193, R194: the LEN byte, at `p`, says how many CODE bytes follow; they must be there, the code is
unpacked from them, and the entry is complete. -/
def scanLen (c : List Byte) (b : Byte) (sc : Scan) : Except Failure Scan :=
  if c.length < sc.p + 1 + ceilDiv8 b.toNat then .error .truncated
  else .ok {
    left := sc.left - 1
    p := sc.p + 1 + ceilDiv8 b.toNat
    sym := sc.sym
    ents := sc.ents ++ [{ sym := sc.sym, code := unpack (c.drop (sc.p + 1)) b.toNat }] }

/-- R191 phase A: the loop over `n` entries. -/
def scanEntries (c : List Byte) : Nat → Scan → Except Failure Scan
  | 0, sc => .ok sc
  | n + 1, sc =>
    match scanSym c (c.getD sc.p 0) sc with
    | .error f => .error f
    | .ok sc1 =>
      match scanLen c (c.getD sc1.p 0) sc1 with
      | .error f => .error f
      | .ok sc2 => scanEntries c n sc2

/-- R191 phase A, less its last check: COUNT, then the entries it declares. -/
def parseHeader (c : List Byte) : Except Failure Scan :=
  match c with
  | [] => .error .truncated
  | b :: _ => scanEntries c (b.toNat + 1) (scanCount b)

/-- R195: the trie. A node of KIND LEAF is a `leaf`, one of KIND INTERNAL a `fork` of CHILD[0] and CHILD[1]; an absent
child, and the root before the first insertion, is `empty`. -/
inductive Trie where
  | empty
  | leaf (sym : Byte)
  | fork (child0 child1 : Trie)
deriving DecidableEq, Repr

/-- R201: how many nodes a trie has; an absent child is none. -/
def Trie.size : Trie → Nat
  | .empty => 0
  | .leaf _ => 1
  | .fork l r => 1 + l.size + r.size

/-- R196: insertion of one code, with the three conflicts of R197. -/
def Trie.insert (sym : Byte) : Bits → Trie → Except Failure Trie
  | [], .empty => .ok (.leaf sym)
  | [], .leaf _ => .error .sameNode
  | [], .fork _ _ => .error .endsAtInternal
  | _ :: _, .leaf _ => .error .throughLeaf
  | false :: bs, .empty => (Trie.insert sym bs .empty).map fun l => .fork l .empty
  | true :: bs, .empty => (Trie.insert sym bs .empty).map fun r => .fork .empty r
  | false :: bs, .fork l r => (Trie.insert sym bs l).map fun l' => .fork l' r
  | true :: bs, .fork l r => (Trie.insert sym bs r).map fun r' => .fork l r'

/-- R191 phase B: every entry inserted, in container order; the first conflict met is reported. -/
def insertAll : List Entry → Trie → Except Failure Trie
  | [], t => .ok t
  | e :: es, t =>
    match t.insert e.sym e.code with
    | .error f => .error f
    | .ok t' => insertAll es t'

/-- R191 phase B: a trie is built only when n ≥ 2 (R198). -/
def buildTrie : List Entry → Except Failure Trie
  | [_] => .ok .empty
  | es => insertAll es .empty

/-- R195: CHILD[b] of a node. -/
def Trie.child : Trie → Bool → Trie
  | .fork l _, false => l
  | .fork _ r, true => r
  | .empty, _ => .empty
  | .leaf _, _ => .empty

/-- R191 phase D, R204, R205: from the cursor `cur`, which is away from the root when `away` says so, consume the
bits; emit at every leaf and go back to the root. -/
def traverse (root : Trie) : Trie → Bool → Bits → Except Failure (List Byte)
  | _, away, [] => if away then .error .partialCode else .ok []
  | cur, _, b :: bs =>
    match cur.child b with
    | .empty => .error .noChild
    | .leaf sym => (traverse root root false bs).map fun out => sym :: out
    | .fork l r => traverse root (.fork l r) true bs

/-- R191 phase D: with one entry its symbol is emitted once per usable bit (R198), else the trie is walked. -/
def emit (ents : List Entry) (t : Trie) (bits : Bits) : Except Failure (List Byte) :=
  match ents with
  | [e] => .ok (bits.map fun _ => e.sym)
  | _ => traverse t t false bits

/-- R203: PAD > 7, or PAD ≠ 0 with no payload byte. -/
def padBad (payloadBytes pad : Nat) : Bool := 7 < pad || (payloadBytes == 0 && pad != 0)

/-- R191 phases B, C and D once the header is parsed: the trie is built before PAD is judged, and PAD before any
payload bit is consumed (R200). P and U are those of R105 and R202. -/
def closeContainer (c : List Byte) (sc : Scan) (pad : Byte) : Except Failure (List Byte) :=
  match buildTrie sc.ents with
  | .error f => .error f
  | .ok t =>
    let payloadBytes := c.length - sc.p - 1
    if padBad payloadBytes pad.toNat then .error .padding
    else emit sc.ents t (unpack (c.drop sc.p) (8 * payloadBytes - pad.toNat))

/-- R191: a whole container, its last byte being PAD; there must be room for it (R193). -/
def decodeContainer (c : List Byte) : Except Failure (List Byte) :=
  match parseHeader c with
  | .error f => .error f
  | .ok sc =>
    if c.length < sc.p + 1 then .error .truncated
    else closeContainer c sc (c.getD (c.length - 1) 0)

/-- R191 phase E, R206: the result must fit OBUF, judged last. -/
def fitOutput (s : State) (out : List Byte) : Except Failure (List Byte) :=
  if s.params.obufSize < out.length then .error .outputOverflow else .ok out

/-- One reading of a container byte: the scratch moves on, or the failure it found ends the DECODE (R226). Every
reading is of a container that lies in IBUF (R191: the length check comes first). -/
def State.scanTo (s : State) (r : Except Failure Scan) : State :=
  if s.lengthBad then s.raiseNoOutput .illegalLength
  else
    match r with
    | .error f => s.raiseNoOutput f
    | .ok sc => { s with scan := sc }

/-- The reading of the COUNT byte: an empty buffer has none (R192). -/
def countReading (b : Byte) (s : State) : State :=
  s.scanTo (if s.input.length < 1 then .error .truncated else .ok (scanCount b))

/-- The reading of an entry's SYM byte. -/
def symReading (b : Byte) (s : State) : State := s.scanTo (scanSym s.input b s.scan)

/-- The reading of an entry's LEN byte and of the CODE bytes it announces. -/
def lenReading (b : Byte) (s : State) : State := s.scanTo (scanLen s.input b s.scan)

/-- The reading of the PAD byte, the container's last: every declared entry must have been read and there must be
room for it (R193); it ends the DECODE with phases B to E. -/
def padReading (b : Byte) (s : State) : State :=
  if s.lengthBad then s.raiseNoOutput .illegalLength
  else if s.scan.left ≠ 0 ∨ s.input.length < s.scan.p + 1 then s.raiseNoOutput .truncated
  else
    match closeContainer s.input s.scan b with
    | .error f => s.raiseNoOutput f
    | .ok out => s.commit (fitOutput s out)

/-- CONTAINER.COUNT (R101, R192). -/
def execContainerCount (n : Byte) (s : State) : Result := .next (countReading n s)

/-- CONTAINER.ENTRY.SYM (R102, R194). -/
def execContainerEntrySym (sym : Byte) (s : State) : Result := .next (symReading sym s)

/-- CONTAINER.ENTRY.LEN (R102, R194). -/
def execContainerEntryLen (len : Byte) (s : State) : Result := .next (lenReading len s)

/-- CONTAINER.PAD (R104, R202, R203). -/
def execContainerPad (pad : Byte) (s : State) : Result := .next (padReading pad s)

/-- The readings of `n` entries one byte at a time, each byte taken from IBUF at the scratch's position, as long as
no failure has ended the command. -/
def entriesBytewise : Nat → State → State
  | 0, s => s
  | n + 1, s =>
    let s1 := symReading (s.input.getD s.scan.p 0) s
    if s1.run = .idle then s1
    else
      let s2 := lenReading (s1.input.getD s1.scan.p 0) s1
      if s2.run = .idle then s2 else entriesBytewise n s2

/-- The readings of a whole container one byte at a time. -/
def decodeBytewise (s : State) : State :=
  let s0 := countReading (s.input.getD 0 0) s
  if s0.run = .idle then s0
  else
    let s1 := entriesBytewise s0.scan.left s0
    if s1.run = .idle then s1 else padReading (s1.input.getD (s1.input.length - 1) 0) s1

end Sys2Proof.Machine
end

