-- ==== Sys2Proof/Machine/Decoder.lean ====
section
/-! DEFINITION. DECODE, the container decoder (44_decode R190 to R207), over the parts of Container.lean. -/

namespace Sys2Proof.Machine

/-- DECODE's checks in the order of R191 and R200, and its result. -/
def decodeResult (s : State) : Except Failure (List Byte) :=
  if s.lengthBad then .error .illegalLength
  else
    match decodeContainer s.input with
    | .error f => .error f
    | .ok out => fitOutput s out

/-- DECODE (R191). -/
def execDecode (s : State) : Result := .next (s.commit (decodeResult s))

end Sys2Proof.Machine
end

