-- ==== Sys2Proof/Machine/Encoder.lean ====
section
/-! DEFINITION. ENCODE, the container encoder (43_encode R170 to R178), on the layout of 30_encoding R100 to R104. -/

namespace Sys2Proof.Machine

/-- R171, R174: the symbols with a valid record, ascending. -/
def codedSyms (cb : Table CbRec) : List Nat := (List.range 256).filter fun s => (cbGet cb s).valid

/-- R102: one entry, SYM, LEN and the CODE bytes. -/
def entryBytes (cb : Table CbRec) (s : Nat) : List Byte :=
  BitVec.ofNat 8 s :: (cbGet cb s).len :: pack (cbGet cb s).code

/-- R101: the COUNT byte of `n` entries. -/
def countByte (n : Nat) : Byte := BitVec.ofNat 8 (n - 1)

/-- R100: COUNT and the codebook section, every valid record in ascending symbol order (R174). -/
def headerBytes (cb : Table CbRec) : List Byte :=
  countByte (codedSyms cb).length :: (codedSyms cb).flatMap (entryBytes cb)

/-- R103: the codes of the input bytes, in order, as one bit stream. -/
def payloadBits (cb : Table CbRec) (data : List Byte) : Bits :=
  data.flatMap fun b => (cbGet cb b.toNat).code

/-- R104: the PAD byte of `t` payload bits. -/
def padByte (t : Nat) : Byte := BitVec.ofNat 8 ((8 - t % 8) % 8)

/-- R100: the container of `data` under `cb`. -/
def containerOf (cb : Table CbRec) (data : List Byte) : List Byte :=
  headerBytes cb ++ pack (payloadBits cb data) ++ [padByte (payloadBits cb data).length]

/-- R173: the first input byte, in input order, that has no valid record. -/
def firstUncovered (cb : Table CbRec) (data : List Byte) : Option Byte :=
  data.find? fun b => !(cbGet cb b.toNat).valid

/-- ENCODE's checks in the order of R171, and its result (log entry 15). -/
def encodeResult (s : State) : Except Failure (List Byte) :=
  if s.lengthBad then .error .illegalLength
  else if s.ilen = 0 then .error .emptyInput
  else
    match firstUncovered s.cb s.input with
    | some b => .error (.missingCode b)
    | none =>
      if s.params.obufSize < (containerOf s.cb s.input).length then .error .outputOverflow
      else .ok (containerOf s.cb s.input)

/-- ENCODE (R171). -/
def execEncode (s : State) : Result := .next (s.commit (encodeResult s))

end Sys2Proof.Machine
end

