-- ==== Sys2Proof/Machine/Illegal.lean ====
section
/-! DEFINITION. The illegal opcodes (30_encoding R92): accepted as a command whose completion does nothing but raise
IllegalCommand with sub-cause OPCODE and the opcode as detail. -/

namespace Sys2Proof.Machine

/-- R92. -/
def illegalCommand (op : Byte) (s : State) : Result := .next (s.raise (.illegalOpcode op))

/-- ILLEGAL_00. -/
def execIllegal00 (s : State) : Result := illegalCommand 0x00 s

/-- ILLEGAL_07. -/
def execIllegal07 (s : State) : Result := illegalCommand 0x07 s

/-- ILLEGAL_08_0F. -/
def execIllegal08_0F (op : Byte) (s : State) : Result := illegalCommand op s

/-- ILLEGAL_10_1F. -/
def execIllegal10_1F (op : Byte) (s : State) : Result := illegalCommand op s

/-- ILLEGAL_20_3F. -/
def execIllegal20_3F (op : Byte) (s : State) : Result := illegalCommand op s

/-- ILLEGAL_40_7F. -/
def execIllegal40_7F (op : Byte) (s : State) : Result := illegalCommand op s

/-- ILLEGAL_80_FF. -/
def execIllegal80_FF (op : Byte) (s : State) : Result := illegalCommand op s

end Sys2Proof.Machine
end

