-- ==== Sys2Proof/Machine/Build.lean ====
section
/-! DEFINITION. BUILD, the Huffman tree builder (41_build R130 to R136). -/

namespace Sys2Proof.Machine

/-- R130: the leaf of a symbol of frequency `f`. -/
def leafNode (f : Word) : Node :=
  { used := true, freq := f.setWidth 40, left := Config.noNode, right := Config.noNode }

/-- R130, R31: the symbols that appear, ascending. A zero counter is an absent symbol. -/
def presentSyms (ft : Table Word) : List Nat := (List.range 256).filter fun s => ftGet ft s ≠ 0

/-- R130, R131: the arena with one leaf per present symbol and every other slot unused. -/
def leaves (ft : Table Word) : Table Node :=
  (presentSyms ft).foldl (fun nd s => nodePut nd s (leafNode (ftGet ft s))) []

/-- R132: node `i` is extracted before node `j`: by FREQ, then by index. -/
def keyLt (nd : Table Node) (i j : Nat) : Bool :=
  (nodeGet nd i).freq < (nodeGet nd j).freq || ((nodeGet nd i).freq == (nodeGet nd j).freq && i < j)

/-- R11, R130: `argmin` of the key over a set of indices. -/
def argmin (nd : Table Node) : List Nat → Option Nat
  | [] => none
  | i :: rest =>
    match argmin nd rest with
    | none => some i
    | some j => if keyLt nd i j then some i else some j

/-- LIVE without one index. -/
def without (live : List Nat) (i : Nat) : List Nat := live.filter fun j => j ≠ i

/-- R130, R133: the internal node over the two extracted, the first LEFT and the second RIGHT. -/
def mergeNode (nd : Table Node) (a b : Nat) : Node :=
  { used := true
    freq := (nodeGet nd a).freq + (nodeGet nd b).freq
    left := BitVec.ofNat 9 a
    right := BitVec.ofNat 9 b }

/-- The loop of R130, `while |LIVE| >= 2`. `fuel` bounds its turns (m - 1 are made, R131); `k` is the number of
merges made, so the new slot is 256 + k. -/
def mergeLoop : Nat → Nat → Table Node → List Nat → Table Node × List Nat
  | 0, _, nd, live => (nd, live)
  | fuel + 1, k, nd, live =>
    match argmin nd live with
    | none => (nd, live)
    | some a =>
      match argmin nd (without live a) with
      | none => (nd, live)
      | some b =>
        mergeLoop fuel (k + 1) (nodePut nd (256 + k) (mergeNode nd a b))
          (without (without live a) b ++ [256 + k])

/-- R130: ROOT, "the one element of LIVE". -/
def rootOf : List Nat → NodeIx
  | [r] => BitVec.ofNat 9 r
  | _ => Config.noNode

/-- R130, R137: NODE and ROOT as functions of FT alone; with no symbol there is no tree (R135). -/
def buildTree (ft : Table Word) : Table Node × NodeIx :=
  let r := mergeLoop (presentSyms ft).length 0 (leaves ft) (presentSyms ft)
  (r.1, rootOf r.2)

/-- R135: whether BUILD raises EmptyInput. -/
def buildFailure (ft : Table Word) : Option Failure :=
  if presentSyms ft = [] then some .emptyInput else none

/-- The writes of R130. -/
def buildStage (s : State) : State :=
  { s with node := (buildTree s.ft).1, root := (buildTree s.ft).2 }

/-- BUILD (R130). -/
def execBuild (s : State) : Result := .next ((buildStage s).complete (buildFailure s.ft))

end Sys2Proof.Machine
end

