-- ==== Sys2Proof/Machine/Count.lean ====
section
/-! DEFINITION. COUNT, the frequency table (40_count R120). -/

namespace Sys2Proof.Machine

/-- The loop of R120 from a table of zeros: FT[s] <- FT[s] + 1 for every byte of the input, in order. -/
def countBytes (data : List Byte) : Table Word :=
  data.foldl (fun ft b => ftPut ft b.toNat (ftGet ft b.toNat + 1)) []

/-- The pseudocode of R120 after its length check. -/
def countStage (s : State) : State := { s with ft := countBytes s.input }

/-- COUNT (R120). -/
def execCount (s : State) : Result :=
  if s.lengthBad then .next (s.raise .illegalLength) else .next ((countStage s).complete none)

end Sys2Proof.Machine
end

