-- ==== Sys2Proof/Machine/Walk.lean ====
section
/-! DEFINITION. WALK, the codebook compiler, and COMPILE (42_walk_compile R150 to R155). -/

namespace Sys2Proof.Machine

/-- A leaf the traversal reached: its symbol, and its path and depth (R150). -/
abbrev LeafAt := Nat × BitVec 256 × Nat

/-- R150, R152: the leaves under node `i`, first child before second (R154). `path` holds code bit c[k] in bit k.
`fuel` bounds the depth; a tree is at most 255 deep (R133), and a slot that is no node has no leaf (log entry 7). -/
def leavesBelow (nd : Table Node) : Nat → Nat → BitVec 256 → Nat → List LeafAt
  | 0, _, _, _ => []
  | fuel + 1, i, path, depth =>
    if i < 256 then [(i, path, depth)]
    else if (nodeGet nd i).used then
      leavesBelow nd fuel (nodeGet nd i).left.toNat path (depth + 1) ++
      leavesBelow nd fuel (nodeGet nd i).right.toNat (path ||| (1#256 <<< depth)) (depth + 1)
    else []

/-- R153: the sentinel code "0". -/
def sentinel : CbRec := { valid := true, len := 1, bits := 0 }

/-- R150: the record of a leaf at a depth. -/
def leafRec (e : LeafAt) : CbRec := { valid := true, len := BitVec.ofNat 8 e.2.2, bits := e.2.1 }

/-- R150: CB as a function of (ROOT, NODE), from a codebook cleared first. -/
def walkTree (nd : Table Node) (root : NodeIx) : Table CbRec :=
  if root = Config.noNode then []
  else if root.toNat < 256 then cbPut [] root.toNat sentinel
  else (leavesBelow nd 256 root.toNat 0 0).foldl (fun cb e => cbPut cb e.1 (leafRec e)) []

/-- R155: whether WALK raises EmptyInput. -/
def walkFailure (root : NodeIx) : Option Failure := if root = Config.noNode then some .emptyInput else none

/-- The writes of R150. -/
def walkStage (s : State) : State := { s with cb := walkTree s.node s.root }

/-- WALK (R150). -/
def execWalk (s : State) : Result := .next ((walkStage s).complete (walkFailure s.root))

/-- R151, R223: the first failure raised. -/
def firstFailure : Option Failure → Option Failure → Option Failure
  | some f, _ => some f
  | none, g => g

/-- COMPILE (R151): the three stages, each on the state the previous one left, whether or not one failed. -/
def execCompile (s : State) : Result :=
  if s.lengthBad then .next (s.raise .illegalLength)
  else
    let s1 := countStage s
    let s2 := buildStage s1
    let s3 := walkStage s2
    .next (s3.complete (firstFailure (buildFailure s1.ft) (walkFailure s2.root)))

end Sys2Proof.Machine
end

