-- ==== Sys2Proof/Machine/Dispatch.lean ====
section
/-! DEFINITION. One arm per constructor of Instr: the completion step of a command (10_state R23), or the reading of a
container byte. -/

namespace Sys2Proof.Machine

def exec (i : Instr) (s : State) : Host.Outcome State Fault Refusal :=
  match i with
  | .count => Sys2Proof.Machine.execCount s
  | .build => Sys2Proof.Machine.execBuild s
  | .walk => Sys2Proof.Machine.execWalk s
  | .compile => Sys2Proof.Machine.execCompile s
  | .encode => Sys2Proof.Machine.execEncode s
  | .decode => Sys2Proof.Machine.execDecode s
  | .illegal00 => Sys2Proof.Machine.execIllegal00 s
  | .illegal07 => Sys2Proof.Machine.execIllegal07 s
  | .illegal08_0F op => Sys2Proof.Machine.execIllegal08_0F op s
  | .illegal10_1F op => Sys2Proof.Machine.execIllegal10_1F op s
  | .illegal20_3F op => Sys2Proof.Machine.execIllegal20_3F op s
  | .illegal40_7F op => Sys2Proof.Machine.execIllegal40_7F op s
  | .illegal80_FF op => Sys2Proof.Machine.execIllegal80_FF op s
  | .containerCount n => Sys2Proof.Machine.execContainerCount n s
  | .containerEntrySym sym => Sys2Proof.Machine.execContainerEntrySym sym s
  | .containerEntryLen len => Sys2Proof.Machine.execContainerEntryLen len s
  | .containerPad pad => Sys2Proof.Machine.execContainerPad pad s

end Sys2Proof.Machine
end

