-- ==== Sys2Proof/Machine/HostPort.lean ====
section
/-! DEFINITION. The Host port: the address map (20_memory R63), reads and writes (R61 to R64, R68, R69), what they do
while a command runs (R62), and the notation for Host programs (30_encoding R108, R109). -/

namespace Sys2Proof.Machine

/-- What an address of the port names (R63). -/
inductive PortLoc where
  | cmd
  | status
  | ilen
  | olen
  | root
  /-- FT[s]. -/
  | ft (s : Nat)
  /-- Word `w` of NODE[i]. -/
  | node (i w : Nat)
  /-- Word `w` of CB[s]. -/
  | cb (s w : Nat)
  /-- IBUF[a..a+3]. -/
  | ibuf (a : Nat)
  /-- OBUF[a..a+3]. -/
  | obuf (a : Nat)
  /-- Not a multiple of 4 (R61): the access is not performed. -/
  | misaligned
  /-- Not in the map (R69). -/
  | reserved
deriving DecidableEq, Repr

/-- R63: the base of IBUF on the port. -/
def ibufBase : Nat := 0x01000000

/-- R63: the base of OBUF on the port. -/
def obufBase : Nat := 0x02000000

/-- R63: the address of STATUS. -/
def statusAddr : Word := 0x00000004

/-- The address map of R63. -/
def locate (p : Config.Params) (addr : Word) : PortLoc :=
  let a := addr.toNat
  if a % 4 ≠ 0 then .misaligned
  else if a = 0x00 then .cmd
  else if a = 0x04 then .status
  else if a = 0x08 then .ilen
  else if a = 0x0C then .olen
  else if a = 0x10 then .root
  else if 0x400 ≤ a ∧ a < 0x400 + 4 * 256 then .ft ((a - 0x400) / 4)
  else if 0x2000 ≤ a ∧ a < 0x2000 + 16 * 511 then .node ((a - 0x2000) / 16) ((a - 0x2000) % 16 / 4)
  else if 0x4000 ≤ a ∧ a < 0x4000 + 64 * 256 ∧ (a - 0x4000) % 64 / 4 ≤ 8 then
    .cb ((a - 0x4000) / 64) ((a - 0x4000) % 64 / 4)
  else if ibufBase ≤ a ∧ a < ibufBase + p.ibufSize then .ibuf (a - ibufBase)
  else if obufBase ≤ a ∧ a < obufBase + p.obufSize then .obuf (a - obufBase)
  else .reserved

/-- What a location reads as while RUN = IDLE (R64, R93 to R97), and 0 where the read is not performed or the address
is reserved (R61, R69). -/
def portRead (s : State) : PortLoc → Word
  | .cmd => cmdWord s
  | .status => statusWord s.run s.status
  | .ilen => s.ilen
  | .olen => s.olen
  | .root => rootWord s
  | .ft i => ftGet s.ft i
  | .node i w => nodeWord (nodeGet s.node i) w
  | .cb i w => cbWord (cbGet s.cb i) w
  | .ibuf a => ibufWord s a
  | .obuf a => obufWord s a
  | .misaligned => 0
  | .reserved => 0

/-- What a write of a location does while RUN = IDLE: ILEN, FT and IBUF store (R27, R95, R64), CMD starts a command
(R22), every read-only, reserved or misaligned place ignores it (R61, R69). -/
def portWrite (s : State) (v : Word) : PortLoc → State
  | .cmd => s.startCommand v
  | .status => s
  | .ilen => { s with ilen := v }
  | .olen => s
  | .root => s
  | .ft i => { s with ft := ftPut s.ft i v }
  | .node _ _ => s
  | .cb _ _ => s
  | .ibuf a => { s with ibuf := s.ibuf.writeBytes a (bytesOfWord v) }
  | .obuf _ => s
  | .misaligned => s
  | .reserved => s

/-- The Host receives one word. -/
def State.reply (s : State) (v : Word) : State := { s with replies := s.replies ++ [v] }

/-- `HostRead(addr)` (R61). While BUSY, only STATUS reads true; any other read returns a free value (R62, V2). -/
def State.hostRead (s : State) (addr : Word) : State :=
  if s.run = .busy ∧ addr ≠ statusAddr then
    { s.reply (Config.freeBusyRead s.fresh) with fresh := s.fresh + 1 }
  else s.reply (portRead s (locate s.params addr))

/-- `HostWrite(addr, v)` (R61). While BUSY it is ignored, CMD included (R62). -/
def State.hostWrite (s : State) (addr v : Word) : State :=
  match s.run with
  | .busy => s
  | .idle => portWrite s v (locate s.params addr)

/-- One turn of the Host's `WAIT` (R108): a read of STATUS, and the same again while it shows BUSY. -/
def State.hostWait (s : State) : State :=
  let s' := s.hostRead statusAddr
  match s.run with
  | .busy => { s' with inbox := .wait :: s'.inbox }
  | .idle => s'

/-- One access, or the reset input. -/
def State.hostAccess (s : State) : HostOp → State
  | .read addr => s.hostRead addr
  | .write addr v => s.hostWrite addr v
  | .wait => s.hostWait
  | .reset => s.resetEvent

/-- The Host's turn: its next access (R70: in the order issued, each complete before the next), or nothing, when
the block stays as it is (R251). -/
def State.hostTurn (s : State) : State :=
  match s.inbox with
  | [] => s
  | op :: rest => { s with inbox := rest }.hostAccess op

/-- R109: the words of `LOAD`, four bytes a group, the last group padded with 00. -/
def loadWords : Nat → List Byte → List HostOp
  | _, [] => []
  | a, [b0] => [.write (BitVec.ofNat 32 (ibufBase + a)) (wordOfBytes b0 0 0 0)]
  | a, [b0, b1] => [.write (BitVec.ofNat 32 (ibufBase + a)) (wordOfBytes b0 b1 0 0)]
  | a, [b0, b1, b2] => [.write (BitVec.ofNat 32 (ibufBase + a)) (wordOfBytes b0 b1 b2 0)]
  | a, b0 :: b1 :: b2 :: b3 :: rest =>
    .write (BitVec.ofNat 32 (ibufBase + a)) (wordOfBytes b0 b1 b2 b3) :: loadWords (a + 4) rest

/-- R109: `LOAD bytes...`. -/
def loadOps (bytes : List Byte) : List HostOp := loadWords 0 bytes ++ [.write 0x8 (BitVec.ofNat 32 bytes.length)]

/-- R109: `FETCH` of a result of `n` bytes: OLEN, then the words that hold them. -/
def fetchOps (n : Nat) : List HostOp :=
  .read 0xC :: (List.range ((n + 3) / 4)).map fun q => .read (BitVec.ofNat 32 (obufBase + 4 * q))

/-- R109: the bytes `FETCH` keeps of the words it read, in lane order. -/
def fetchedBytes (n : Nat) (words : List Word) : List Byte := (words.flatMap bytesOfWord).take n

/-- R109: `FEEDBACK`, once the Host has fetched the bytes of the result: `FETCH`, then `LOAD` of what it fetched. -/
def feedbackOps (bytes : List Byte) : List HostOp := fetchOps bytes.length ++ loadOps bytes

/-- R109: `SETFT s, v`. -/
def setFtOp (s : Byte) (v : Word) : HostOp := .write (BitVec.ofNat 32 (0x400 + 4 * s.toNat)) v

/-- R109: `CLEARFT`. -/
def clearFtOps : List HostOp := (List.range 256).map fun s => setFtOp (BitVec.ofNat 8 s) 0

/-- R108: `CMD <mnemonic>`: the command's opcode of R91, written to CMD. A container byte is no command. -/
def cmdOps (i : Instr) : List HostOp :=
  match encode i with
  | .cmdWord v => [.write 0 v]
  | .containerByte _ _ => []

end Sys2Proof.Machine
end

