-- ==== Sys2Proof/Machine/Step.lean ====
section
/-! DEFINITION. One step of the machine: of the Core, whose only step is to complete the command in flight (00_scope R13,
10_state R23), or of the Host. CMD is where the Core finds what to run (10_state R24: there is no program counter). -/

namespace Sys2Proof.Machine

/-- The completion step comes next: no Host access lands before it, or the Host has none to make. -/
def State.coreTurn (s : State) : Bool := s.run == .busy && (s.wait == 0 || s.inbox.isEmpty)

/-- The Host's turn. While a command is in flight one access fewer lands before its completion (V10). -/
def State.hostStep (s : State) : State :=
  match s.run with
  | .busy => { s with wait := s.wait - 1 }.hostTurn
  | .idle => s.hostTurn

/-- One step. -/
def step (s : State) : Host.Outcome State Fault Refusal :=
  if s.coreTurn then exec (decodeOpcode s.cmd) s else .next s.hostStep

/-- The table word `w` as the command in flight, its completion being the very next step: what an accepted CMD write
does (R22), with the free time V10 taken as none. -/
def State.withFetchWord (s : State) (nbits w : Nat) : State :=
  { s.startCommand (tableWord nbits w) with wait := 0 }

end Sys2Proof.Machine
end

