-- ==== Sys2Proof/Safety.lean ====
section
/-! DEFINITION. What claims speak of: the invariants of the state (10_state R36, R37, 30_encoding R93), the values after
reset (R38), the address map as a set (20_memory R63), the sizes of a container (30_encoding R100 to R106) and the
container a decoder may meet, whoever wrote it. -/

namespace Sys2Proof.Safety

open Sys2Proof.Machine

/-! ### The tree (R36) -/

/-- How many leaves the arena holds. -/
def leafCount (nd : Table Node) : Nat := ((List.range 256).filter fun i => (nodeGet nd i).used).length

/-- The slots "reachable from ROOT through LEFT and RIGHT". -/
inductive Reach (nd : Table Node) (root : Nat) : Nat → Prop where
  | root : Reach nd root root
  | left {i : Nat} (h : Reach nd root i) (hi : 256 ≤ i) : Reach nd root (nodeGet nd i).left.toNat
  | right {i : Nat} (h : Reach nd root i) (hi : 256 ≤ i) : Reach nd root (nodeGet nd i).right.toNat

/-- Slot `i` is an internal node one of whose children is `j`. -/
def ParentOf (nd : Table Node) (i j : Nat) : Prop :=
  256 ≤ i ∧ (nodeGet nd i).used = true ∧ ((nodeGet nd i).left.toNat = j ∨ (nodeGet nd i).right.toNat = j)

/-- R36 shape (b), with R131: a child was made before its parent, so its slot number is smaller
(log entry 14). -/
structure IsTree (nd : Table Node) (root : NodeIx) : Prop where
  someLeaf : 1 ≤ leafCount nd
  rootUsed : root ≠ Config.noNode ∧ (nodeGet nd root.toNat).used = true
  rootLeaf : leafCount nd = 1 → root.toNat < 256
  rootInternal : 2 ≤ leafCount nd → root.toNat = 256 + (leafCount nd - 2)
  internal : ∀ i, 256 ≤ i → ((nodeGet nd i).used = true ↔ i < 256 + (leafCount nd - 1))
  reachable : ∀ i, (nodeGet nd i).used = true ↔ Reach nd root.toNat i
  leaf : ∀ i, i < 256 → (nodeGet nd i).used = true →
    (nodeGet nd i).left = Config.noNode ∧ (nodeGet nd i).right = Config.noNode
  fork : ∀ i, 256 ≤ i → (nodeGet nd i).used = true →
    (nodeGet nd i).left ≠ (nodeGet nd i).right ∧
    (nodeGet nd (nodeGet nd i).left.toNat).used = true ∧ (nodeGet nd (nodeGet nd i).right.toNat).used = true ∧
    (nodeGet nd i).left.toNat < i ∧ (nodeGet nd i).right.toNat < i ∧
    (nodeGet nd i).freq = (nodeGet nd (nodeGet nd i).left.toNat).freq + (nodeGet nd (nodeGet nd i).right.toNat).freq
  oneParent : ∀ j, (nodeGet nd j).used = true → j ≠ root.toNat → ∃! i, ParentOf nd i j

/-- R36: no tree, every slot unused; or a tree. -/
def TreeInv (nd : Table Node) (root : NodeIx) : Prop :=
  (root = Config.noNode ∧ ∀ i, nodeGet nd i = Node.unused) ∨
  (IsTree nd root ∧ ∀ i, (nodeGet nd i).used = false → nodeGet nd i = Node.unused)

/-- The node reached from node `i` by a bit sequence: bit 0 to LEFT, bit 1 to RIGHT (R152). -/
def descend (nd : Table Node) : Nat → Bits → Nat
  | i, [] => i
  | i, false :: bs => descend nd (nodeGet nd i).left.toNat bs
  | i, true :: bs => descend nd (nodeGet nd i).right.toNat bs

/-- R132: the order of extraction, FREQ first and then the index. -/
def ExtractedBefore (nd : Table Node) (i j : Nat) : Prop :=
  (nodeGet nd i).freq.toNat < (nodeGet nd j).freq.toNat ∨
  ((nodeGet nd i).freq.toNat = (nodeGet nd j).freq.toNat ∧ i < j)

/-- The sum of all counters (R121, R133). -/
def ftTotal (ft : Table Word) : Nat := ((List.range 256).map fun s => (ftGet ft s).toNat).sum

/-! ### The codebook (R37) -/

/-- R37 shape (b), with what R153 adds for a codebook of one symbol: its code is one bit long
(log entry 14). -/
structure IsCodebook (cb : Table CbRec) : Prop where
  someCode : ∃ s, s < 256 ∧ (cbGet cb s).valid = true
  length : ∀ s, s < 256 → (cbGet cb s).valid = true → 1 ≤ (cbGet cb s).len.toNat
  padding : ∀ s, s < 256 → (cbGet cb s).valid = true →
    ∀ k, (cbGet cb s).len.toNat ≤ k → (cbGet cb s).bits.getLsbD k = false
  prefixFree : ∀ s t, s < 256 → t < 256 → (cbGet cb s).valid = true → (cbGet cb t).valid = true → s ≠ t →
    ¬ (cbGet cb s).code <+: (cbGet cb t).code
  single : (codedSyms cb).length = 1 → ∀ s, s < 256 → (cbGet cb s).valid = true → (cbGet cb s).len = 1
  invalid : ∀ s, (cbGet cb s).valid = false → cbGet cb s = CbRec.invalid

/-- R37: empty, or a compiled codebook. -/
def CodebookInv (cb : Table CbRec) : Prop := (∀ s, cbGet cb s = CbRec.invalid) ∨ IsCodebook cb

/-! ### The whole state -/

/-- R93: STATUS of a command that did not fail. -/
def okStatus : Status := { done := true, error := false, kind := 0, sub := 0, detail := 0 }

/-- R93: STATUS of a command that failed. -/
def failStatus (kind sub : BitVec 4) (detail : Byte) : Status :=
  { done := true, error := true, kind := kind, sub := sub, detail := detail }

/-- R26, R93: STATUS is clear (after reset or while a command runs), or what a completion left. -/
def StatusInv (s : State) : Prop :=
  (s.run = .busy → s.status = Status.clear) ∧
  (s.status = Status.clear ∨ ∃ r : Option Failure, s.status = Status.ofResult r)

/-- Every file and buffer is in its canonical form and inside its size, and the sizes are legal (R5, R30 to R34;
the canonical form is log entries 2 and 9). -/
def FilesInv (s : State) : Prop :=
  s.params.Legal ∧ FtWf s.ft ∧ NodeWf s.node ∧ CbWf s.cb ∧
  s.ibuf.wf s.params.ibufSize ∧ s.obuf.wf s.params.obufSize

/-- R28, R35: OLEN counts bytes of OBUF, and no scratch lives between commands. -/
def OutputInv (s : State) : Prop := s.olen.toNat ≤ s.params.obufSize ∧ s.scan = Scan.empty

/-- All of it. -/
def StateInv (s : State) : Prop :=
  FilesInv s ∧ StatusInv s ∧ OutputInv s ∧ TreeInv s.node s.root ∧ CodebookInv s.cb

/-- R38: the values after reset; IBUF and OBUF hold whatever that reset left (V1). -/
def AtReset (s : State) : Prop :=
  s.run = .idle ∧ s.cmd = 0 ∧ s.status.done = false ∧ s.status.error = false ∧ s.status.kind = 0 ∧
  s.status.sub = 0 ∧ s.status.detail = 0 ∧ s.ilen = 0 ∧ s.olen = 0 ∧ s.root = 0x1FF#9 ∧
  (∀ i, i < 256 → ftGet s.ft i = 0) ∧
  (∀ i, i < 511 → nodeGet s.node i = { used := false, freq := 0, left := 0x1FF#9, right := 0x1FF#9 }) ∧
  (∀ i, i < 256 → cbGet s.cb i = { valid := false, len := 0, bits := 0 }) ∧
  (∀ a, s.ibufByte a = Config.freeIbufByte s.epoch a) ∧ (∀ a, s.obufByte a = Config.freeObufByte s.epoch a) ∧
  s.scan = Scan.empty

/-! ### The address map (R63) -/

/-- The addresses of R63's table that take a write: CMD, ILEN, FT, IBUF. -/
def Writable (p : Config.Params) (addr : Word) : Prop :=
  addr.toNat % 4 = 0 ∧
  (addr.toNat = 0 ∨ addr.toNat = 8 ∨ (0x400 ≤ addr.toNat ∧ addr.toNat ≤ 0x7FF) ∨
   (0x01000000 ≤ addr.toNat ∧ addr.toNat < 0x01000000 + p.ibufSize))

/-- The addresses of R63's table that are read only: STATUS, OLEN, ROOT, NODE, CB words 0..8, OBUF. -/
def ReadOnly (p : Config.Params) (addr : Word) : Prop :=
  addr.toNat % 4 = 0 ∧
  (addr.toNat = 4 ∨ addr.toNat = 0xC ∨ addr.toNat = 0x10 ∨ (0x2000 ≤ addr.toNat ∧ addr.toNat ≤ 0x3FEF) ∨
   (0x4000 ≤ addr.toNat ∧ addr.toNat ≤ 0x7FFF ∧ addr.toNat % 64 ≤ 32) ∨
   (0x02000000 ≤ addr.toNat ∧ addr.toNat < 0x02000000 + p.obufSize))

/-! ### The sizes of a container (R105, R171) -/

/-- R171: H. -/
def headerSize (cb : Table CbRec) : Nat :=
  1 + ((codedSyms cb).map fun s => 2 + ceilDiv8 (cbGet cb s).len.toNat).sum

/-- Where the entry of symbol `s` begins: after COUNT and the entries of the smaller symbols (R100, R174). -/
def entryOffset (cb : Table CbRec) (s : Nat) : Nat :=
  1 + (((codedSyms cb).filter fun r => r < s).map fun r => 2 + ceilDiv8 (cbGet cb r).len.toNat).sum

/-- R171: T. -/
def payloadSize (cb : Table CbRec) (data : List Byte) : Nat :=
  (data.map fun b => (cbGet cb b.toNat).len.toNat).sum

/-- R171: H + P + 1, the length of the container. -/
def containerSize (cb : Table CbRec) (data : List Byte) : Nat :=
  headerSize cb + ceilDiv8 (payloadSize cb data) + 1

/-- Every byte of the data has a code (R170). -/
def Covers (cb : Table CbRec) (data : List Byte) : Prop := ∀ b ∈ data, (cbGet cb b.toNat).valid = true

/-! ### A container as a decoder meets it (R100 to R107) -/

/-- One entry as it stands in a container, unused CODE bits and all. -/
structure WireEntry where
  sym : Byte
  len : Byte
  code : List Byte
deriving DecidableEq, Repr

/-- R102: the CODE bytes are as many as LEN says. -/
def WireEntry.Fits (e : WireEntry) : Prop := e.code.length = ceilDiv8 e.len.toNat

/-- R194: the code an entry declares. -/
def WireEntry.bits (e : WireEntry) : Bits := unpack e.code e.len.toNat

/-- R102: the entry's bytes. -/
def WireEntry.bytes (e : WireEntry) : List Byte := e.sym :: e.len :: e.code

/-- R100, R101: the COUNT byte and the codebook section. -/
def wireHeader (es : List WireEntry) : List Byte :=
  BitVec.ofNat 8 (es.length - 1) :: es.flatMap WireEntry.bytes

/-- R100: a whole container. -/
def wireContainer (es : List WireEntry) (payload : List Byte) (pad : Byte) : List Byte :=
  wireHeader es ++ payload ++ [pad]

/-- A header a container can have: 1 to 256 entries, each of its declared size (R100, R102). -/
def WireOk (es : List WireEntry) : Prop := 1 ≤ es.length ∧ es.length ≤ 256 ∧ ∀ e ∈ es, e.Fits

/-- No code of the list is a prefix of another's (R197). -/
def PrefixFree (es : List WireEntry) : Prop :=
  es.Pairwise fun x y => ¬ x.bits <+: y.bits ∧ ¬ y.bits <+: x.bits

/-- R203: PAD is 0..7, and 0 when there is no payload byte. -/
def PadOk (payload : List Byte) (pad : Byte) : Prop := pad.toNat ≤ 7 ∧ (payload = [] → pad = 0)

/-- R105, R202: the usable bits of a payload. -/
def usableBits (payload : List Byte) (pad : Byte) : Bits := unpack payload (8 * payload.length - pad.toNat)

/-- The container lies in IBUF and its length is legal (R27, R190). -/
def Holds (s : State) (c : List Byte) : Prop :=
  s.ilen.toNat = c.length ∧ c.length ≤ s.params.ibufSize ∧ ∀ a, a < c.length → s.ibufByte a = c.getD a 0

/-- OBUF begins with these bytes and OLEN counts them (R28). -/
def Produced (s : State) (out : List Byte) : Prop :=
  s.olen.toNat = out.length ∧ ∀ a, a < out.length → s.obufByte a = out.getD a 0

end Sys2Proof.Safety
end

