-- ==== Sys2Proof/Certificates/Slice0/Obligations.lean ====
section
/-! DEFINITION. The statements for the provers, in the order of OBLIGATIONS.json. Each docstring says what is claimed;
OBLIGATIONS.json names the rules. -/

open Sys2Proof Sys2Proof.Machine Sys2Proof.Safety

/-- For every instruction that lies in its row of the opcode table (an illegal opcode in its row's range, a PAD byte of
at most 7), decoding the code unit the encoder writes for it gives that instruction with every operand. -/
def Obligations.DecodeOfEncodeIsIdentity : Prop :=
  ∀ i : Instr, i.wf = true → decode (encode i) = .ok i

/-- Every 32-bit CMD word decodes, to an instruction of the table whose encoding is the word with its bits [31:8]
cleared; a container byte that decodes for the field it stands in decodes to an instruction of the table whose
encoding is that byte in that field (that the decoder takes no PAD byte above 7 is log entry 17). -/
def Obligations.EncodeOfDecodeIsTheOpcode : Prop :=
  (∀ v : Word, ∃ i, decode (.cmdWord v) = .ok i ∧ i.wf = true ∧ encode i = .cmdWord (v &&& 0x000000FF)) ∧
  (∀ f b i, decode (.containerByte f b) = .ok i → i.wf = true ∧ encode i = .containerByte f b)

/-- Opcodes 0x01 to 0x06 decode to COUNT, BUILD, WALK, COMPILE, ENCODE and DECODE; 0x00 and 0x07..0xFF decode to the
illegal row of the table that covers them, and so to no command. -/
def Obligations.OpcodeMap : Prop :=
  (decodeOpcode 0x01 = .count ∧ decodeOpcode 0x02 = .build ∧ decodeOpcode 0x03 = .walk ∧
    decodeOpcode 0x04 = .compile ∧ decodeOpcode 0x05 = .encode ∧ decodeOpcode 0x06 = .decode) ∧
  (decodeOpcode 0x00 = .illegal00 ∧ decodeOpcode 0x07 = .illegal07 ∧
    ∀ op : Byte,
      (0x08 ≤ op.toNat → op.toNat ≤ 0x0F → decodeOpcode op = .illegal08_0F op) ∧
      (0x10 ≤ op.toNat → op.toNat ≤ 0x1F → decodeOpcode op = .illegal10_1F op) ∧
      (0x20 ≤ op.toNat → op.toNat ≤ 0x3F → decodeOpcode op = .illegal20_3F op) ∧
      (0x40 ≤ op.toNat → op.toNat ≤ 0x7F → decodeOpcode op = .illegal40_7F op) ∧
      (0x80 ≤ op.toNat → decodeOpcode op = .illegal80_FF op))

/-- The CMD word 0xABCDEF01 is COUNT, 4 is COMPILE, 0x00FFFF05 is ENCODE, 7 is ILLEGAL_07, 0x1F is ILLEGAL_10_1F; an
entry's first byte 0x62 is the symbol 0x62, its second byte 3 is the length 3; a last byte 7 is a PAD of the
CONTAINER.PAD row (R104 and the row's fixed bits [7:3] = 0); the decoder refuses a last byte 8 by name, because it
is no row of the table. (That refusal is the table's and the model's choice, log entry 17: the DECODE command itself
gives a PAD of 8 a meaning, MalformedContainer(PADDING), R203.) -/
def Obligations.WrittenOutUnitsDecode : Prop :=
  decode (.cmdWord 0xABCDEF01) = .ok .count ∧ decode (.cmdWord 0x00000004) = .ok .compile ∧
  decode (.cmdWord 0x00FFFF05) = .ok .encode ∧ decode (.cmdWord 0x00000007) = .ok .illegal07 ∧
  decode (.cmdWord 0x0000001F) = .ok (.illegal10_1F 0x1F) ∧
  decode (.containerByte .entrySym 0x62) = .ok (.containerEntrySym 0x62) ∧
  decode (.containerByte .entryLen 0x03) = .ok (.containerEntryLen 0x03) ∧
  decode (.containerByte .pad 0x07) = .ok (.containerPad 0x07) ∧
  decode (.containerByte .pad 0x08) = .error .padOutOfRange

/-- pack(c) has ceil(L/8) bytes; bit k mod 8 of byte k div 8 is c[k] for k < L and every other bit of those bytes is 0;
unpack of the first L bits of pack(c), whatever bytes follow, is c; unpack(B, L)[k] is bit k mod 8 of B[k div 8]. -/
def Obligations.PackAndUnpack : Prop :=
  (∀ c : Bits, (pack c).length = (c.length + 7) / 8 ∧
    (∀ k, k < 8 * (pack c).length → ((pack c).getD (k / 8) 0).getLsbD (k % 8) = c.getD k false) ∧
    ∀ rest : List Byte, unpack (pack c ++ rest) c.length = c) ∧
  (∀ (bytes : List Byte) (n : Nat), (unpack bytes n).length = n ∧
    ∀ k, k < n → (unpack bytes n)[k]? = some ((bytes.getD (k / 8) 0).getLsbD (k % 8)))

/-- After reset RUN is IDLE, CMD, STATUS, ILEN and OLEN are 0 (so STATUS.BUSY reads 0), ROOT is NONE, every FT counter
is 0, every NODE slot unused, every CB record invalid, and no scratch exists; IBUF and OBUF hold unspecified bytes,
in the model its free values (log entry 2). -/
def Obligations.ResetLeavesStatedValues : Prop :=
  AtReset State.reset ∧ statusWord State.reset.run State.reset.status = 0

/-- When the platform's reset is the next event, whether the block is idle or a command is in flight, one step leaves
every piece of architectural state at the value after reset: the command in flight is abandoned and none of its
writes happen, and IBUF and OBUF hold unspecified bytes anew. The sizes of the instance and what the Host has queued
and read stay (the model's own fields, log entries 1 and 4). -/
def Obligations.ResetEventFromAnyState : Prop :=
  ∀ (s : State) (rest : List HostOp), s.inbox = .reset :: rest → (s.run = .idle ∨ 0 < s.wait) →
    ∃ t, step s = .next t ∧ AtReset t ∧ t.epoch = s.fresh ∧ t.fresh = s.fresh + 1 ∧ t.params = s.params ∧ t.inbox = rest ∧
      t.replies = s.replies

/-- At reset the sizes are legal, every file and buffer is in canonical form and within its bounds, STATUS is clear,
OLEN is within OBUF, there is no tree and the codebook is empty. (The canonical form, rising lists that list no
empty entry, is the model's choice, log entries 9 and 2; the values are R38's, the scratch held in State is log
entry 5.) -/
def Obligations.ResetSatisfiesInvariant : Prop :=
  StateInv State.reset

/-- If the sizes are legal and FT, NODE, CB, IBUF and OBUF are in canonical form (indexes rising, within 256, 511, 256,
IBUF_SIZE and OBUF_SIZE, no listed entry equal to an absent one), then they are after every step of the Core or the
Host. (The bounds are those of R30 to R34 and R5; that the files and buffers are held as rising lists that list no
empty entry is the model's choice, log entry 9, and log entry 2 for IBUF and OBUF, where unwritten bytes are not
listed.) -/
def Obligations.StepKeepsFilesCanonical : Prop :=
  ∀ s t : State, FilesInv s → step s = .next t → FilesInv t

/-- If STATUS is clear while BUSY and otherwise clear or what a completion leaves, OLEN is at most OBUF_SIZE and there
is no scratch, then so after every step (in states whose files are canonical, log entries 9 and 2, and sizes legal).
(That the scratch is held in State is the model's choice, log entry 5.) -/
def Obligations.StepKeepsStatusLegal : Prop :=
  ∀ s t : State, FilesInv s → StatusInv s → OutputInv s → step s = .next t → StatusInv t ∧ OutputInv t

/-- If ROOT and NODE hold no tree with every slot unused, or a tree in the sense of R36 (with the numbering of R131, log
entry 14), then so after every step. -/
def Obligations.StepKeepsTree : Prop :=
  ∀ s t : State, TreeInv s.node s.root → step s = .next t → TreeInv t.node t.root

/-- If the tree invariant holds and CB is empty or a compiled codebook (lengths 1 to 255, prefix-free, no bit at or
above LEN, one bit for a codebook of one symbol, log entry 14), then CB is so after every step. -/
def Obligations.StepKeepsCodebook : Prop :=
  ∀ s t : State, TreeInv s.node s.root → CodebookInv s.cb → step s = .next t → CodebookInv t.cb

/-- While RUN is BUSY and no Host access lands before the completion, the step is exec of the instruction that CMD
decodes to, at that very state; nothing is added around it (there is no program counter). -/
def Obligations.StepCompletesCommandInCmd : Prop :=
  ∀ (s : State) (i : Instr), s.run = .busy → (s.wait = 0 ∨ s.inbox = []) →
    decode (.cmdWord (s.cmd.setWidth 32)) = .ok i → step s = exec i s

/-- When it is not the Core's turn, the step performs exactly the first of the Host's accesses, on the state without it;
while BUSY one access fewer is left before the completion. With RUN = IDLE and no Host access to come, a step
changes nothing. (That time is counted in Host accesses is the model's choice, log entry 4.) -/
def Obligations.HostAccessesAreServedInOrder : Prop :=
  ∀ s : State,
    (s.run = .idle → s.inbox = [] → step s = .next s) ∧
    ∀ (op : HostOp) (rest : List HostOp), s.inbox = op :: rest →
      (s.run = .idle → step s = .next ({ s with inbox := rest }.hostAccess op)) ∧
      (s.run = .busy → 0 < s.wait → step s = .next ({ s with inbox := rest, wait := s.wait - 1 }.hostAccess op))

/-- From every state with RUN = BUSY, some run of at most wait + 1 steps answers next states only and reaches a state
with RUN = IDLE, whatever the Host does meanwhile (wait, the number of accesses that land before the completion, is
the model's free V10). -/
def Obligations.EveryCommandCompletes : Prop :=
  ∀ s : State, s.run = .busy →
    ∃ (k : Nat) (t : State), 1 ≤ k ∧ k ≤ s.wait + 1 ∧
      Host.Core.run Sys2Proof.core k s = Host.Outcome.next t ∧ t.run = .idle

/-- With RUN = IDLE, a Host write of v to address 0 sets CMD to v[7:0], clears DONE, ERROR, ERRKIND, ERRSUB and
ERRDETAIL, sets RUN to BUSY and changes no other state of the block (the model also draws the free V10, log entry
4). -/
def Obligations.CmdWriteStartsCommand : Prop :=
  ∀ (s : State) (v : Word) (rest : List HostOp), s.run = .idle → s.inbox = .write 0x00000000 v :: rest →
    ∃ t, step s = .next t ∧
      t = { s with
        cmd := v.extractLsb' 0 8
        status := { done := false, error := false, kind := 0, sub := 0, detail := 0 }
        run := .busy
        inbox := rest
        wait := t.wait
        fresh := t.fresh }

/-- A Host step that is neither an accepted write of address 0 nor a reset leaves CMD, RUN and every field of STATUS,
and the registers OLEN and ROOT, the files NODE and CB and the buffer OBUF as they were; a write of STATUS
acknowledges nothing. -/
def Obligations.FailureRecordLasts : Prop :=
  ∀ (s t : State) (op : HostOp) (rest : List HostOp), s.inbox = op :: rest → (s.run = .idle ∨ 0 < s.wait) →
    op ≠ .reset → (∀ v, op = .write 0x00000000 v → s.run = .busy) → step s = .next t →
    t.status = s.status ∧ t.cmd = s.cmd ∧ t.run = s.run ∧ t.olen = s.olen ∧ t.root = s.root ∧ t.node = s.node ∧
      t.cb = s.cb ∧ t.obuf = s.obuf ∧ t.scan = s.scan ∧ t.params = s.params ∧ t.epoch = s.epoch

/-- While RUN = BUSY a Host write to any address, CMD included, changes nothing of the block; a Host read returns one
word and changes nothing of the block; a read of STATUS returns 1 (BUSY) when STATUS is legal (the invariant
StepKeepsStatusLegal). The word any other address returns is unspecified: nothing is said of it (log entry 3). -/
def Obligations.AccessesWhileBusy : Prop :=
  ∀ (s : State) (addr : Word) (rest : List HostOp), s.run = .busy → 0 < s.wait →
    (∀ v, s.inbox = .write addr v :: rest → step s = .next { s with inbox := rest, wait := s.wait - 1 }) ∧
    (s.inbox = .read addr :: rest →
      ∃ w n, step s = .next { s with inbox := rest, wait := s.wait - 1, replies := s.replies ++ [w], fresh := n } ∧
        (addr = 0x00000004 → StatusInv s → w = 0x00000001))

/-- While RUN = BUSY a WAIT reads STATUS and stays the Host's next access; with RUN = IDLE it reads STATUS and is done;
it changes nothing of the block. (That a WAIT is one entry of the Host's queue is the model's choice, log entry 4.) -/
def Obligations.WaitPollsStatus : Prop :=
  ∀ (s : State) (rest : List HostOp), s.inbox = .wait :: rest →
    (s.run = .busy → 0 < s.wait →
      step s = .next { s with wait := s.wait - 1, replies := s.replies ++ [statusWord s.run s.status] }) ∧
    (s.run = .idle → step s = .next { s with inbox := rest, replies := s.replies ++ [statusWord s.run s.status] })

/-- With RUN = IDLE, reads of addresses 0x00, 0x08, 0x0C and 0x10 return CMD in 8 bits, ILEN, OLEN and ROOT in 9 bits,
with 0 above, and change nothing of the block; a write of d to 0x08 makes ILEN = d, whatever d is, and changes
nothing else. -/
def Obligations.ScalarRegisterAccesses : Prop :=
  ∀ (s : State) (addr : Word) (rest : List HostOp), s.run = .idle →
    (s.inbox = .read addr :: rest →
      ∃ w, step s = .next { s with inbox := rest, replies := s.replies ++ [w] } ∧
        (addr = 0x00000000 → w.toNat = s.cmd.toNat) ∧ (addr = 0x00000008 → w = s.ilen) ∧
        (addr = 0x0000000C → w = s.olen) ∧ (addr = 0x00000010 → w.toNat = s.root.toNat)) ∧
    ∀ d, s.inbox = .write 0x00000008 d :: rest → step s = .next { s with inbox := rest, ilen := d }

/-- A Host read of STATUS (which while BUSY is the one read that is true) returns BUSY in bit 0, DONE in bit 1, ERROR in
bit 2, 0 in [7:3], ERRKIND in [11:8], ERRSUB in [15:12], ERRDETAIL in [23:16] and 0 in [31:24]; in states whose
STATUS is legal (the invariant StepKeepsStatusLegal) the word is 0, 1, 2 or (detail << 16) | (sub << 12) | (kind <<
8) | 6 with kind 1 to 6 of a failure. -/
def Obligations.StatusReadFormat : Prop :=
  ∀ (s : State) (rest : List HostOp), (s.run = .idle ∨ 0 < s.wait) → s.inbox = .read 0x00000004 :: rest →
    ∃ t w, step s = .next t ∧ t.replies = s.replies ++ [w] ∧
      w.getLsbD 0 = (s.run == .busy) ∧ w.getLsbD 1 = s.status.done ∧ w.getLsbD 2 = s.status.error ∧
      w.extractLsb' 3 5 = 0 ∧ w.extractLsb' 8 4 = s.status.kind ∧ w.extractLsb' 12 4 = s.status.sub ∧
      w.extractLsb' 16 8 = s.status.detail ∧ w.extractLsb' 24 8 = 0 ∧
      (StatusInv s → w = 0x00000000 ∨ w = 0x00000001 ∨ w = 0x00000002 ∨
        ∃ f : Failure, 1 ≤ f.kindCode.toNat ∧ f.kindCode.toNat ≤ 6 ∧
          w.toNat = f.detailByte.toNat * 2 ^ 16 + f.subCode.toNat * 2 ^ 12 + f.kindCode.toNat * 2 ^ 8 + 6)

/-- The completed failures show EmptyInput 0x0106, MissingCode of s (s << 16) | 0x0206, TRUNCATED 0x1306, PADDING
0x2306, NOCHILD 0x3306, PARTIAL 0x4306, THROUGH_LEAF 0x1406, SAME_NODE 0x2406, ENDS_AT_INTERNAL 0x3406,
OutputOverflow 0x0506, IllegalCommand OPCODE of op (op << 16) | 0x1606 and LENGTH 0x2606. -/
def Obligations.FailureStatusWords : Prop :=
  (∀ w : Failure → Word, (∀ f, w f = statusWord .idle (Status.ofResult (some f))) →
    w .emptyInput = 0x00000106 ∧ w .truncated = 0x00001306 ∧ w .padding = 0x00002306 ∧ w .noChild = 0x00003306 ∧
    w .partialCode = 0x00004306 ∧ w .throughLeaf = 0x00001406 ∧ w .sameNode = 0x00002406 ∧
    w .endsAtInternal = 0x00003406 ∧ w .outputOverflow = 0x00000506 ∧ w .illegalLength = 0x00002606 ∧
    (∀ b : Byte, w (.missingCode b) = b.setWidth 32 <<< 16 ||| 0x00000206) ∧
    (∀ b : Byte, w (.illegalOpcode b) = b.setWidth 32 <<< 16 ||| 0x00001606))

/-- With RUN = IDLE, a write of d to 0x0400 + 4s makes FT[s] = d for every 32-bit d, leaves every other counter, and
changes nothing else (NODE, ROOT and CB included); a read of that address returns FT[s] and changes nothing. -/
def Obligations.FtWordReadAndWrite : Prop :=
  ∀ (s : State) (b : Byte) (rest : List HostOp), s.run = .idle →
    (∀ d, s.inbox = .write (BitVec.ofNat 32 (0x400 + 4 * b.toNat)) d :: rest →
      ∃ t, step s = .next t ∧ t = { s with inbox := rest, ft := t.ft } ∧ ftGet t.ft b.toNat = d ∧
        ∀ j, j ≠ b.toNat → ftGet t.ft j = ftGet s.ft j) ∧
    (s.inbox = .read (BitVec.ofNat 32 (0x400 + 4 * b.toNat)) :: rest →
      step s = .next { s with inbox := rest, replies := s.replies ++ [ftGet s.ft b.toNat] })

/-- With RUN = IDLE, the word read at 0x2000 + 16i + 4w is FREQ[31:0] for w = 0, FREQ[39:32] in [7:0] for w = 1, LEFT in
[8:0] and RIGHT in [24:16] for w = 2, USED in [0] for w = 3, every other bit 0; the read changes nothing. -/
def Obligations.NodeWordFormat : Prop :=
  ∀ (s : State) (i w : Nat) (rest : List HostOp), s.run = .idle → i < 511 → w < 4 →
    s.inbox = .read (BitVec.ofNat 32 (0x2000 + 16 * i + 4 * w)) :: rest →
    ∃ v : Word, step s = .next { s with inbox := rest, replies := s.replies ++ [v] } ∧
      (w = 0 → v.toNat = (nodeGet s.node i).freq.toNat % 2 ^ 32) ∧
      (w = 1 → v.toNat = (nodeGet s.node i).freq.toNat / 2 ^ 32) ∧
      (w = 2 → v.toNat = (nodeGet s.node i).left.toNat + 2 ^ 16 * (nodeGet s.node i).right.toNat) ∧
      (w = 3 → v.toNat = (nodeGet s.node i).used.toNat)

/-- With RUN = IDLE, the word read at 0x4000 + 64s is LEN with VALID in bit 31, and code bit BITS[k] is bit k mod 32 of
the word at 0x4000 + 64s + 4(1 + k div 32); the reads change nothing. -/
def Obligations.CbWordFormat : Prop :=
  ∀ (s : State) (b : Byte) (w : Nat) (rest : List HostOp), s.run = .idle → w ≤ 8 →
    s.inbox = .read (BitVec.ofNat 32 (0x4000 + 64 * b.toNat + 4 * w)) :: rest →
    ∃ v : Word, step s = .next { s with inbox := rest, replies := s.replies ++ [v] } ∧
      (w = 0 → v.toNat = (cbGet s.cb b.toNat).len.toNat + 2 ^ 31 * (cbGet s.cb b.toNat).valid.toNat) ∧
      (1 ≤ w → ∀ k, k / 32 = w - 1 → v.getLsbD (k % 32) = (cbGet s.cb b.toNat).bits.getLsbD k)

/-- With RUN = IDLE and a legal aligned offset a, a write of IBUF stores bits [7:0], [15:8], [23:16], [31:24] at
IBUF[a], IBUF[a+1], IBUF[a+2], IBUF[a+3], leaves every other byte and changes nothing else; a read of IBUF or OBUF
returns the four bytes in the same lanes and changes nothing; a write of OBUF is ignored. -/
def Obligations.BufferWordLanes : Prop :=
  ∀ (s : State) (a : Nat) (rest : List HostOp), s.run = .idle → s.params.Legal → a % 4 = 0 →
    (a < s.params.ibufSize →
      (∀ d : Word, s.inbox = .write (BitVec.ofNat 32 (0x01000000 + a)) d :: rest →
        ∃ t, step s = .next t ∧ t = { s with inbox := rest, ibuf := t.ibuf } ∧
          (∀ k, k < 4 → t.ibufByte (a + k) = d.extractLsb' (8 * k) 8) ∧
          ∀ b, (b < a ∨ a + 4 ≤ b) → t.ibufByte b = s.ibufByte b) ∧
      (s.inbox = .read (BitVec.ofNat 32 (0x01000000 + a)) :: rest →
        ∃ v : Word, step s = .next { s with inbox := rest, replies := s.replies ++ [v] } ∧
          ∀ k, k < 4 → v.extractLsb' (8 * k) 8 = s.ibufByte (a + k))) ∧
    (a < s.params.obufSize →
      (s.inbox = .read (BitVec.ofNat 32 (0x02000000 + a)) :: rest →
        ∃ v : Word, step s = .next { s with inbox := rest, replies := s.replies ++ [v] } ∧
          ∀ k, k < 4 → v.extractLsb' (8 * k) 8 = s.obufByte (a + k)) ∧
      (∀ d : Word, s.inbox = .write (BitVec.ofNat 32 (0x02000000 + a)) d :: rest →
        step s = .next { s with inbox := rest }))

/-- With RUN = IDLE, a write to any address that is not one of CMD, ILEN, FT or IBUF (misaligned, reserved or read only)
changes nothing, and a read of any address outside the map (misaligned or reserved) returns 0 and changes nothing;
neither raises a failure. -/
def Obligations.UnmappedAccesses : Prop :=
  ∀ (s : State) (addr : Word) (rest : List HostOp), s.run = .idle → s.params.Legal →
    (∀ v, s.inbox = .write addr v :: rest → ¬ Writable s.params addr → step s = .next { s with inbox := rest }) ∧
    (s.inbox = .read addr :: rest → ¬ Writable s.params addr → ¬ ReadOnly s.params addr →
      step s = .next { s with inbox := rest, replies := s.replies ++ [0x00000000] })

/-- With ILEN at most IBUF_SIZE, COUNT completes without failure; FT[s] is the number of indices a < ILEN with IBUF[a] =
s, the counters sum to ILEN, as many are non-zero as there are distinct input bytes, and nothing but FT, RUN and
STATUS changes. -/
def Obligations.CountFillsTable : Prop :=
  ∀ s : State, s.ilen.toNat ≤ s.params.ibufSize →
    ∃ t, exec .count s = .next t ∧
      t = { s with ft := t.ft, run := .idle, status := okStatus, scan := Scan.empty } ∧
      (∀ b : Byte, (ftGet t.ft b.toNat).toNat = ((List.range s.ilen.toNat).map s.ibufByte).count b) ∧
      ftTotal t.ft = s.ilen.toNat ∧
      ((List.range 256).filter fun i => ftGet t.ft i ≠ 0).length =
        ((List.range s.ilen.toNat).map s.ibufByte).dedup.length

/-- With ILEN > IBUF_SIZE, COUNT and COMPILE complete with IllegalCommand(LENGTH) and leave everything else, FT, NODE,
ROOT and CB included; ENCODE and DECODE do the same and set OLEN to 0; BUILD and WALK make no such check (they end
as they do with ILEN = 0). -/
def Obligations.OverlongInputIsIllegalCommand : Prop :=
  ∀ s : State, s.params.ibufSize < s.ilen.toNat →
    (∀ i, i = Instr.count ∨ i = Instr.compile →
      exec i s = .next { s with run := .idle, status := failStatus 6 2 0, scan := Scan.empty }) ∧
    (∀ i, i = Instr.encode ∨ i = Instr.decode →
      exec i s = .next { s with olen := 0, run := .idle, status := failStatus 6 2 0, scan := Scan.empty }) ∧
    (∀ i, i = Instr.build ∨ i = Instr.walk →
      ∃ t, exec i { s with ilen := 0 } = .next t ∧ exec i s = .next { t with ilen := s.ilen } ∧
        t.status ≠ failStatus 6 2 0)

/-- When every counter is 0, BUILD completes with EmptyInput, every NODE slot unused and ROOT = NONE; when ROOT = NONE,
WALK completes with EmptyInput and every CB record invalid; with ILEN = 0, COMPILE completes with EmptyInput, every
FT counter 0, every slot unused, ROOT = NONE and every record invalid. Nothing else changes. -/
def Obligations.EmptyInputLeavesNothingStale : Prop :=
  ∀ s : State,
    ((∀ i, i < 256 → ftGet s.ft i = 0) →
      ∃ t, exec .build s = .next t ∧ (∀ i, nodeGet t.node i = Node.unused) ∧ t.root = 0x1FF#9 ∧
        t = { s with node := t.node, root := t.root, run := .idle, status := failStatus 1 0 0, scan := Scan.empty }) ∧
    (s.root = 0x1FF#9 →
      ∃ t, exec .walk s = .next t ∧ (∀ i, cbGet t.cb i = CbRec.invalid) ∧
        t = { s with cb := t.cb, run := .idle, status := failStatus 1 0 0, scan := Scan.empty }) ∧
    (s.ilen = 0 →
      ∃ t, exec .compile s = .next t ∧ (∀ i, ftGet t.ft i = 0) ∧ (∀ i, nodeGet t.node i = Node.unused) ∧
        t.root = 0x1FF#9 ∧ (∀ i, cbGet t.cb i = CbRec.invalid) ∧
        t = { s with
          ft := t.ft, node := t.node, root := t.root, cb := t.cb
          run := .idle, status := failStatus 1 0 0, scan := Scan.empty })

/-- When exactly one counter FT[x] is non-zero, BUILD does not fail; NODE[x] = {1, FT[x], NONE, NONE}, every other slot
is unused and ROOT = x. -/
def Obligations.BuildOfOneSymbol : Prop :=
  ∀ (s : State) (x : Nat), x < 256 → ftGet s.ft x ≠ 0 → (∀ i, i < 256 → i ≠ x → ftGet s.ft i = 0) →
    ∃ t, exec .build s = .next t ∧ t.root.toNat = x ∧
      nodeGet t.node x =
        { used := true, freq := (ftGet s.ft x).setWidth 40, left := 0x1FF#9, right := 0x1FF#9 } ∧
      (∀ i, i ≠ x → nodeGet t.node i = Node.unused) ∧
      t = { s with node := t.node, root := t.root, run := .idle, status := okStatus, scan := Scan.empty }

/-- When some counter is non-zero, BUILD completes without failure; (ROOT, NODE) is a tree as R36 says, its leaves are
exactly the symbols with a non-zero counter, each with its counter as FREQ, every other slot is unused, and nothing
but NODE, ROOT, RUN and STATUS changes. -/
def Obligations.BuildMakesTree : Prop :=
  ∀ s : State, (∃ i, i < 256 ∧ ftGet s.ft i ≠ 0) →
    ∃ t, exec .build s = .next t ∧ IsTree t.node t.root ∧
      (∀ i, i < 256 → ((nodeGet t.node i).used = true ↔ ftGet s.ft i ≠ 0)) ∧
      (∀ i, i < 256 → ftGet s.ft i ≠ 0 → (nodeGet t.node i).freq = (ftGet s.ft i).setWidth 40) ∧
      (∀ i, (nodeGet t.node i).used = false → nodeGet t.node i = Node.unused) ∧
      t = { s with node := t.node, root := t.root, run := .idle, status := okStatus, scan := Scan.empty }

/-- In the tree BUILD leaves, for every merge k that was made, NODE[256+k]'s LEFT is extracted before its RIGHT, and its
RIGHT before every other node that was live then (a leaf or an earlier internal node that is child of no earlier
internal node), by FREQ and then by index; both children were live. -/
def Obligations.MergesTakeTheLeastKeys : Prop :=
  ∀ s t : State, exec .build s = .next t → ∀ k, (nodeGet t.node (256 + k)).used = true →
    ∀ a b, a = (nodeGet t.node (256 + k)).left.toNat → b = (nodeGet t.node (256 + k)).right.toNat →
      ExtractedBefore t.node a b ∧ a < 256 + k ∧ b < 256 + k ∧
      (∀ i, i < 256 + k → ¬ ParentOf t.node i a ∧ ¬ ParentOf t.node i b) ∧
      ∀ c, c < 256 + k → (nodeGet t.node c).used = true → c ≠ a → c ≠ b →
        (∀ i, i < 256 + k → ¬ ParentOf t.node i c) → ExtractedBefore t.node b c

/-- In the tree BUILD leaves, the FREQ of every internal node is the exact sum of its children's, and NODE[ROOT].FREQ is
the sum of all counters. -/
def Obligations.FrequenciesNeverWrap : Prop :=
  ∀ s t : State, exec .build s = .next t →
    (∀ i, 256 ≤ i → (nodeGet t.node i).used = true →
      (nodeGet t.node i).freq.toNat = (nodeGet t.node (nodeGet t.node i).left.toNat).freq.toNat +
        (nodeGet t.node (nodeGet t.node i).right.toNat).freq.toNat) ∧
    (t.root ≠ 0x1FF#9 → (nodeGet t.node t.root.toNat).freq.toNat = ftTotal s.ft)

/-- Two BUILDs from equal frequency tables end with equal NODE and equal ROOT (and the same STATUS), whatever NODE, ROOT
and everything else held before. -/
def Obligations.BuildIsAFunctionOfTheTable : Prop :=
  ∀ s u : State, (∀ i, i < 256 → ftGet s.ft i = ftGet u.ft i) →
    ∃ t v, exec .build s = .next t ∧ exec .build u = .next v ∧ (∀ i, nodeGet t.node i = nodeGet v.node i) ∧
      t.root = v.root ∧ t.status = v.status

/-- When ROOT < 256, WALK completes without failure; CB[ROOT] = {VALID=1, LEN=1, BITS=0}, every other record is invalid,
and nothing but CB, RUN and STATUS changes. -/
def Obligations.WalkOfOneLeafGivesTheSentinel : Prop :=
  ∀ s : State, s.root.toNat < 256 →
    ∃ t, exec .walk s = .next t ∧ cbGet t.cb s.root.toNat = { valid := true, len := 1, bits := 0 } ∧
      (∀ i, i ≠ s.root.toNat → cbGet t.cb i = CbRec.invalid) ∧
      t = { s with cb := t.cb, run := .idle, status := okStatus, scan := Scan.empty }

/-- When (ROOT, NODE) is a tree whose root is internal, WALK completes without failure; CB[s] is valid exactly for the
used leaves s, its code leads from the root to s (bit 0 to LEFT, bit 1 to RIGHT) and has between 1 and 255 bits, no
bit of BITS is set at or above LEN, every other record is invalid, and nothing but CB, RUN and STATUS changes. -/
def Obligations.WalkGivesEveryLeafItsPath : Prop :=
  ∀ s : State, IsTree s.node s.root → 256 ≤ s.root.toNat →
    ∃ t, exec .walk s = .next t ∧
      (∀ i, i < 256 → ((cbGet t.cb i).valid = true ↔ (nodeGet s.node i).used = true)) ∧
      (∀ i, i < 256 → (cbGet t.cb i).valid = true →
        descend s.node s.root.toNat (cbGet t.cb i).code = i ∧ 1 ≤ (cbGet t.cb i).len.toNat ∧
        ∀ k, (cbGet t.cb i).len.toNat ≤ k → (cbGet t.cb i).bits.getLsbD k = false) ∧
      (∀ i, (cbGet t.cb i).valid = false → cbGet t.cb i = CbRec.invalid) ∧
      t = { s with cb := t.cb, run := .idle, status := okStatus, scan := Scan.empty }

/-- After a WALK of a tree, no valid code is a prefix of another symbol's valid code and every valid LEN is between 1
and 255. -/
def Obligations.CompiledCodesArePrefixFree : Prop :=
  ∀ s t : State, IsTree s.node s.root → exec .walk s = .next t →
    (∀ i j, i < 256 → j < 256 → (cbGet t.cb i).valid = true → (cbGet t.cb j).valid = true → i ≠ j →
      ¬ (cbGet t.cb i).code <+: (cbGet t.cb j).code) ∧
    ∀ i, i < 256 → (cbGet t.cb i).valid = true → 1 ≤ (cbGet t.cb i).len.toNat ∧ (cbGet t.cb i).len.toNat ≤ 255

/-- After a WALK of a tree whose root is internal, every infinite bit sequence has exactly one valid code as a prefix. -/
def Obligations.CompiledCodesAreComplete : Prop :=
  ∀ s t : State, IsTree s.node s.root → 256 ≤ s.root.toNat → exec .walk s = .next t →
    ∀ f : Nat → Bool, ∃! i, i < 256 ∧ (cbGet t.cb i).valid = true ∧
      (cbGet t.cb i).code = (List.range (cbGet t.cb i).len.toNat).map f

/-- With 1 ≤ ILEN ≤ IBUF_SIZE, COUNT, then BUILD, then WALK each complete without failure and COMPILE ends in the very
state they end in (CMD, which names the command, is written by its start and not by its completion). -/
def Obligations.CompileEqualsCountBuildWalk : Prop :=
  ∀ s : State, 1 ≤ s.ilen.toNat → s.ilen.toNat ≤ s.params.ibufSize →
    ∃ s1 s2 s3, exec .count s = .next s1 ∧ exec .build s1 = .next s2 ∧ exec .walk s2 = .next s3 ∧
      s1.status = okStatus ∧ s2.status = okStatus ∧ s3.status = okStatus ∧ exec .compile s = .next s3

/-- With 1 ≤ ILEN ≤ IBUF_SIZE, every input byte coded and H + P + 1 ≤ OBUF_SIZE, ENCODE completes without failure: OLEN
= H + P + 1, OBUF[0] = n - 1, every valid symbol's entry stands after those of the smaller symbols with SYM, LEN and
its code LSB first and unused CODE bits 0, payload bit k is bit k of the codes of the input in order and 0 past the
last, the last byte is the PAD byte; every byte at index ≥ OLEN is unchanged, and nothing but OBUF, OLEN, RUN and
STATUS changes. -/
def Obligations.EncodeWritesTheContainer : Prop :=
  ∀ s : State, s.params.Legal → 1 ≤ s.ilen.toNat → s.ilen.toNat ≤ s.params.ibufSize → Covers s.cb s.input →
    containerSize s.cb s.input ≤ s.params.obufSize →
    ∃ t, exec .encode s = .next t ∧
      t = { s with obuf := t.obuf, olen := t.olen, run := .idle, status := okStatus, scan := Scan.empty } ∧
      t.olen.toNat = containerSize s.cb s.input ∧
      (t.obufByte 0).toNat + 1 = (codedSyms s.cb).length ∧
      (∀ r, r < 256 → (cbGet s.cb r).valid = true →
        (t.obufByte (entryOffset s.cb r)).toNat = r ∧
        t.obufByte (entryOffset s.cb r + 1) = (cbGet s.cb r).len ∧
        ∀ k, k < 8 * ceilDiv8 (cbGet s.cb r).len.toNat →
          (t.obufByte (entryOffset s.cb r + 2 + k / 8)).getLsbD (k % 8) =
            (decide (k < (cbGet s.cb r).len.toNat) && (cbGet s.cb r).bits.getLsbD k)) ∧
      (∀ k, k < 8 * ceilDiv8 (payloadSize s.cb s.input) →
        (t.obufByte (headerSize s.cb + k / 8)).getLsbD (k % 8) =
          (s.input.flatMap fun b => (cbGet s.cb b.toNat).code).getD k false) ∧
      (payloadSize s.cb s.input % 8 = 0 → t.obufByte (containerSize s.cb s.input - 1) = 0) ∧
      (payloadSize s.cb s.input % 8 ≠ 0 →
        (t.obufByte (containerSize s.cb s.input - 1)).toNat = 8 - payloadSize s.cb s.input % 8) ∧
      ∀ a, containerSize s.cb s.input ≤ a → t.obufByte a = s.obufByte a

/-- With ILEN = 0 ENCODE raises EmptyInput whatever CB holds; with 1 ≤ ILEN ≤ IBUF_SIZE and the input pre ++ b :: post,
every byte of pre coded and b not, it raises MissingCode with detail b; with every byte coded and H + P + 1 >
OBUF_SIZE it raises OutputOverflow. In each case OLEN = 0, OBUF is unchanged and nothing else changes. -/
def Obligations.EncodeFailures : Prop :=
  ∀ s : State,
    (s.ilen = 0 →
      exec .encode s = .next { s with olen := 0, run := .idle, status := failStatus 1 0 0, scan := Scan.empty }) ∧
    (∀ pre b post, s.ilen.toNat ≤ s.params.ibufSize → s.input = pre ++ b :: post → Covers s.cb pre →
      (cbGet s.cb b.toNat).valid = false →
      exec .encode s = .next { s with olen := 0, run := .idle, status := failStatus 2 0 b, scan := Scan.empty }) ∧
    (1 ≤ s.ilen.toNat → s.ilen.toNat ≤ s.params.ibufSize → Covers s.cb s.input →
      s.params.obufSize < containerSize s.cb s.input →
      exec .encode s = .next { s with olen := 0, run := .idle, status := failStatus 5 0 0, scan := Scan.empty })

/-- ENCODE and DECODE always complete; if they fail, OLEN = 0 and every byte of OBUF is unchanged; if not, every byte of
OBUF at index ≥ OLEN is unchanged (in instances of legal sizes); nothing but OBUF, OLEN, RUN and STATUS ever
changes. -/
def Obligations.FailedCommandsLeaveNoOutput : Prop :=
  ∀ (s : State) (i : Instr), s.params.Legal → (i = .encode ∨ i = .decode) →
    ∃ t, exec i s = .next t ∧
      t = { s with obuf := t.obuf, olen := t.olen, run := .idle, status := t.status, scan := Scan.empty } ∧
      t.status.done = true ∧
      (t.status.error = true → t.olen = 0 ∧ ∀ a, t.obufByte a = s.obufByte a) ∧
      (t.status.error = false → t.status = okStatus ∧ ∀ a, t.olen.toNat ≤ a → t.obufByte a = s.obufByte a)

/-- If the bytes of IBUF are any beginning of a header (COUNT and its entries), from none of it to all of it with no PAD
byte, DECODE completes with MalformedContainer(TRUNCATED), OLEN = 0 and nothing else changed. -/
def Obligations.DecodeOfTruncatedContainer : Prop :=
  ∀ (s : State) (es : List WireEntry) (c : List Byte), WireOk es → c <+: wireHeader es → Holds s c →
    exec .decode s = .next { s with olen := 0, run := .idle, status := failStatus 3 1 0, scan := Scan.empty }

/-- For a container with one entry, whatever its LEN and CODE bits, and an acceptable PAD, with U = 8P - PAD usable
bits: DECODE emits the symbol U times whatever the payload bits are, if that fits OBUF, leaving every byte at index
≥ U; otherwise it raises OutputOverflow. Nothing else changes. -/
def Obligations.DecodeOfSingleEntry : Prop :=
  ∀ (s : State) (e : WireEntry) (payload : List Byte) (pad : Byte), s.params.Legal → e.Fits → PadOk payload pad →
    Holds s (wireContainer [e] payload pad) →
    (8 * payload.length - pad.toNat ≤ s.params.obufSize →
      ∃ t, exec .decode s = .next t ∧
        t = { s with obuf := t.obuf, olen := t.olen, run := .idle, status := okStatus, scan := Scan.empty } ∧
        Produced t (List.replicate (8 * payload.length - pad.toNat) e.sym) ∧
        ∀ a, t.olen.toNat ≤ a → t.obufByte a = s.obufByte a) ∧
    (s.params.obufSize < 8 * payload.length - pad.toNat →
      exec .decode s = .next { s with olen := 0, run := .idle, status := failStatus 5 0 0, scan := Scan.empty })

/-- For a container with two or more entries in any order, prefix-free codes (symbols may repeat, codes need not be
complete, unused bits are free) and an acceptable PAD, whose usable bits are the codes of a sequence xs of entries
one after another: DECODE emits their symbols in order if they fit OBUF, leaving every byte past them, and otherwise
raises OutputOverflow. Nothing else changes. -/
def Obligations.DecodeRecoversSymbols : Prop :=
  ∀ (s : State) (es xs : List WireEntry) (payload : List Byte) (pad : Byte), s.params.Legal →
    WireOk es → 2 ≤ es.length → PrefixFree es → PadOk payload pad → Holds s (wireContainer es payload pad) →
    (∀ x ∈ xs, x ∈ es) → usableBits payload pad = xs.flatMap WireEntry.bits →
    (xs.length ≤ s.params.obufSize →
      ∃ t, exec .decode s = .next t ∧
        t = { s with obuf := t.obuf, olen := t.olen, run := .idle, status := okStatus, scan := Scan.empty } ∧
        Produced t (xs.map WireEntry.sym) ∧ ∀ a, t.olen.toNat ≤ a → t.obufByte a = s.obufByte a) ∧
    (s.params.obufSize < xs.length →
      exec .decode s = .next { s with olen := 0, run := .idle, status := failStatus 5 0 0, scan := Scan.empty })

/-- For a container with two or more entries, prefix-free codes and an acceptable PAD, whose usable bits are the codes
of a sequence of entries followed by r: if r is a non-empty proper prefix of some code, DECODE raises
MalformedContainer(PARTIAL); if r is a prefix of no code and no code is a prefix of r, it raises
MalformedContainer(NOCHILD). OLEN = 0 and nothing else changes. -/
def Obligations.DecodeRejectsBadPayload : Prop :=
  ∀ (s : State) (es xs : List WireEntry) (r : Bits) (payload : List Byte) (pad : Byte),
    WireOk es → 2 ≤ es.length → PrefixFree es → PadOk payload pad → Holds s (wireContainer es payload pad) →
    (∀ x ∈ xs, x ∈ es) → usableBits payload pad = xs.flatMap WireEntry.bits ++ r →
    (r ≠ [] → (∃ e ∈ es, r <+: e.bits ∧ r ≠ e.bits) →
      exec .decode s = .next { s with olen := 0, run := .idle, status := failStatus 3 4 0, scan := Scan.empty }) ∧
    ((∀ e ∈ es, ¬ r <+: e.bits ∧ ¬ e.bits <+: r) →
      exec .decode s = .next { s with olen := 0, run := .idle, status := failStatus 3 3 0, scan := Scan.empty })

/-- In a complete container whose entries pre are prefix-free and whose next entry e conflicts with one of them, DECODE
raises ConflictingCodes whatever follows (a bad PAD included): THROUGH_LEAF if an earlier code is a proper prefix of
e's, SAME_NODE if it is equal, ENDS_AT_INTERNAL if e's is a proper prefix of an earlier one. OLEN = 0 and nothing
else changes. -/
def Obligations.DecodeRejectsConflictingCodes : Prop :=
  ∀ (s : State) (pre : List WireEntry) (e : WireEntry) (post : List WireEntry) (payload : List Byte) (pad : Byte),
    WireOk (pre ++ e :: post) → PrefixFree pre → Holds s (wireContainer (pre ++ e :: post) payload pad) →
    ((∃ x ∈ pre, x.bits <+: e.bits ∧ x.bits ≠ e.bits) →
      exec .decode s = .next { s with olen := 0, run := .idle, status := failStatus 4 1 0, scan := Scan.empty }) ∧
    ((∃ x ∈ pre, x.bits = e.bits) →
      exec .decode s = .next { s with olen := 0, run := .idle, status := failStatus 4 2 0, scan := Scan.empty }) ∧
    ((∃ x ∈ pre, e.bits <+: x.bits ∧ e.bits ≠ x.bits) →
      exec .decode s = .next { s with olen := 0, run := .idle, status := failStatus 4 3 0, scan := Scan.empty })

/-- For a complete container with prefix-free codes: if the PAD byte is above 7, or not 0 when there is no payload byte,
DECODE raises MalformedContainer(PADDING), OLEN = 0 and nothing else changes; with no payload byte and PAD 0 it
succeeds with OLEN = 0 and no byte of OBUF written. -/
def Obligations.DecodeJudgesThePadByte : Prop :=
  ∀ (s : State) (es : List WireEntry) (payload : List Byte) (pad : Byte), WireOk es → PrefixFree es →
    Holds s (wireContainer es payload pad) →
    ((7 < pad.toNat ∨ (payload = [] ∧ pad ≠ 0)) →
      exec .decode s = .next { s with olen := 0, run := .idle, status := failStatus 3 2 0, scan := Scan.empty }) ∧
    (payload = [] → pad = 0 →
      exec .decode s = .next { s with olen := 0, run := .idle, status := okStatus, scan := Scan.empty })

/-- Take two instances of the same sizes with equal ILEN and equal IBUF[0..ILEN-1]. Their DECODEs end with the same
STATUS, the same OLEN and the same output bytes, whatever FT, NODE, ROOT, CB and the rest hold; their ENCODEs do so
if CB is equal: byte-identical containers. -/
def Obligations.ResultsDependOnlyOnTheInput : Prop :=
  ∀ s u : State, s.params = u.params → s.ilen = u.ilen → (∀ a, a < s.ilen.toNat → s.ibufByte a = u.ibufByte a) →
    ∀ i, (i = .decode ∨ (i = .encode ∧ ∀ k, k < 256 → cbGet s.cb k = cbGet u.cb k)) →
      ∃ t v, exec i s = .next t ∧ exec i u = .next v ∧ t.status = v.status ∧ t.olen = v.olen ∧
        ∀ a, a < t.olen.toNat → t.obufByte a = v.obufByte a

/-- Inserting at most 256 entries whose codes have at most 255 bits, from an empty root, never makes a trie of more than
1 + 256 x 255 = 65281 nodes; if OBUF_SIZE ≥ 8 x IBUF_SIZE, as with the default sizes, the completion of a DECODE is
never OutputOverflow. -/
def Obligations.DecodeStaysWithinItsBounds : Prop :=
  (∀ (es : List Entry) (t : Trie), es.length ≤ 256 → (∀ e ∈ es, e.code.length ≤ 255) →
    insertAll es .empty = .ok t → t.size ≤ 65281) ∧
  (∀ s t : State, 8 * s.params.ibufSize ≤ s.params.obufSize → exec .decode s = .next t →
    t.status ≠ failStatus 5 0 0)

/-- If ENCODE of data under a compiled codebook (R37 shape (b), one symbol meaning a one-bit code by R153, log entry 14)
succeeds, then in any state u, whatever its FT, NODE, CB, OBUF, that holds those container bytes as its input, with
sizes they and the data fit, DECODE completes without failure, OLEN is the data's length and OBUF holds the data. -/
def Obligations.DecodeOfEncodeIsTheData : Prop :=
  ∀ s t : State, s.params.Legal → IsCodebook s.cb → exec .encode s = .next t → t.status.error = false →
    ∀ u : State, u.params.Legal → u.ilen = t.olen → u.ilen.toNat ≤ u.params.ibufSize →
      (∀ a, a < t.olen.toNat → u.ibufByte a = t.obufByte a) → s.ilen.toNat ≤ u.params.obufSize →
      ∃ v, exec .decode u = .next v ∧ v.status = okStatus ∧ v.olen = s.ilen ∧
        ∀ a, a < s.ilen.toNat → v.obufByte a = s.ibufByte a

/-- For every non-empty input that fits IBUF: COMPILE does not fail, and if ENCODE then does not fail and the container,
fed back as the input of any instance it fits, whose OBUF the data fit, is decoded, DECODE does not fail, OLEN is
the data's length and OBUF holds the data. (That the data fit OBUF is said apart: R17's "whose container fits" does
not give it for odd sizes, a one-symbol container being shorter than its data, log entry 13.) -/
def Obligations.RoundTrip : Prop :=
  ∀ s s1 s2 : State, s.params.Legal → 1 ≤ s.ilen.toNat → s.ilen.toNat ≤ s.params.ibufSize →
    exec .compile s = .next s1 → exec .encode s1 = .next s2 →
    s1.status = okStatus ∧
    (s2.status.error = false →
      ∀ u : State, u.params.Legal → u.ilen = s2.olen → u.ilen.toNat ≤ u.params.ibufSize →
        (∀ a, a < s2.olen.toNat → u.ibufByte a = s2.obufByte a) → s.ilen.toNat ≤ u.params.obufSize →
        ∃ v, exec .decode u = .next v ∧ v.status = okStatus ∧ v.olen = s.ilen ∧
          ∀ a, a < s.ilen.toNat → v.obufByte a = s.ibufByte a)

/-- For a container in IBUF: the COUNT byte b declares b + 1 entries, the first at position 1; an entry's SYM byte is
taken and its LEN byte comes next if both lie in the buffer; its LEN byte l takes the l code bits, bit k in bit k
mod 8 of the byte k div 8 after it, and moves past ceil(l/8) CODE bytes if they lie in the buffer. Where they do
not, the DECODE ends with MalformedContainer(TRUNCATED) and OLEN = 0. (That these readings act on scratch held in
State is the model's choice, log entry 5.) -/
def Obligations.HeaderBytesAreRead : Prop :=
  ∀ (s : State) (b : Byte), s.ilen.toNat ≤ s.params.ibufSize →
    (1 ≤ s.ilen.toNat →
      exec (.containerCount b) s = .next { s with scan := { left := b.toNat + 1, p := 1, sym := 0, ents := [] } }) ∧
    (s.scan.p + 2 ≤ s.ilen.toNat →
      exec (.containerEntrySym b) s = .next { s with scan := { s.scan with sym := b, p := s.scan.p + 1 } }) ∧
    (s.scan.p + 1 + (b.toNat + 7) / 8 ≤ s.ilen.toNat →
      exec (.containerEntryLen b) s = .next { s with scan := {
        left := s.scan.left - 1
        p := s.scan.p + 1 + (b.toNat + 7) / 8
        sym := s.scan.sym
        ents := s.scan.ents ++ [{
          sym := s.scan.sym
          code := (List.range b.toNat).map fun k => (s.ibufByte (s.scan.p + 1 + k / 8)).getLsbD (k % 8) }] } }) ∧
    (∀ i, (i = .containerCount b ∧ s.ilen.toNat = 0) ∨ (i = .containerEntrySym b ∧ s.ilen.toNat < s.scan.p + 2) ∨
        (i = .containerEntryLen b ∧ s.ilen.toNat < s.scan.p + 1 + (b.toNat + 7) / 8) →
      exec i s = .next { s with olen := 0, run := .idle, status := failStatus 3 1 0, scan := Scan.empty })

/-- When the header of the container in IBUF has been read into the scratch, the reading of its last byte as PAD
completes, in the same state in which the DECODE command completes on that container. (The scratch held in State is
the model's choice, log entry 5.) -/
def Obligations.PadByteClosesTheContainer : Prop :=
  ∀ (s : State) (es : List WireEntry) (sym : Byte) (payload : List Byte) (pad : Byte), WireOk es →
    Holds s (wireContainer es payload pad) →
    s.scan = { left := 0, p := (wireHeader es).length, sym := sym,
               ents := es.map fun e => { sym := e.sym, code := e.bits } } →
    ∃ t, exec (.containerPad pad) s = .next t ∧ exec .decode s = .next t

/-- With a command in flight, DECODE ends in the very state that the readings of the COUNT byte, of each entry's SYM and
LEN bytes and of the PAD byte end in, each byte taken from IBUF at the position the readings before it left. (The
bytewise readings are the meanings of the table's CONTAINER rows; their scratch is the model's choice, log entry 5.) -/
def Obligations.DecodeIsItsBytewiseReading : Prop :=
  ∀ s : State, s.run = .busy → exec .decode s = .next (decodeBytewise s)

/-- For every opcode 0x00 and 0x07..0xFF, and for each of the seven illegal rows, the CMD write is accepted and the
completion sets STATUS to IllegalCommand with sub-cause 1 and the opcode as detail, RUN to IDLE, and changes no
other state. -/
def Obligations.IllegalOpcodesFail : Prop :=
  ∀ s : State,
    (∀ op : Byte, (op = 0 ∨ 7 ≤ op.toNat) →
      exec (decodeOpcode op) s = .next { s with run := .idle, status := failStatus 6 1 op, scan := Scan.empty }) ∧
    exec .illegal00 s = .next { s with run := .idle, status := failStatus 6 1 0x00, scan := Scan.empty } ∧
    exec .illegal07 s = .next { s with run := .idle, status := failStatus 6 1 0x07, scan := Scan.empty } ∧
    (∀ (op : Byte) (i : Instr), i = .illegal08_0F op ∨ i = .illegal10_1F op ∨ i = .illegal20_3F op ∨
        i = .illegal40_7F op ∨ i = .illegal80_FF op →
      exec i s = .next { s with run := .idle, status := failStatus 6 1 op, scan := Scan.empty }) ∧
    (∀ (op : Byte) (hi : BitVec 24) (rest : List HostOp), s.run = .idle → s.inbox = .write 0x00000000 (hi ++ op) :: rest →
      (op = 0 ∨ 7 ≤ op.toNat) → ∃ t, step s = .next t ∧ t.cmd = op ∧ t.status = Status.clear ∧ t.run = .busy)

/-- COUNT completes without failure or with LENGTH; BUILD and WALK without failure or with EmptyInput; COMPILE without,
or with LENGTH or EmptyInput; ENCODE without, or with LENGTH, EmptyInput, MissingCode or OutputOverflow; DECODE
without, or with LENGTH, TRUNCATED, a ConflictingCodes, PADDING, NOCHILD, PARTIAL or OutputOverflow; an illegal
opcode with OPCODE and that opcode. -/
def Obligations.CommandsRaiseOnlyTheirFailures : Prop :=
  ∀ s : State,
    (∃ t, exec .count s = .next t ∧ (t.status = okStatus ∨ t.status = failStatus 6 2 0)) ∧
    (∃ t, exec .build s = .next t ∧ (t.status = okStatus ∨ t.status = failStatus 1 0 0)) ∧
    (∃ t, exec .walk s = .next t ∧ (t.status = okStatus ∨ t.status = failStatus 1 0 0)) ∧
    (∃ t, exec .compile s = .next t ∧
      (t.status = okStatus ∨ t.status = failStatus 6 2 0 ∨ t.status = failStatus 1 0 0)) ∧
    (∃ t, exec .encode s = .next t ∧
      (t.status = okStatus ∨ t.status = failStatus 6 2 0 ∨ t.status = failStatus 1 0 0 ∨
        (∃ b, t.status = failStatus 2 0 b) ∨ t.status = failStatus 5 0 0)) ∧
    (∃ t, exec .decode s = .next t ∧
      (t.status = okStatus ∨ t.status = failStatus 6 2 0 ∨ t.status = failStatus 3 1 0 ∨ t.status = failStatus 4 1 0 ∨
        t.status = failStatus 4 2 0 ∨ t.status = failStatus 4 3 0 ∨ t.status = failStatus 3 2 0 ∨
        t.status = failStatus 3 3 0 ∨ t.status = failStatus 3 4 0 ∨ t.status = failStatus 5 0 0)) ∧
    (∀ op : Byte, (op = 0 ∨ 7 ≤ op.toNat) → ∃ t, exec (decodeOpcode op) s = .next t ∧ t.status = failStatus 6 1 op)

/-- Besides RUN and STATUS (and the scratch, which no command leaves), COUNT changes FT only, BUILD only NODE and ROOT,
WALK only CB, COMPILE only FT, NODE, ROOT and CB, ENCODE and DECODE only OBUF and OLEN: CMD, ILEN and IBUF never
change, and OBUF and OLEN keep the last result through COUNT, BUILD, WALK and COMPILE. -/
def Obligations.CommandsTouchOnlyTheirOutputs : Prop :=
  ∀ s t : State,
    (exec .count s = .next t → t = { s with ft := t.ft, run := .idle, status := t.status, scan := Scan.empty }) ∧
    (exec .build s = .next t →
      t = { s with node := t.node, root := t.root, run := .idle, status := t.status, scan := Scan.empty }) ∧
    (exec .walk s = .next t → t = { s with cb := t.cb, run := .idle, status := t.status, scan := Scan.empty }) ∧
    (exec .compile s = .next t →
      t = { s with
        ft := t.ft, node := t.node, root := t.root, cb := t.cb
        run := .idle, status := t.status, scan := Scan.empty }) ∧
    ((exec .encode s = .next t ∨ exec .decode s = .next t) →
      t = { s with obuf := t.obuf, olen := t.olen, run := .idle, status := t.status, scan := Scan.empty })

/-- From the reset state with only the CMD write, whatever the platform left in IBUF: COUNT succeeds and leaves FT all
0; BUILD, WALK, COMPILE and ENCODE fail with EmptyInput; DECODE fails with MalformedContainer(TRUNCATED). None
depends on an unspecified byte: the end states, but for the number that names those bytes, are the same whatever it
is. -/
def Obligations.CommandsFromReset : Prop :=
  ∀ (e : Nat) (v : Word) (s : State), s = { State.reset with epoch := e }.startCommand v →
    (∃ t, exec .count s = .next t ∧ t.status = okStatus ∧ ∀ i, ftGet t.ft i = 0) ∧
    (∀ i, i = Instr.build ∨ i = Instr.walk ∨ i = Instr.compile ∨ i = Instr.encode →
      ∃ t, exec i s = .next t ∧ t.status = failStatus 1 0 0) ∧
    (∃ t, exec .decode s = .next t ∧ t.status = failStatus 3 1 0) ∧
    (∀ i, i = Instr.count ∨ i = Instr.build ∨ i = Instr.walk ∨ i = Instr.compile ∨ i = Instr.encode ∨
        i = Instr.decode →
      ∀ e', ∃ t, exec i s = .next t ∧ exec i { s with epoch := e' } = .next { t with epoch := e' })
end

