-- ==== Sys2Proof/Laws/Bits.lean ====
section
/-! SUPPORT. The laws of LSB-first packing (00_scope R8): what `pack` and `unpack` hold bit by bit. -/

namespace Sys2Proof.Laws

open Sys2Proof.Machine

@[simp] theorem unpack_length (bytes : List Byte) (n : Nat) : (unpack bytes n).length = n := by simp [unpack]

@[simp] theorem pack_length (c : Bits) : (pack c).length = ceilDiv8 c.length := by simp [pack]

@[simp] theorem code_length (r : CbRec) : r.code.length = r.len.toNat := by simp [CbRec.code]

theorem unpack_getElem? (bytes : List Byte) {n k : Nat} (h : k < n) : (unpack bytes n)[k]? = some (bitAt bytes k) := by
  simp [unpack, h]

theorem code_getElem? (r : CbRec) {k : Nat} (h : k < r.len.toNat) : r.code[k]? = some (r.bits.getLsbD k) := by
  simp [CbRec.code, h]

/-- The byte of eight bits, bit by bit. -/
theorem byteOfBits_getLsbD : ∀ (b0 b1 b2 b3 b4 b5 b6 b7 : Bool) (k : Fin 8),
    (BitVec.ofNat 8 (b0.toNat + 2 * (b1.toNat + 2 * (b2.toNat + 2 * (b3.toNat + 2 * (b4.toNat + 2 * (b5.toNat +
      2 * (b6.toNat + 2 * (b7.toNat + 2 * 0))))))))).getLsbD k =
      [b0, b1, b2, b3, b4, b5, b6, b7].getD k false := by
  decide +kernel

/-- Bit `k` of byte `j` of a packing is bit `8j + k` of the sequence, 0 past its end. -/
theorem packByte_getLsbD (c : Bits) (j : Nat) {k : Nat} (h : k < 8) :
    (packByte c j).getLsbD k = c.getD (8 * j + k) false := by
  have h8 := byteOfBits_getLsbD (c.getD (8 * j + 0) false) (c.getD (8 * j + 1) false) (c.getD (8 * j + 2) false)
    (c.getD (8 * j + 3) false) (c.getD (8 * j + 4) false) (c.getD (8 * j + 5) false) (c.getD (8 * j + 6) false)
    (c.getD (8 * j + 7) false) ⟨k, h⟩
  refine Eq.trans ?_ (h8.trans ?_)
  · rfl
  · match k, h with
    | 0, _ | 1, _ | 2, _ | 3, _ | 4, _ | 5, _ | 6, _ | 7, _ => rfl

theorem pack_getD (c : Bits) {j : Nat} (h : j < ceilDiv8 c.length) : (pack c).getD j 0 = packByte c j := by
  simp [pack, List.getD_eq_getElem?_getD, h]

/-- The bits of a packing, in order. -/
theorem bitAt_pack (c : Bits) {k : Nat} (h : k < 8 * ceilDiv8 c.length) : bitAt (pack c) k = c.getD k false := by
  have hj : k / 8 < ceilDiv8 c.length := by omega
  unfold bitAt
  rw [pack_getD c hj, packByte_getLsbD c _ (by omega), show 8 * (k / 8) + k % 8 = k by omega]

/-- A bit inside a region does not depend on what follows it. -/
theorem bitAt_append (as bs : List Byte) {k : Nat} (h : k / 8 < as.length) : bitAt (as ++ bs) k = bitAt as k := by
  simp [bitAt, List.getD_eq_getElem?_getD, List.getElem?_append_left h]

end Sys2Proof.Laws
end

