-- ==== Sys2Proof/Laws/Table.lean ====
section
/-! SUPPORT. The laws of register files and buffers: what a read finds after a write or an erasure, and that every
operation keeps the canonical form. -/

namespace Sys2Proof.Laws

open Sys2Proof.Machine

variable {α : Type}

@[simp] theorem get?_nil (k : Nat) : Table.get? ([] : Table α) k = none := rfl

theorem get?_insert_self (t : Table α) (k : Nat) (v : α) : Table.get? (Table.insert t k v) k = some v := by
  induction t with
  | nil => simp [Table.insert, Table.get?]
  | cons e rest ih =>
    obtain ⟨i, w⟩ := e
    unfold Table.insert
    split
    · simp [Table.get?]
    · split
      · simp [Table.get?]
      · simp only [Table.get?]
        rw [if_neg (by omega), ih]

theorem get?_insert_other (t : Table α) {k j : Nat} (v : α) (h : j ≠ k) :
    Table.get? (Table.insert t k v) j = Table.get? t j := by
  induction t with
  | nil => simp [Table.insert, Table.get?, h.symm]
  | cons e rest ih =>
    obtain ⟨i, w⟩ := e
    unfold Table.insert
    split
    · simp only [Table.get?]
      rw [if_neg (by omega)]
    · split
      · next hk => simp only [Table.get?]; rw [if_neg (by omega), if_neg (by omega)]
      · simp only [Table.get?, ih]

/-- Reading after a write: the value at its index, the old one elsewhere. -/
@[simp] theorem get?_insert (t : Table α) (k j : Nat) (v : α) :
    Table.get? (Table.insert t k v) j = if j = k then some v else Table.get? t j := by
  split
  · next h => rw [h, get?_insert_self]
  · next h => exact get?_insert_other t v h

/-- Reading after an erasure. -/
@[simp] theorem get?_erase (t : Table α) (k j : Nat) :
    Table.get? (Table.erase t k) j = if j = k then none else Table.get? t j := by
  induction t with
  | nil => simp [Table.erase]
  | cons e rest ih =>
    obtain ⟨i, w⟩ := e
    simp only [Table.erase, List.filter] at ih ⊢
    by_cases hi : i = k
    · subst hi
      simp only [ne_eq, not_true_eq_false, decide_false, ih, Table.get?]
      split
      · rfl
      · next h => rw [if_neg (by omega)]
    · simp only [ne_eq, hi, not_false_eq_true, decide_true, Table.get?, ih]
      split
      · next h => rw [if_neg (by omega)]
      · rfl

theorem mem_insert {t : Table α} {k : Nat} {v : α} {e : Nat × α} (h : e ∈ Table.insert t k v) :
    e = (k, v) ∨ e ∈ t := by
  induction t with
  | nil => simpa [Table.insert] using h
  | cons f rest ih =>
    obtain ⟨i, w⟩ := f
    unfold Table.insert at h
    split at h
    · simpa using h
    · split at h
      · simp only [List.mem_cons] at h ⊢; tauto
      · simp only [List.mem_cons] at h ⊢
        rcases h with h | h
        · exact .inr (.inl h)
        · rcases ih h with h | h
          · exact .inl h
          · exact .inr (.inr h)

theorem rising_insert {t : Table α} (h : Table.Rising t) (k : Nat) (v : α) : Table.Rising (Table.insert t k v) := by
  induction t with
  | nil => simp [Table.insert]
  | cons e rest ih =>
    obtain ⟨i, w⟩ := e
    obtain ⟨hhead, hrest⟩ := List.pairwise_cons.1 h
    unfold Table.insert
    split
    · next hk =>
      refine List.pairwise_cons.2 ⟨?_, h⟩
      intro e he
      rcases List.mem_cons.1 he with he | he
      · rw [he]; exact hk
      · exact lt_trans hk (hhead e he)
    · split
      · next hk => exact List.pairwise_cons.2 ⟨fun e he => by simpa [hk] using hhead e he, hrest⟩
      · refine List.pairwise_cons.2 ⟨?_, ih hrest⟩
        intro e he
        rcases mem_insert he with he | he
        · rw [he]; show i < k; omega
        · exact hhead e he

theorem rising_erase {t : Table α} (h : Table.Rising t) (k : Nat) : Table.Rising (Table.erase t k) :=
  h.filter _

theorem below_insert {t : Table α} {n k : Nat} (h : Table.Below t n) (hk : k < n) (v : α) :
    Table.Below (Table.insert t k v) n := by
  intro e he
  rcases mem_insert he with he | he
  · rw [he]; exact hk
  · exact h e he

theorem below_erase {t : Table α} {n : Nat} (h : Table.Below t n) (k : Nat) : Table.Below (Table.erase t k) n :=
  fun e he => h e (List.mem_filter.1 he).1

theorem all_insert {t : Table α} {P : α → Prop} (h : ∀ e ∈ t, P e.2) {k : Nat} {v : α} (hv : P v) :
    ∀ e ∈ Table.insert t k v, P e.2 := by
  intro e he
  rcases mem_insert he with he | he
  · rw [he]; exact hv
  · exact h e he

theorem all_erase {t : Table α} {P : α → Prop} (h : ∀ e ∈ t, P e.2) (k : Nat) : ∀ e ∈ Table.erase t k, P e.2 :=
  fun e he => h e (List.mem_filter.1 he).1

/-- A listed entry is what a read of its index finds, in a rising table. -/
theorem get?_of_mem {t : Table α} (h : Table.Rising t) {k : Nat} {v : α} (hm : (k, v) ∈ t) :
    Table.get? t k = some v := by
  induction t with
  | nil => simp at hm
  | cons e rest ih =>
    obtain ⟨i, w⟩ := e
    obtain ⟨hhead, hrest⟩ := List.pairwise_cons.1 h
    rcases List.mem_cons.1 hm with hm | hm
    · obtain ⟨rfl, rfl⟩ := Prod.mk.inj hm
      simp [Table.get?]
    · have hlt : i < k := hhead _ hm
      simp only [Table.get?]
      rw [if_neg (by omega)]
      exact ih hrest hm

/-- What a read finds is listed. -/
theorem mem_of_get? {t : Table α} {k : Nat} {v : α} (h : Table.get? t k = some v) : (k, v) ∈ t := by
  induction t with
  | nil => simp at h
  | cons e rest ih =>
    obtain ⟨i, w⟩ := e
    simp only [Table.get?] at h
    split at h
    · next hi => rw [hi, Option.some.inj h]; exact List.mem_cons_self
    · exact List.mem_cons_of_mem _ (ih h)

/-- Two rising tables that read alike are equal: equal files are equal data. -/
theorem table_ext {t u : Table α} (ht : Table.Rising t) (hu : Table.Rising u)
    (h : ∀ k, Table.get? t k = Table.get? u k) : t = u := by
  have hsub : ∀ {a b : Table α}, Table.Rising a → (∀ k, Table.get? a k = Table.get? b k) → a ⊆ b := by
    intro a b ha hab e he
    exact mem_of_get? ((hab e.1).symm.trans (get?_of_mem ha he))
  have nodup : ∀ {a : Table α}, Table.Rising a → a.Nodup := fun ha =>
    ha.imp fun hlt heq => by rw [heq] at hlt; exact lt_irrefl _ hlt
  have hperm : t.Perm u :=
    (List.perm_ext_iff_of_nodup (nodup ht) (nodup hu)).2 fun e =>
      ⟨fun he => hsub ht h he, fun he => hsub hu (fun k => (h k).symm) he⟩
  exact hperm.eq_of_pairwise (le := fun a b => a.1 < b.1)
    (fun a b _ _ h1 h2 => absurd (lt_trans h1 h2) (lt_irrefl _)) ht hu

/-! ### FT, NODE and CB -/

@[simp] theorem ftGet_nil (k : Nat) : ftGet [] k = 0 := rfl
@[simp] theorem nodeGet_nil (k : Nat) : nodeGet [] k = Node.unused := rfl
@[simp] theorem cbGet_nil (k : Nat) : cbGet [] k = CbRec.invalid := rfl

@[simp] theorem ftGet_ftPut (ft : Table Word) (k j : Nat) (v : Word) :
    ftGet (ftPut ft k v) j = if j = k then v else ftGet ft j := by
  unfold ftPut ftGet
  split
  · next hv => rw [get?_erase, hv]; split <;> rfl
  · rw [get?_insert]; split <;> rfl

@[simp] theorem nodeGet_nodePut (nd : Table Node) (k j : Nat) (r : Node) :
    nodeGet (nodePut nd k r) j = if j = k then r else nodeGet nd j := by
  unfold nodePut nodeGet
  split
  · next hv => rw [get?_erase, hv]; split <;> rfl
  · rw [get?_insert]; split <;> rfl

@[simp] theorem cbGet_cbPut (cb : Table CbRec) (k j : Nat) (r : CbRec) :
    cbGet (cbPut cb k r) j = if j = k then r else cbGet cb j := by
  unfold cbPut cbGet
  split
  · next hv => rw [get?_erase, hv]; split <;> rfl
  · rw [get?_insert]; split <;> rfl

theorem ftWf_nil : FtWf [] := by simp [FtWf, Table.Rising, Table.Below]
theorem nodeWf_nil : NodeWf [] := by simp [NodeWf, Table.Rising, Table.Below]
theorem cbWf_nil : CbWf [] := by simp [CbWf, Table.Rising, Table.Below]

theorem ftWf_ftPut {ft : Table Word} (h : FtWf ft) {k : Nat} (hk : k < 256) (v : Word) : FtWf (ftPut ft k v) := by
  unfold ftPut
  split
  · exact ⟨rising_erase h.1 k, below_erase h.2.1 k, all_erase (P := fun v => v ≠ 0) h.2.2 k⟩
  · next hv => exact ⟨rising_insert h.1 k v, below_insert h.2.1 hk v, all_insert (P := fun v => v ≠ 0) h.2.2 hv⟩

theorem nodeWf_nodePut {nd : Table Node} (h : NodeWf nd) {k : Nat} (hk : k < 511) (r : Node) :
    NodeWf (nodePut nd k r) := by
  unfold nodePut
  split
  · exact ⟨rising_erase h.1 k, below_erase h.2.1 k, all_erase (P := fun r => r ≠ Node.unused) h.2.2 k⟩
  · next hr =>
    exact ⟨rising_insert h.1 k r, below_insert h.2.1 hk r, all_insert (P := fun r => r ≠ Node.unused) h.2.2 hr⟩

theorem cbWf_cbPut {cb : Table CbRec} (h : CbWf cb) {k : Nat} (hk : k < 256) (r : CbRec) : CbWf (cbPut cb k r) := by
  unfold cbPut
  split
  · exact ⟨rising_erase h.1 k, below_erase h.2.1 k, all_erase (P := fun r => r ≠ CbRec.invalid) h.2.2 k⟩
  · next hr =>
    exact ⟨rising_insert h.1 k r, below_insert h.2.1 hk r, all_insert (P := fun r => r ≠ CbRec.invalid) h.2.2 hr⟩

/-- A slot outside the arena is unused. -/
theorem nodeGet_of_wf {nd : Table Node} (h : NodeWf nd) {k : Nat} (hk : 511 ≤ k) : nodeGet nd k = Node.unused := by
  unfold nodeGet
  cases hg : Table.get? nd k with
  | none => rfl
  | some r => exact absurd (h.2.1 _ (mem_of_get? hg)) (by simpa using hk)

end Sys2Proof.Laws
end

