-- ==== Sys2Proof/Laws/Memory.lean ====
section
/-! SUPPORT. The laws of the buffers: reading after writing, one byte or many, and the canonical form kept by every
operation. -/

namespace Sys2Proof.Laws

open Sys2Proof.Machine

@[simp] theorem memory_get?_nil (a : Nat) : Memory.get? [] a = none := rfl

@[simp] theorem memory_get?_write (m : Memory) (a c : Nat) (b : Byte) :
    (m.write a b).get? c = if c = a then some b else m.get? c :=
  get?_insert m a c b

/-- Reading after `MemWrite`: the bytes written where they landed, everything else as before. -/
theorem memory_get?_writeBytes (m : Memory) (a : Nat) (bs : List Byte) (c : Nat) :
    (m.writeBytes a bs).get? c = if a ≤ c ∧ c < a + bs.length then bs[c - a]? else m.get? c := by
  induction bs generalizing m a with
  | nil => simp only [Memory.writeBytes, List.length_nil]; rw [if_neg (by omega)]
  | cons b rest ih =>
    simp only [Memory.writeBytes, ih, memory_get?_write, List.length_cons]
    by_cases h : c = a
    · subst h
      rw [if_neg (by omega), if_pos rfl, if_pos (by omega)]
      simp
    · by_cases h1 : a + 1 ≤ c ∧ c < a + 1 + rest.length
      · rw [if_pos h1, if_pos (by omega), show c - a = (c - (a + 1)) + 1 by omega, List.getElem?_cons_succ]
      · rw [if_neg h1, if_neg h, if_neg (by omega)]

theorem memory_wf_nil (size : Nat) : Memory.wf [] size := by simp [Memory.wf, Table.Rising, Table.Below]

theorem memory_wf_write {m : Memory} {size a : Nat} (h : m.wf size) (ha : a < size) (b : Byte) :
    (m.write a b).wf size :=
  ⟨rising_insert h.1 a b, below_insert h.2 ha b⟩

/-- Every write keeps the canonical form and the bounds. -/
theorem memory_wf_writeBytes {m : Memory} {size a : Nat} {bs : List Byte} (h : m.wf size)
    (ha : a + bs.length ≤ size) : (m.writeBytes a bs).wf size := by
  induction bs generalizing m a with
  | nil => exact h
  | cons b rest ih =>
    simp only [List.length_cons] at ha
    exact ih (memory_wf_write h (by omega) b) (by omega)

/-- Equal buffers are equal data. -/
theorem memory_ext {m n : Memory} {size : Nat} (hm : m.wf size) (hn : n.wf size)
    (h : ∀ a, m.get? a = n.get? a) : m = n :=
  table_ext hm.1 hn.1 h

theorem reset_memory_wf : State.reset.ibuf.wf State.reset.params.ibufSize ∧
    State.reset.obuf.wf State.reset.params.obufSize :=
  ⟨memory_wf_nil _, memory_wf_nil _⟩

/-- What OBUF reads after a result is written: its bytes, then what was there. -/
theorem obufByte_setOutput (s : State) (out : List Byte) (a : Nat) :
    (s.setOutput out).obufByte a = if a < out.length then out.getD a 0 else s.obufByte a := by
  simp only [State.obufByte, State.setOutput, memory_get?_writeBytes, Nat.zero_le, true_and, Nat.zero_add,
    Nat.sub_zero, List.getD_eq_getElem?_getD]
  split
  · next h => simp [List.getElem?_eq_getElem h]
  · rfl

/-- What IBUF reads after bytes are written to it. -/
theorem ibufByte_write (s : State) (a : Nat) (bs : List Byte) (c : Nat) :
    ({ s with ibuf := s.ibuf.writeBytes a bs } : State).ibufByte c =
      if a ≤ c ∧ c < a + bs.length then bs.getD (c - a) 0 else s.ibufByte c := by
  simp only [State.ibufByte, memory_get?_writeBytes, List.getD_eq_getElem?_getD]
  split
  · next h => simp [List.getElem?_eq_getElem (show c - a < bs.length by omega)]
  · rfl

end Sys2Proof.Laws
end

