-- ==== Sys2Proof/Laws/State.lean ====
section
/-! SUPPORT. One lemma per field per update of the state, true by rfl, so that no later proof unfolds a record update. -/

namespace Sys2Proof.Laws

open Sys2Proof.Machine

/-! ### complete -/

@[simp] theorem complete_params (s : State) (r : Option Failure) : (s.complete r).params = s.params := rfl
@[simp] theorem complete_run (s : State) (r : Option Failure) : (s.complete r).run = .idle := rfl
@[simp] theorem complete_cmd (s : State) (r : Option Failure) : (s.complete r).cmd = s.cmd := rfl
@[simp] theorem complete_status (s : State) (r : Option Failure) : (s.complete r).status = Status.ofResult r := rfl
@[simp] theorem complete_ilen (s : State) (r : Option Failure) : (s.complete r).ilen = s.ilen := rfl
@[simp] theorem complete_olen (s : State) (r : Option Failure) : (s.complete r).olen = s.olen := rfl
@[simp] theorem complete_root (s : State) (r : Option Failure) : (s.complete r).root = s.root := rfl
@[simp] theorem complete_ft (s : State) (r : Option Failure) : (s.complete r).ft = s.ft := rfl
@[simp] theorem complete_node (s : State) (r : Option Failure) : (s.complete r).node = s.node := rfl
@[simp] theorem complete_cb (s : State) (r : Option Failure) : (s.complete r).cb = s.cb := rfl
@[simp] theorem complete_ibuf (s : State) (r : Option Failure) : (s.complete r).ibuf = s.ibuf := rfl
@[simp] theorem complete_obuf (s : State) (r : Option Failure) : (s.complete r).obuf = s.obuf := rfl
@[simp] theorem complete_scan (s : State) (r : Option Failure) : (s.complete r).scan = Scan.empty := rfl
@[simp] theorem complete_inbox (s : State) (r : Option Failure) : (s.complete r).inbox = s.inbox := rfl
@[simp] theorem complete_replies (s : State) (r : Option Failure) : (s.complete r).replies = s.replies := rfl
@[simp] theorem complete_wait (s : State) (r : Option Failure) : (s.complete r).wait = s.wait := rfl
@[simp] theorem complete_fresh (s : State) (r : Option Failure) : (s.complete r).fresh = s.fresh := rfl
@[simp] theorem complete_epoch (s : State) (r : Option Failure) : (s.complete r).epoch = s.epoch := rfl

/-! ### raise -/

@[simp] theorem raise_params (s : State) (f : Failure) : (s.raise f).params = s.params := rfl
@[simp] theorem raise_run (s : State) (f : Failure) : (s.raise f).run = .idle := rfl
@[simp] theorem raise_cmd (s : State) (f : Failure) : (s.raise f).cmd = s.cmd := rfl
@[simp] theorem raise_status (s : State) (f : Failure) : (s.raise f).status = Status.ofResult (some f) := rfl
@[simp] theorem raise_ilen (s : State) (f : Failure) : (s.raise f).ilen = s.ilen := rfl
@[simp] theorem raise_olen (s : State) (f : Failure) : (s.raise f).olen = s.olen := rfl
@[simp] theorem raise_root (s : State) (f : Failure) : (s.raise f).root = s.root := rfl
@[simp] theorem raise_ft (s : State) (f : Failure) : (s.raise f).ft = s.ft := rfl
@[simp] theorem raise_node (s : State) (f : Failure) : (s.raise f).node = s.node := rfl
@[simp] theorem raise_cb (s : State) (f : Failure) : (s.raise f).cb = s.cb := rfl
@[simp] theorem raise_ibuf (s : State) (f : Failure) : (s.raise f).ibuf = s.ibuf := rfl
@[simp] theorem raise_obuf (s : State) (f : Failure) : (s.raise f).obuf = s.obuf := rfl
@[simp] theorem raise_scan (s : State) (f : Failure) : (s.raise f).scan = Scan.empty := rfl
@[simp] theorem raise_inbox (s : State) (f : Failure) : (s.raise f).inbox = s.inbox := rfl
@[simp] theorem raise_replies (s : State) (f : Failure) : (s.raise f).replies = s.replies := rfl
@[simp] theorem raise_wait (s : State) (f : Failure) : (s.raise f).wait = s.wait := rfl
@[simp] theorem raise_fresh (s : State) (f : Failure) : (s.raise f).fresh = s.fresh := rfl
@[simp] theorem raise_epoch (s : State) (f : Failure) : (s.raise f).epoch = s.epoch := rfl

/-! ### raiseNoOutput -/

@[simp] theorem raiseNoOutput_params (s : State) (f : Failure) : (s.raiseNoOutput f).params = s.params := rfl
@[simp] theorem raiseNoOutput_run (s : State) (f : Failure) : (s.raiseNoOutput f).run = .idle := rfl
@[simp] theorem raiseNoOutput_cmd (s : State) (f : Failure) : (s.raiseNoOutput f).cmd = s.cmd := rfl
@[simp] theorem raiseNoOutput_status (s : State) (f : Failure) : (s.raiseNoOutput f).status = Status.ofResult (some f) := rfl
@[simp] theorem raiseNoOutput_ilen (s : State) (f : Failure) : (s.raiseNoOutput f).ilen = s.ilen := rfl
@[simp] theorem raiseNoOutput_olen (s : State) (f : Failure) : (s.raiseNoOutput f).olen = 0 := rfl
@[simp] theorem raiseNoOutput_root (s : State) (f : Failure) : (s.raiseNoOutput f).root = s.root := rfl
@[simp] theorem raiseNoOutput_ft (s : State) (f : Failure) : (s.raiseNoOutput f).ft = s.ft := rfl
@[simp] theorem raiseNoOutput_node (s : State) (f : Failure) : (s.raiseNoOutput f).node = s.node := rfl
@[simp] theorem raiseNoOutput_cb (s : State) (f : Failure) : (s.raiseNoOutput f).cb = s.cb := rfl
@[simp] theorem raiseNoOutput_ibuf (s : State) (f : Failure) : (s.raiseNoOutput f).ibuf = s.ibuf := rfl
@[simp] theorem raiseNoOutput_obuf (s : State) (f : Failure) : (s.raiseNoOutput f).obuf = s.obuf := rfl
@[simp] theorem raiseNoOutput_scan (s : State) (f : Failure) : (s.raiseNoOutput f).scan = Scan.empty := rfl
@[simp] theorem raiseNoOutput_inbox (s : State) (f : Failure) : (s.raiseNoOutput f).inbox = s.inbox := rfl
@[simp] theorem raiseNoOutput_replies (s : State) (f : Failure) : (s.raiseNoOutput f).replies = s.replies := rfl
@[simp] theorem raiseNoOutput_wait (s : State) (f : Failure) : (s.raiseNoOutput f).wait = s.wait := rfl
@[simp] theorem raiseNoOutput_fresh (s : State) (f : Failure) : (s.raiseNoOutput f).fresh = s.fresh := rfl
@[simp] theorem raiseNoOutput_epoch (s : State) (f : Failure) : (s.raiseNoOutput f).epoch = s.epoch := rfl

/-! ### setOutput -/

@[simp] theorem setOutput_params (s : State) (out : List Byte) : (s.setOutput out).params = s.params := rfl
@[simp] theorem setOutput_run (s : State) (out : List Byte) : (s.setOutput out).run = s.run := rfl
@[simp] theorem setOutput_cmd (s : State) (out : List Byte) : (s.setOutput out).cmd = s.cmd := rfl
@[simp] theorem setOutput_status (s : State) (out : List Byte) : (s.setOutput out).status = s.status := rfl
@[simp] theorem setOutput_ilen (s : State) (out : List Byte) : (s.setOutput out).ilen = s.ilen := rfl
@[simp] theorem setOutput_olen (s : State) (out : List Byte) : (s.setOutput out).olen = BitVec.ofNat 32 out.length := rfl
@[simp] theorem setOutput_root (s : State) (out : List Byte) : (s.setOutput out).root = s.root := rfl
@[simp] theorem setOutput_ft (s : State) (out : List Byte) : (s.setOutput out).ft = s.ft := rfl
@[simp] theorem setOutput_node (s : State) (out : List Byte) : (s.setOutput out).node = s.node := rfl
@[simp] theorem setOutput_cb (s : State) (out : List Byte) : (s.setOutput out).cb = s.cb := rfl
@[simp] theorem setOutput_ibuf (s : State) (out : List Byte) : (s.setOutput out).ibuf = s.ibuf := rfl
@[simp] theorem setOutput_obuf (s : State) (out : List Byte) : (s.setOutput out).obuf = s.obuf.writeBytes 0 out := rfl
@[simp] theorem setOutput_scan (s : State) (out : List Byte) : (s.setOutput out).scan = s.scan := rfl
@[simp] theorem setOutput_inbox (s : State) (out : List Byte) : (s.setOutput out).inbox = s.inbox := rfl
@[simp] theorem setOutput_replies (s : State) (out : List Byte) : (s.setOutput out).replies = s.replies := rfl
@[simp] theorem setOutput_wait (s : State) (out : List Byte) : (s.setOutput out).wait = s.wait := rfl
@[simp] theorem setOutput_fresh (s : State) (out : List Byte) : (s.setOutput out).fresh = s.fresh := rfl
@[simp] theorem setOutput_epoch (s : State) (out : List Byte) : (s.setOutput out).epoch = s.epoch := rfl

/-! ### startCommand -/

@[simp] theorem startCommand_params (s : State) (v : Word) : (s.startCommand v).params = s.params := rfl
@[simp] theorem startCommand_run (s : State) (v : Word) : (s.startCommand v).run = .busy := rfl
@[simp] theorem startCommand_cmd (s : State) (v : Word) : (s.startCommand v).cmd = v.extractLsb' 0 8 := rfl
@[simp] theorem startCommand_status (s : State) (v : Word) : (s.startCommand v).status = Status.clear := rfl
@[simp] theorem startCommand_ilen (s : State) (v : Word) : (s.startCommand v).ilen = s.ilen := rfl
@[simp] theorem startCommand_olen (s : State) (v : Word) : (s.startCommand v).olen = s.olen := rfl
@[simp] theorem startCommand_root (s : State) (v : Word) : (s.startCommand v).root = s.root := rfl
@[simp] theorem startCommand_ft (s : State) (v : Word) : (s.startCommand v).ft = s.ft := rfl
@[simp] theorem startCommand_node (s : State) (v : Word) : (s.startCommand v).node = s.node := rfl
@[simp] theorem startCommand_cb (s : State) (v : Word) : (s.startCommand v).cb = s.cb := rfl
@[simp] theorem startCommand_ibuf (s : State) (v : Word) : (s.startCommand v).ibuf = s.ibuf := rfl
@[simp] theorem startCommand_obuf (s : State) (v : Word) : (s.startCommand v).obuf = s.obuf := rfl
@[simp] theorem startCommand_scan (s : State) (v : Word) : (s.startCommand v).scan = s.scan := rfl
@[simp] theorem startCommand_inbox (s : State) (v : Word) : (s.startCommand v).inbox = s.inbox := rfl
@[simp] theorem startCommand_replies (s : State) (v : Word) : (s.startCommand v).replies = s.replies := rfl
@[simp] theorem startCommand_wait (s : State) (v : Word) : (s.startCommand v).wait = Config.freeBusyTime s.fresh := rfl
@[simp] theorem startCommand_fresh (s : State) (v : Word) : (s.startCommand v).fresh = s.fresh + 1 := rfl
@[simp] theorem startCommand_epoch (s : State) (v : Word) : (s.startCommand v).epoch = s.epoch := rfl

/-! ### resetEvent -/

@[simp] theorem resetEvent_params (s : State) : (s.resetEvent).params = s.params := rfl
@[simp] theorem resetEvent_run (s : State) : (s.resetEvent).run = .idle := rfl
@[simp] theorem resetEvent_cmd (s : State) : (s.resetEvent).cmd = 0 := rfl
@[simp] theorem resetEvent_status (s : State) : (s.resetEvent).status = Status.clear := rfl
@[simp] theorem resetEvent_ilen (s : State) : (s.resetEvent).ilen = 0 := rfl
@[simp] theorem resetEvent_olen (s : State) : (s.resetEvent).olen = 0 := rfl
@[simp] theorem resetEvent_root (s : State) : (s.resetEvent).root = Config.noNode := rfl
@[simp] theorem resetEvent_ft (s : State) : (s.resetEvent).ft = [] := rfl
@[simp] theorem resetEvent_node (s : State) : (s.resetEvent).node = [] := rfl
@[simp] theorem resetEvent_cb (s : State) : (s.resetEvent).cb = [] := rfl
@[simp] theorem resetEvent_ibuf (s : State) : (s.resetEvent).ibuf = [] := rfl
@[simp] theorem resetEvent_obuf (s : State) : (s.resetEvent).obuf = [] := rfl
@[simp] theorem resetEvent_scan (s : State) : (s.resetEvent).scan = Scan.empty := rfl
@[simp] theorem resetEvent_inbox (s : State) : (s.resetEvent).inbox = s.inbox := rfl
@[simp] theorem resetEvent_replies (s : State) : (s.resetEvent).replies = s.replies := rfl
@[simp] theorem resetEvent_wait (s : State) : (s.resetEvent).wait = 0 := rfl
@[simp] theorem resetEvent_fresh (s : State) : (s.resetEvent).fresh = s.fresh + 1 := rfl
@[simp] theorem resetEvent_epoch (s : State) : (s.resetEvent).epoch = s.fresh := rfl

/-! ### reply -/

@[simp] theorem reply_params (s : State) (v : Word) : (s.reply v).params = s.params := rfl
@[simp] theorem reply_run (s : State) (v : Word) : (s.reply v).run = s.run := rfl
@[simp] theorem reply_cmd (s : State) (v : Word) : (s.reply v).cmd = s.cmd := rfl
@[simp] theorem reply_status (s : State) (v : Word) : (s.reply v).status = s.status := rfl
@[simp] theorem reply_ilen (s : State) (v : Word) : (s.reply v).ilen = s.ilen := rfl
@[simp] theorem reply_olen (s : State) (v : Word) : (s.reply v).olen = s.olen := rfl
@[simp] theorem reply_root (s : State) (v : Word) : (s.reply v).root = s.root := rfl
@[simp] theorem reply_ft (s : State) (v : Word) : (s.reply v).ft = s.ft := rfl
@[simp] theorem reply_node (s : State) (v : Word) : (s.reply v).node = s.node := rfl
@[simp] theorem reply_cb (s : State) (v : Word) : (s.reply v).cb = s.cb := rfl
@[simp] theorem reply_ibuf (s : State) (v : Word) : (s.reply v).ibuf = s.ibuf := rfl
@[simp] theorem reply_obuf (s : State) (v : Word) : (s.reply v).obuf = s.obuf := rfl
@[simp] theorem reply_scan (s : State) (v : Word) : (s.reply v).scan = s.scan := rfl
@[simp] theorem reply_inbox (s : State) (v : Word) : (s.reply v).inbox = s.inbox := rfl
@[simp] theorem reply_replies (s : State) (v : Word) : (s.reply v).replies = s.replies ++ [v] := rfl
@[simp] theorem reply_wait (s : State) (v : Word) : (s.reply v).wait = s.wait := rfl
@[simp] theorem reply_fresh (s : State) (v : Word) : (s.reply v).fresh = s.fresh := rfl
@[simp] theorem reply_epoch (s : State) (v : Word) : (s.reply v).epoch = s.epoch := rfl

/-! ### countStage -/

@[simp] theorem countStage_params (s : State) : (countStage s).params = s.params := rfl
@[simp] theorem countStage_run (s : State) : (countStage s).run = s.run := rfl
@[simp] theorem countStage_cmd (s : State) : (countStage s).cmd = s.cmd := rfl
@[simp] theorem countStage_status (s : State) : (countStage s).status = s.status := rfl
@[simp] theorem countStage_ilen (s : State) : (countStage s).ilen = s.ilen := rfl
@[simp] theorem countStage_olen (s : State) : (countStage s).olen = s.olen := rfl
@[simp] theorem countStage_root (s : State) : (countStage s).root = s.root := rfl
@[simp] theorem countStage_ft (s : State) : (countStage s).ft = countBytes s.input := rfl
@[simp] theorem countStage_node (s : State) : (countStage s).node = s.node := rfl
@[simp] theorem countStage_cb (s : State) : (countStage s).cb = s.cb := rfl
@[simp] theorem countStage_ibuf (s : State) : (countStage s).ibuf = s.ibuf := rfl
@[simp] theorem countStage_obuf (s : State) : (countStage s).obuf = s.obuf := rfl
@[simp] theorem countStage_scan (s : State) : (countStage s).scan = s.scan := rfl
@[simp] theorem countStage_inbox (s : State) : (countStage s).inbox = s.inbox := rfl
@[simp] theorem countStage_replies (s : State) : (countStage s).replies = s.replies := rfl
@[simp] theorem countStage_wait (s : State) : (countStage s).wait = s.wait := rfl
@[simp] theorem countStage_fresh (s : State) : (countStage s).fresh = s.fresh := rfl
@[simp] theorem countStage_epoch (s : State) : (countStage s).epoch = s.epoch := rfl

/-! ### buildStage -/

@[simp] theorem buildStage_params (s : State) : (buildStage s).params = s.params := rfl
@[simp] theorem buildStage_run (s : State) : (buildStage s).run = s.run := rfl
@[simp] theorem buildStage_cmd (s : State) : (buildStage s).cmd = s.cmd := rfl
@[simp] theorem buildStage_status (s : State) : (buildStage s).status = s.status := rfl
@[simp] theorem buildStage_ilen (s : State) : (buildStage s).ilen = s.ilen := rfl
@[simp] theorem buildStage_olen (s : State) : (buildStage s).olen = s.olen := rfl
@[simp] theorem buildStage_root (s : State) : (buildStage s).root = (buildTree s.ft).2 := rfl
@[simp] theorem buildStage_ft (s : State) : (buildStage s).ft = s.ft := rfl
@[simp] theorem buildStage_node (s : State) : (buildStage s).node = (buildTree s.ft).1 := rfl
@[simp] theorem buildStage_cb (s : State) : (buildStage s).cb = s.cb := rfl
@[simp] theorem buildStage_ibuf (s : State) : (buildStage s).ibuf = s.ibuf := rfl
@[simp] theorem buildStage_obuf (s : State) : (buildStage s).obuf = s.obuf := rfl
@[simp] theorem buildStage_scan (s : State) : (buildStage s).scan = s.scan := rfl
@[simp] theorem buildStage_inbox (s : State) : (buildStage s).inbox = s.inbox := rfl
@[simp] theorem buildStage_replies (s : State) : (buildStage s).replies = s.replies := rfl
@[simp] theorem buildStage_wait (s : State) : (buildStage s).wait = s.wait := rfl
@[simp] theorem buildStage_fresh (s : State) : (buildStage s).fresh = s.fresh := rfl
@[simp] theorem buildStage_epoch (s : State) : (buildStage s).epoch = s.epoch := rfl

/-! ### walkStage -/

@[simp] theorem walkStage_params (s : State) : (walkStage s).params = s.params := rfl
@[simp] theorem walkStage_run (s : State) : (walkStage s).run = s.run := rfl
@[simp] theorem walkStage_cmd (s : State) : (walkStage s).cmd = s.cmd := rfl
@[simp] theorem walkStage_status (s : State) : (walkStage s).status = s.status := rfl
@[simp] theorem walkStage_ilen (s : State) : (walkStage s).ilen = s.ilen := rfl
@[simp] theorem walkStage_olen (s : State) : (walkStage s).olen = s.olen := rfl
@[simp] theorem walkStage_root (s : State) : (walkStage s).root = s.root := rfl
@[simp] theorem walkStage_ft (s : State) : (walkStage s).ft = s.ft := rfl
@[simp] theorem walkStage_node (s : State) : (walkStage s).node = s.node := rfl
@[simp] theorem walkStage_cb (s : State) : (walkStage s).cb = walkTree s.node s.root := rfl
@[simp] theorem walkStage_ibuf (s : State) : (walkStage s).ibuf = s.ibuf := rfl
@[simp] theorem walkStage_obuf (s : State) : (walkStage s).obuf = s.obuf := rfl
@[simp] theorem walkStage_scan (s : State) : (walkStage s).scan = s.scan := rfl
@[simp] theorem walkStage_inbox (s : State) : (walkStage s).inbox = s.inbox := rfl
@[simp] theorem walkStage_replies (s : State) : (walkStage s).replies = s.replies := rfl
@[simp] theorem walkStage_wait (s : State) : (walkStage s).wait = s.wait := rfl
@[simp] theorem walkStage_fresh (s : State) : (walkStage s).fresh = s.fresh := rfl
@[simp] theorem walkStage_epoch (s : State) : (walkStage s).epoch = s.epoch := rfl

/-! ### bytes and the input under updates that leave the buffers -/

theorem ibufByte_congr {s t : State} (h : t.ibuf = s.ibuf) (he : t.epoch = s.epoch) (a : Nat) :
    t.ibufByte a = s.ibufByte a := by
  simp [State.ibufByte, h, he]

theorem obufByte_congr {s t : State} (h : t.obuf = s.obuf) (he : t.epoch = s.epoch) (a : Nat) :
    t.obufByte a = s.obufByte a := by
  simp [State.obufByte, h, he]

theorem input_congr {s t : State} (hl : t.ilen = s.ilen) (h : t.ibuf = s.ibuf) (he : t.epoch = s.epoch) :
    t.input = s.input := by
  simp [State.input, hl, funext (ibufByte_congr h he)]

@[simp] theorem input_length (s : State) : s.input.length = s.ilen.toNat := by simp [State.input]

theorem input_getElem? (s : State) {a : Nat} (h : a < s.ilen.toNat) : s.input[a]? = some (s.ibufByte a) := by
  simp [State.input, h]

theorem input_getD (s : State) {a : Nat} (h : a < s.ilen.toNat) : s.input.getD a 0 = s.ibufByte a := by
  simp [List.getD_eq_getElem?_getD, input_getElem? s h]

theorem lengthBad_eq_false (s : State) : s.lengthBad = false ↔ s.ilen.toNat ≤ s.params.ibufSize := by
  simp [State.lengthBad]

theorem lengthBad_eq_true (s : State) : s.lengthBad = true ↔ s.params.ibufSize < s.ilen.toNat := by
  simp [State.lengthBad]

end Sys2Proof.Laws
end

