-- ==== Sys2Proof/Laws/Exec.lean ====
section
/-! SUPPORT. Once for each shared operation, everything it can do: what a commit leaves, what a reading of a container
byte leaves, what the Host's turn leaves of the block's registers and files, and that no step stops. -/

namespace Sys2Proof.Laws

open Sys2Proof.Machine

/-- A commit is a result written whole, or a failure with no output. -/
theorem commit_cases (s : State) (r : Except Failure (List Byte)) :
    (∃ out, r = .ok out ∧ s.commit r = (s.setOutput out).complete none) ∨
    (∃ f, r = .error f ∧ s.commit r = s.raiseNoOutput f) := by
  cases r with
  | ok out => exact .inl ⟨out, rfl, rfl⟩
  | error f => exact .inr ⟨f, rfl, rfl⟩

/-- A commit leaves everything but OBUF, OLEN, RUN, STATUS and the scratch. -/
theorem commit_frame (s : State) (r : Except Failure (List Byte)) :
    s.commit r = { s with
      obuf := (s.commit r).obuf, olen := (s.commit r).olen
      run := .idle, status := (s.commit r).status, scan := Scan.empty } := by
  cases r <;> rfl

/-- A reading of a container byte moves the scratch on, or ends the command with a failure and no output. -/
theorem scanTo_cases (s : State) (r : Except Failure Scan) :
    (s.lengthBad = true ∧ s.scanTo r = s.raiseNoOutput .illegalLength) ∨
    (s.lengthBad = false ∧ ∃ f, r = .error f ∧ s.scanTo r = s.raiseNoOutput f) ∨
    (s.lengthBad = false ∧ ∃ sc, r = .ok sc ∧ s.scanTo r = { s with scan := sc }) := by
  cases hb : s.lengthBad with
  | true => exact .inl ⟨rfl, by simp [State.scanTo, hb]⟩
  | false =>
    cases r with
    | error f => exact .inr (.inl ⟨rfl, f, rfl, by simp [State.scanTo, hb]⟩)
    | ok sc => exact .inr (.inr ⟨rfl, sc, rfl, by simp [State.scanTo, hb]⟩)

/-- A result that fits is passed on, any other is OutputOverflow. -/
theorem fitOutput_cases (s : State) (out : List Byte) :
    (out.length ≤ s.params.obufSize ∧ fitOutput s out = .ok out) ∨
    (s.params.obufSize < out.length ∧ fitOutput s out = .error .outputOverflow) := by
  unfold fitOutput
  split
  · next h => exact .inr ⟨h, rfl⟩
  · next h => exact .inl ⟨by omega, rfl⟩

/-- What a performed write can do: start a command, or store to ILEN, FT or IBUF, or nothing. -/
theorem portWrite_cases (s : State) (v : Word) (l : PortLoc) :
    (l = .cmd ∧ portWrite s v l = s.startCommand v) ∨
    (l = .ilen ∧ portWrite s v l = { s with ilen := v }) ∨
    (∃ i, l = .ft i ∧ portWrite s v l = { s with ft := ftPut s.ft i v }) ∨
    (∃ a, l = .ibuf a ∧ portWrite s v l = { s with ibuf := s.ibuf.writeBytes a (bytesOfWord v) }) ∨
    (l ≠ .cmd ∧ portWrite s v l = s) := by
  cases l <;> simp [portWrite]

/-- What a read can do: return one word, and while BUSY take one free value. -/
theorem hostRead_cases (s : State) (addr : Word) :
    (s.run = .busy ∧ addr ≠ statusAddr ∧
      s.hostRead addr = { s.reply (Config.freeBusyRead s.fresh) with fresh := s.fresh + 1 }) ∨
    ((s.run = .idle ∨ addr = statusAddr) ∧ s.hostRead addr = s.reply (portRead s (locate s.params addr))) := by
  by_cases h : s.run = .busy ∧ addr ≠ statusAddr
  · exact .inl ⟨h.1, h.2, by rw [State.hostRead, if_pos h]⟩
  · refine .inr ⟨?_, by rw [State.hostRead, if_neg h]⟩
    cases hr : s.run with
    | idle => exact .inl rfl
    | busy => exact .inr (by simpa [hr] using h)

/-- Every instruction's meaning answers a next state. -/
theorem exec_next (i : Instr) (s : State) : ∃ t, exec i s = .next t := by
  cases i
  case count => simp only [exec, execCount]; split <;> exact ⟨_, rfl⟩
  case compile => simp only [exec, execCompile]; split <;> exact ⟨_, rfl⟩
  all_goals exact ⟨_, rfl⟩

/-- What a step does: the command in CMD completes, or the Host takes its turn. -/
theorem step_cases (s : State) :
    (s.run = .busy ∧ (s.wait = 0 ∨ s.inbox = []) ∧ step s = exec (decodeOpcode s.cmd) s) ∨
    (s.run = .busy ∧ 0 < s.wait ∧ s.inbox ≠ [] ∧ step s = .next { s with wait := s.wait - 1 }.hostTurn) ∨
    (s.run = .idle ∧ step s = .next s.hostTurn) := by
  cases hr : s.run with
  | idle => exact .inr (.inr ⟨rfl, by simp [step, State.coreTurn, State.hostStep, hr]⟩)
  | busy =>
    by_cases h : s.wait = 0 ∨ s.inbox = []
    · refine .inl ⟨rfl, h, ?_⟩
      rw [step, if_pos]
      simpa [State.coreTurn, hr] using h
    · rw [not_or] at h
      refine .inr (.inl ⟨rfl, by omega, h.2, ?_⟩)
      rw [step, if_neg]
      · simp [State.hostStep, hr]
      · simpa [State.coreTurn, hr] using h

end Sys2Proof.Laws
end

