-- ==== Sys2Proof/Laws/PerInstr.lean ====
section
/-! SUPPORT. Family RowMatch, per instruction: the encoding of a well-formed instruction carries the fixed bits of its
row of spec/opcode_table.json (mask and match of the CMD rows, the fixed bits of the container rows). -/

namespace Sys2Proof.Laws.RowMatch

/-- The mask and match columns of an instruction's row; for a container row, of its byte. -/
def row : Instr → Nat × Nat
  | .count => (0xFF, 0x01)
  | .build => (0xFF, 0x02)
  | .walk => (0xFF, 0x03)
  | .compile => (0xFF, 0x04)
  | .encode => (0xFF, 0x05)
  | .decode => (0xFF, 0x06)
  | .illegal00 => (0xFF, 0x00)
  | .illegal07 => (0xFF, 0x07)
  | .illegal08_0F _ => (0xF8, 0x08)
  | .illegal10_1F _ => (0xF0, 0x10)
  | .illegal20_3F _ => (0xE0, 0x20)
  | .illegal40_7F _ => (0xC0, 0x40)
  | .illegal80_FF _ => (0x80, 0x80)
  | .containerCount _ => (0x00, 0x00)
  | .containerEntrySym _ => (0x00, 0x00)
  | .containerEntryLen _ => (0x00, 0x00)
  | .containerPad _ => (0xF8, 0x00)

/-- The bits of a code unit as a number. -/
def bitsOf : CodeUnit → Nat
  | .cmdWord v => v.toNat
  | .containerByte _ b => b.toNat

/-- The fixed bits of the row stand in the encoding. -/
def Statement (i : Instr) : Prop := i.wf = true → bitsOf (encode i) &&& (row i).1 = (row i).2

theorem count : Statement .count := by simp [Statement, bitsOf, encode, row]
theorem build : Statement .build := by simp [Statement, bitsOf, encode, row]
theorem walk : Statement .walk := by simp [Statement, bitsOf, encode, row]
theorem compile : Statement .compile := by simp [Statement, bitsOf, encode, row]
theorem encode : Statement .encode := by simp [Statement, bitsOf, Sys2Proof.encode, row]
theorem decode : Statement .decode := by simp [Statement, bitsOf, Sys2Proof.encode, row]
theorem illegal00 : Statement .illegal00 := by simp [Statement, bitsOf, Sys2Proof.encode, row]
theorem illegal07 : Statement .illegal07 := by simp [Statement, bitsOf, Sys2Proof.encode, row]

theorem illegal08_0F (op : Byte) : Statement (.illegal08_0F op) := by revert op; unfold Statement; decide +kernel
theorem illegal10_1F (op : Byte) : Statement (.illegal10_1F op) := by revert op; unfold Statement; decide +kernel
theorem illegal20_3F (op : Byte) : Statement (.illegal20_3F op) := by revert op; unfold Statement; decide +kernel
theorem illegal40_7F (op : Byte) : Statement (.illegal40_7F op) := by revert op; unfold Statement; decide +kernel
theorem illegal80_FF (op : Byte) : Statement (.illegal80_FF op) := by revert op; unfold Statement; decide +kernel

theorem containerCount (n : Byte) : Statement (.containerCount n) := by simp [Statement, row]
theorem containerEntrySym (sym : Byte) : Statement (.containerEntrySym sym) := by simp [Statement, row]
theorem containerEntryLen (len : Byte) : Statement (.containerEntryLen len) := by simp [Statement, row]
theorem containerPad (pad : Byte) : Statement (.containerPad pad) := by revert pad; unfold Statement; decide +kernel

end Sys2Proof.Laws.RowMatch
end

