-- ==== Sys2Proof/Tests/Slice0.lean ====
section
/-! SUPPORT. Tests: the ill-formed terms the check refuses, words and bytes written out from the encodings, one step of
each instruction on a small state (expected results from 95_test_vectors.md and the worked examples of the rules),
and for every statement with hypotheses a state that meets them. -/

namespace Sys2Proof.Tests

set_option Elab.async false

open Sys2Proof.Machine Sys2Proof.Safety

/-! ### Well-formedness: each check refuses an ill-formed term -/

theorem test_wf_refuses_08_0F : (Instr.illegal08_0F 0x10).wf = false := by decide
theorem test_wf_refuses_10_1F : (Instr.illegal10_1F 0x20).wf = false := by decide
theorem test_wf_refuses_20_3F : (Instr.illegal20_3F 0x1F).wf = false := by decide
theorem test_wf_refuses_40_7F : (Instr.illegal40_7F 0x80).wf = false := by decide
theorem test_wf_refuses_80_FF : (Instr.illegal80_FF 0x7F).wf = false := by decide
theorem test_wf_refuses_pad : (Instr.containerPad 0x08).wf = false := by decide

/-! ### Decoding: every row by a unit written out bit by bit from R91, R101, R102, R104 -/

theorem test_decode_count : decode (.cmdWord 0b00000000000000000000000000000001#32) = .ok .count := by decide
theorem test_decode_build : decode (.cmdWord 0b00000000000000000000000000000010#32) = .ok .build := by decide
theorem test_decode_walk : decode (.cmdWord 0b00000000000000000000000000000011#32) = .ok .walk := by decide
theorem test_decode_compile : decode (.cmdWord 0b00000000000000000000000000000100#32) = .ok .compile := by decide
theorem test_decode_encode : decode (.cmdWord 0b00000000000000000000000000000101#32) = .ok .encode := by decide
theorem test_decode_decode : decode (.cmdWord 0b11111111111111111111111100000110#32) = .ok .decode := by decide
theorem test_decode_illegal00 : decode (.cmdWord 0b10000000000000000000000000000000#32) = .ok .illegal00 := by decide
theorem test_decode_illegal07 : decode (.cmdWord 0b00000000000000000000000000000111#32) = .ok .illegal07 := by decide
theorem test_decode_illegal08_0F :
    decode (.cmdWord 0b00000000000000000000000000001101#32) = .ok (.illegal08_0F 0x0D) := by decide
theorem test_decode_illegal10_1F :
    decode (.cmdWord 0b00000000000000000000000000010000#32) = .ok (.illegal10_1F 0x10) := by decide
theorem test_decode_illegal20_3F :
    decode (.cmdWord 0b00000000000000000000000000111111#32) = .ok (.illegal20_3F 0x3F) := by decide
theorem test_decode_illegal40_7F :
    decode (.cmdWord 0b00000000000000000000000001000000#32) = .ok (.illegal40_7F 0x40) := by decide
theorem test_decode_illegal80_FF :
    decode (.cmdWord 0b00000000000000000000000011111111#32) = .ok (.illegal80_FF 0xFF) := by decide
theorem test_decode_containerCount :
    decode (.containerByte .count 0b11111111#8) = .ok (.containerCount 0xFF) := by decide
theorem test_decode_containerEntrySym :
    decode (.containerByte .entrySym 0b01100010#8) = .ok (.containerEntrySym 0x62) := by decide
theorem test_decode_containerEntryLen :
    decode (.containerByte .entryLen 0b00000011#8) = .ok (.containerEntryLen 3) := by decide
theorem test_decode_containerPad : decode (.containerByte .pad 0b00000111#8) = .ok (.containerPad 7) := by decide
theorem test_decode_rejects_short_write : decodeCmdBytes [0x01, 0x00, 0x00] = .error .notOneWord := by decide
theorem test_decodeTableWord_decode : decodeTableWord 8 0x06 = some .decode := by decide
theorem test_decodeTableWord_illegal : decodeTableWord 8 0x9A = some (.illegal80_FF 0x9A) := by decide

/-! ### Small states -/

/-- Idle, with these bytes loaded (R109 LOAD). -/
def loaded (bytes : List Byte) : State :=
  { State.reset with ibuf := Memory.writeBytes [] 0 bytes, ilen := BitVec.ofNat 32 bytes.length }

/-- The same with a codebook: symbol, length, code bits. -/
def coded (codes : List (Byte × Byte × BitVec 256)) (bytes : List Byte) : State :=
  { loaded bytes with
    cb := codes.foldl (fun cb c => cbPut cb c.1.toNat { valid := true, len := c.2.1, bits := c.2.2 }) [] }

/-- A frequency table written by the Host. -/
def tabled (counts : List (Nat × Word)) : State :=
  { State.reset with ft := counts.foldl (fun ft c => ftPut ft c.1 c.2) [] }

/-- A command in flight that completes next. -/
def inFlight (cmd : Byte) (s : State) : State := { s with run := .busy, cmd := cmd }

/-- The outcome is a next state of which this holds. -/
def next? (o : Result) (p : State → Bool) : Bool :=
  match o with
  | .next t => p t
  | .fault _ => false
  | .refused _ => false

/-- The STATUS word of a state (R93). -/
def statusOf (s : State) : Word := statusWord s.run s.status

/-- OBUF[0..n-1] are these bytes, all written, and OLEN is n. -/
def outputIs (out : List Byte) (s : State) : Bool :=
  s.olen.toNat == out.length && (List.range out.length).all fun a => s.obuf.get? a == out[a]?

/-! ### One step of each instruction -/

/-- Vector C6: byte 3 is not read. -/
theorem test_count_c6 :
    next? (exec .count { loaded [0x61, 0x62, 0x63, 0x7A] with ilen := 3 }) (fun t =>
      ftGet t.ft 0x61 == 1 && ftGet t.ft 0x63 == 1 && ftGet t.ft 0x7A == 0 && statusOf t == 2) = true := by
  decide +kernel

/-- Vector C7: ILEN is one word past the default IBUF_SIZE. -/
theorem test_count_c7 :
    next? (exec .count { tabled [(0x10, 5)] with ilen := 0x00010004 }) (fun t =>
      ftGet t.ft 0x10 == 5 && statusOf t == 0x00002606) = true := by
  decide +kernel

/-- Vector B8: the tie (3, 0x05) < (3, 256). -/
theorem test_build_b8 :
    next? (exec .build (tabled [(0x05, 3), (0x07, 1), (0x09, 2)])) (fun t =>
      nodeGet t.node 256 == ⟨true, 3, 0x07, 0x09⟩ && nodeGet t.node 257 == ⟨true, 6, 0x05, 256⟩ && t.root == 257) =
      true := by
  decide +kernel

/-- Vector B13: a 40-bit sum. -/
theorem test_build_b13 :
    next? (exec .build (tabled [(0x00, 0xFFFFFFFF), (0x01, 0xFFFFFFFF)])) (fun t =>
      nodeGet t.node 256 == ⟨true, 8589934590, 0x00, 0x01⟩ && t.root == 256) = true := by
  decide +kernel

/-- The arena of vector B9, "abracadabra". -/
def abraTree : Table Node :=
  [(0x61, ⟨true, 5, 0x1FF, 0x1FF⟩), (0x62, ⟨true, 2, 0x1FF, 0x1FF⟩), (0x63, ⟨true, 1, 0x1FF, 0x1FF⟩),
   (0x64, ⟨true, 1, 0x1FF, 0x1FF⟩), (0x72, ⟨true, 2, 0x1FF, 0x1FF⟩), (256, ⟨true, 2, 0x63, 0x64⟩),
   (257, ⟨true, 4, 0x62, 0x72⟩), (258, ⟨true, 6, 256, 257⟩), (259, ⟨true, 11, 0x61, 258⟩)]

/-- Vector W8: 0x61 "0", 0x62 "110", 0x64 "101"; 0x65 none. -/
theorem test_walk_w8 :
    next? (exec .walk { State.reset with node := abraTree, root := 259 }) (fun t =>
      cbGet t.cb 0x61 == ⟨true, 1, 0⟩ && cbGet t.cb 0x62 == ⟨true, 3, 3⟩ && cbGet t.cb 0x64 == ⟨true, 3, 5⟩ &&
      cbGet t.cb 0x65 == ⟨false, 0, 0⟩ && statusOf t == 2) = true := by
  decide +kernel

/-- Vector W5: the sentinel. -/
theorem test_walk_w5 :
    next? (exec .walk { State.reset with node := [(0x41, ⟨true, 1, 0x1FF, 0x1FF⟩)], root := 0x41 }) (fun t =>
      t.cb == [(0x41, ⟨true, 1, 0⟩)] && statusOf t == 2) = true := by
  decide +kernel

/-- Scenario S2: "aaab". -/
theorem test_compile_s2 :
    next? (exec .compile (loaded [0x61, 0x61, 0x61, 0x62])) (fun t =>
      t.ft == [(0x61, 3), (0x62, 1)] && nodeGet t.node 256 == ⟨true, 4, 0x62, 0x61⟩ && t.root == 256 &&
      t.cb == [(0x61, ⟨true, 1, 1⟩), (0x62, ⟨true, 1, 0⟩)] && statusOf t == 2) = true := by
  decide +kernel

/-- Scenario S3: the stale codebook and table are gone too. -/
theorem test_compile_s3 :
    next? (exec .compile { coded [(0x61, 1, 0)] [] with ft := [(0x61, 3)] }) (fun t =>
      t.ft == [] && t.node == [] && t.root == 0x1FF && t.cb == [] && statusOf t == 0x00000106) = true := by
  decide +kernel

/-- Vector E16: the codes "10", "11", "0", two payload bytes. -/
theorem test_encode_e16 :
    next? (exec .encode (coded [(0x61, 2, 1), (0x62, 2, 3), (0x63, 1, 0)] [0x61, 0x61, 0x62, 0x62, 0x63, 0x63]))
      (outputIs [0x02, 0x61, 0x02, 0x01, 0x62, 0x02, 0x03, 0x63, 0x01, 0x00, 0xF5, 0x00, 0x06]) = true := by
  decide +kernel

/-- Vector E10: the first uncovered byte in input order, not the smallest. -/
theorem test_encode_e10 :
    next? (exec .encode { coded [(0x61, 1, 1), (0x62, 1, 0)] [0x7A, 0x63, 0x7A] with olen := 9 }) (fun t =>
      t.olen == 0 && t.obuf == [] && statusOf t == 0x007A0206) = true := by
  decide +kernel

/-- Vector X16: entries out of order, unused CODE bits and padding bits set. -/
theorem test_decode_x16 :
    next? (exec .decode (loaded [0x01, 0x62, 0x01, 0xFE, 0x61, 0x01, 0xFF, 0xFE, 0x06]))
      (outputIs [0x62, 0x61]) = true := by
  decide +kernel

/-- Vector X33: LEN 0 after another entry ends on the internal root. -/
theorem test_decode_x33 :
    next? (exec .decode { loaded [0x01, 0x62, 0x01, 0x00, 0x61, 0x00, 0x00] with olen := 9 }) (fun t =>
      t.olen == 0 && t.obuf == [] && statusOf t == 0x00003406) = true := by
  decide +kernel

/-- Vector Q5. -/
theorem test_illegal00 : next? (exec .illegal00 State.reset) (fun t => statusOf t == 0x00001606) = true := by
  decide +kernel

/-- Vector Q4. -/
theorem test_illegal07 : next? (exec .illegal07 State.reset) (fun t => statusOf t == 0x00071606) = true := by
  decide +kernel

theorem test_illegal08_0F :
    next? (exec (.illegal08_0F 0x0E) State.reset) (fun t => statusOf t == 0x000E1606) = true := by
  decide +kernel

theorem test_illegal10_1F :
    next? (exec (.illegal10_1F 0x1F) State.reset) (fun t => statusOf t == 0x001F1606) = true := by
  decide +kernel

theorem test_illegal20_3F :
    next? (exec (.illegal20_3F 0x20) State.reset) (fun t => statusOf t == 0x00201606) = true := by
  decide +kernel

theorem test_illegal40_7F :
    next? (exec (.illegal40_7F 0x7E) State.reset) (fun t => statusOf t == 0x007E1606) = true := by
  decide +kernel

theorem test_illegal80_FF :
    next? (exec (.illegal80_FF 0x81) State.reset) (fun t => statusOf t == 0x00811606) = true := by
  decide +kernel

/-- R192: 0xFF gives 256 entries, without wrap. -/
theorem test_containerCount :
    next? (exec (.containerCount 0xFF) (loaded [0xFF])) (fun t => t.scan == ⟨256, 1, 0, []⟩) = true := by
  decide +kernel

/-- R193, `00 41`: the SYM byte is there and its LEN byte is; one byte fewer is TRUNCATED. -/
theorem test_containerEntrySym :
    next? (exec (.containerEntrySym 0x41) { loaded [0x00, 0x41, 0x01] with scan := ⟨1, 1, 0, []⟩ }) (fun t =>
      t.scan == ⟨1, 2, 0x41, []⟩) = true ∧
    next? (exec (.containerEntrySym 0x41) { inFlight 6 (loaded [0x00, 0x41]) with scan := ⟨1, 1, 0, []⟩ }) (fun t =>
      statusOf t == 0x00001306 && t.scan == Scan.empty) = true := by
  decide +kernel

/-- R102's example `62 03 03`: symbol 0x62, code "110". -/
theorem test_containerEntryLen :
    next? (exec (.containerEntryLen 0x03) { loaded [0x00, 0x62, 0x03, 0x03] with scan := ⟨1, 2, 0x62, []⟩ }) (fun t =>
      t.scan == ⟨0, 4, 0x62, [⟨0x62, [true, true, false]⟩]⟩) = true := by
  decide +kernel

/-- X10 `00 41 01 00 FF 05`: three usable bits, all 1. -/
theorem test_containerPad :
    next? (exec (.containerPad 0x05) { loaded [0x00, 0x41, 0x01, 0x00, 0xFF, 0x05] with
      scan := ⟨0, 4, 0x41, [⟨0x41, [false]⟩]⟩ }) (outputIs [0x41, 0x41, 0x41]) = true := by
  decide +kernel

/-! ### The step, the fetch and the Host port -/

/-- Q6: bits [31:8] of the CMD word are ignored; the step after it completes COUNT. -/
theorem test_withFetchWord_runs_count :
    next? (step (State.reset.withFetchWord 32 0xABCDEF01)) (fun t => t.cmd == 0x01 && statusOf t == 2) = true := by
  decide +kernel

theorem test_withFetchWord_runs_illegal :
    next? (step (State.reset.withFetchWord 8 0x9A)) (fun t => t.cmd == 0x9A && statusOf t == 0x009A1606) = true := by
  decide +kernel

/-- PRG1's third line of reads: NODE[256] word 2 at 0x3008. -/
theorem test_read_node_word :
    next? (step { State.reset with node := [(256, ⟨true, 4, 0x62, 0x61⟩)], inbox := [.read 0x00003008] }) (fun t =>
      t.replies == [0x00610062]) = true := by
  decide +kernel

/-- PRG1's first line: IBUF[0..3] = 61 61 61 62. -/
theorem test_write_ibuf :
    next? (step { State.reset with inbox := [.write 0x01000000 0x62616161] }) (fun t =>
      t.ibuf == [(0, 0x61), (1, 0x61), (2, 0x61), (3, 0x62)]) = true := by
  decide +kernel

/-- Q11: word 9 of CB[0], the address after NODE[510], and 0x14 read 0; Q10: so does a misaligned address. -/
theorem test_read_reserved :
    (locate Config.Params.default 0x00004024 = .reserved ∧ locate Config.Params.default 0x00003FF0 = .reserved ∧
     locate Config.Params.default 0x00000014 = .reserved ∧ locate Config.Params.default 0x00000002 = .misaligned) := by
  decide +kernel

/-- R109: LOAD of six bytes, the last group padded with 00. -/
theorem test_loadOps :
    loadOps [0x01, 0x02, 0x03, 0x04, 0x05, 0x06] =
      [.write 0x01000000 0x04030201, .write 0x01000004 0x00000605, .write 0x00000008 6] := by
  decide +kernel

/-! ### Witnesses: for every statement with hypotheses, a state and operands that meet them together -/

theorem witness_DecodeOfEncodeIsIdentity : (Instr.illegal40_7F 0x40).wf = true := by decide

theorem witness_EncodeOfDecodeIsTheOpcode :
    decode (.containerByte .pad 0x07) = .ok (.containerPad 0x07) := by decide

theorem witness_PackAndUnpack : (9 : Nat) < 8 * (pack [true, true, true, true, true, true, true, true, true, false]).length := by
  decide +kernel

theorem witness_ResetEventFromAnyState :
    ({ inFlight 5 State.reset with wait := 1, inbox := [.reset] } : State).inbox = .reset :: [] ∧
    (({ inFlight 5 State.reset with wait := 1, inbox := [.reset] } : State).run = .idle ∨
      0 < ({ inFlight 5 State.reset with wait := 1, inbox := [.reset] } : State).wait) := by
  decide +kernel

/-- The reset state meets every invariant the step keeps, and steps. -/
theorem witness_reset_files : FilesInv State.reset :=
  ⟨by decide +kernel, Laws.ftWf_nil, Laws.nodeWf_nil, Laws.cbWf_nil, Laws.memory_wf_nil _, Laws.memory_wf_nil _⟩

/-- A command in flight from reset meets the file invariant, and its step answers a next state. -/
theorem witness_StepKeepsFilesCanonical :
    FilesInv (inFlight 1 State.reset) ∧ ∃ t, step (inFlight 1 State.reset) = .next t :=
  ⟨witness_reset_files, ⟨_, rfl⟩⟩

theorem witness_StepKeepsStatusLegal :
    FilesInv (inFlight 6 State.reset) ∧ StatusInv (inFlight 6 State.reset) ∧ OutputInv (inFlight 6 State.reset) ∧
      ∃ t, step (inFlight 6 State.reset) = .next t :=
  ⟨witness_reset_files, ⟨fun _ => rfl, .inl rfl⟩, ⟨by decide +kernel, rfl⟩, ⟨_, rfl⟩⟩

/-- The tree of "aaab" (vector B1). -/
def aaabTree : Table Node :=
  [(0x61, ⟨true, 3, 0x1FF, 0x1FF⟩), (0x62, ⟨true, 1, 0x1FF, 0x1FF⟩), (256, ⟨true, 4, 0x62, 0x61⟩)]

theorem aaabTree_used (i : Nat) : (nodeGet aaabTree i).used = true ↔ i = 0x61 ∨ i = 0x62 ∨ i = 256 := by
  simp only [nodeGet, aaabTree, Table.get?]
  split
  · simp_all
  · split
    · simp_all
    · split
      · simp_all
      · simp [Node.unused]; omega

theorem aaabTree_reach (i : Nat) : Reach aaabTree 256 i ↔ i = 0x61 ∨ i = 0x62 ∨ i = 256 := by
  constructor
  · intro h
    induction h with
    | root => exact .inr (.inr rfl)
    | left h hi ih =>
      rcases ih with rfl | rfl | rfl
      · omega
      · omega
      · exact .inr (.inl rfl)
    | right h hi ih =>
      rcases ih with rfl | rfl | rfl
      · omega
      · omega
      · exact .inl rfl
  · rintro (rfl | rfl | rfl)
    · exact Reach.right (nd := aaabTree) .root (by omega)
    · exact Reach.left (nd := aaabTree) .root (by omega)
    · exact .root

theorem aaabTree_isTree : IsTree aaabTree 256 where
  someLeaf := by decide +kernel
  rootUsed := by decide +kernel
  rootLeaf := by decide +kernel
  rootInternal := by decide +kernel
  internal i hi := by
    rw [aaabTree_used, show leafCount aaabTree = 2 by decide +kernel]
    omega
  reachable i := (aaabTree_used i).trans (aaabTree_reach i).symm
  leaf i hi hu := by
    rcases (aaabTree_used i).1 hu with rfl | rfl | rfl
    · decide +kernel
    · decide +kernel
    · omega
  fork i hi hu := by
    rcases (aaabTree_used i).1 hu with rfl | rfl | rfl
    · omega
    · omega
    · decide +kernel
  oneParent j hu hj := by
    refine ⟨256, ⟨by omega, by decide +kernel, ?_⟩, ?_⟩
    · rcases (aaabTree_used j).1 hu with rfl | rfl | rfl
      · exact .inr rfl
      · exact .inl rfl
      · exact absurd rfl hj
    · rintro i ⟨hi, hiu, -⟩
      rcases (aaabTree_used i).1 hiu with rfl | rfl | rfl
      · omega
      · omega
      · rfl

/-- A WALK in flight over that tree. -/
def aaabWalk : State := inFlight 3 { State.reset with node := aaabTree, root := 256 }

theorem aaabWalk_treeInv : TreeInv aaabWalk.node aaabWalk.root := by
  refine .inr ⟨aaabTree_isTree, fun i hi => ?_⟩
  have h : ¬ (i = 0x61 ∨ i = 0x62 ∨ i = 256) := fun h => by
    exact Bool.noConfusion (hi.symm.trans ((aaabTree_used i).2 h))
  simp only [not_or] at h
  show nodeGet aaabTree i = Node.unused
  simp [nodeGet, aaabTree, Table.get?, Ne.symm h.1, Ne.symm h.2.1, Ne.symm h.2.2]

theorem witness_StepKeepsTree : TreeInv aaabWalk.node aaabWalk.root ∧ ∃ t, step aaabWalk = .next t :=
  ⟨aaabWalk_treeInv, ⟨_, rfl⟩⟩

theorem witness_StepKeepsCodebook :
    TreeInv aaabWalk.node aaabWalk.root ∧ CodebookInv aaabWalk.cb ∧ ∃ t, step aaabWalk = .next t :=
  ⟨aaabWalk_treeInv, .inl fun _ => rfl, ⟨_, rfl⟩⟩

theorem witness_WalkGivesEveryLeafItsPath :
    IsTree aaabWalk.node aaabWalk.root ∧ 256 ≤ aaabWalk.root.toNat :=
  ⟨aaabTree_isTree, by decide⟩

theorem witness_CompiledCodes :
    IsTree aaabWalk.node aaabWalk.root ∧ 256 ≤ aaabWalk.root.toNat ∧ ∃ t, exec .walk aaabWalk = .next t :=
  ⟨aaabTree_isTree, by decide, ⟨_, rfl⟩⟩

theorem witness_StepCompletesCommandInCmd :
    (inFlight 4 State.reset).run = .busy ∧ (inFlight 4 State.reset).wait = 0 ∧
    decode (.cmdWord ((inFlight 4 State.reset).cmd.setWidth 32)) = .ok .compile := by
  decide +kernel

/-- While BUSY, with one access to come before the completion. -/
def busyWith (op : HostOp) : State := { inFlight 5 State.reset with wait := 1, inbox := [op] }

theorem witness_HostAccessesAreServedInOrder :
    (State.reset.run = .idle ∧ State.reset.inbox = []) ∧
    ((busyWith (.read 0x10)).inbox = [.read 0x10] ∧ (busyWith (.read 0x10)).run = .busy ∧
      0 < (busyWith (.read 0x10)).wait) := by
  decide +kernel

theorem witness_EveryCommandCompletes : (busyWith .wait).run = .busy := by decide

theorem witness_CmdWriteStartsCommand :
    ({ State.reset with inbox := [.write 0 0xABCDEF01] } : State).run = .idle ∧
    ({ State.reset with inbox := [.write 0 0xABCDEF01] } : State).inbox = .write 0x00000000 0xABCDEF01 :: [] := by
  decide +kernel

/-- A failure record that a write of STATUS does not acknowledge. -/
theorem witness_FailureRecordLasts :
    ({ State.reset.raise (.missingCode 0x63) with inbox := [.write 4 1] } : State).inbox = .write 4 1 :: [] ∧
    ({ State.reset.raise (.missingCode 0x63) with inbox := [.write 4 1] } : State).run = .idle ∧
    HostOp.write 4 1 ≠ .reset ∧ (∀ v, HostOp.write 4 1 ≠ .write 0x00000000 v) ∧
    ∃ t, step { State.reset.raise (.missingCode 0x63) with inbox := [.write 4 1] } = .next t :=
  ⟨rfl, rfl, by decide, fun v h => by injection h with h _; exact absurd h (by decide), ⟨_, rfl⟩⟩

theorem witness_AccessesWhileBusy :
    (busyWith (.write 0 4)).run = .busy ∧ 0 < (busyWith (.write 0 4)).wait ∧
    (busyWith (.write 0 4)).inbox = .write 0 4 :: [] ∧ (busyWith (.read 4)).inbox = .read 4 :: [] ∧
    StatusInv (busyWith (.read 4)) :=
  ⟨rfl, by decide, rfl, rfl, ⟨fun _ => rfl, .inl rfl⟩⟩

theorem witness_WaitPollsStatus :
    (busyWith .wait).inbox = .wait :: [] ∧ (busyWith .wait).run = .busy ∧ 0 < (busyWith .wait).wait ∧
    ({ State.reset with inbox := [.wait] } : State).inbox = .wait :: [] := by
  decide +kernel

/-- Idle, with one access to make. -/
def idleWith (op : HostOp) : State := { State.reset with inbox := [op] }

theorem witness_idle_accesses (op : HostOp) : (idleWith op).run = .idle ∧ (idleWith op).inbox = op :: [] :=
  ⟨rfl, rfl⟩

theorem witness_ScalarRegisterAccesses :
    (idleWith (.read 0x10)).run = .idle ∧ (idleWith (.read 0x10)).inbox = .read 0x00000010 :: [] ∧
    (idleWith (.write 0x8 0xFFFFFFFF)).inbox = .write 0x00000008 0xFFFFFFFF :: [] := by
  decide +kernel

theorem witness_StatusReadFormat :
    (idleWith (.read 4)).run = .idle ∧ (idleWith (.read 4)).inbox = .read 0x00000004 :: [] ∧
    StatusInv (idleWith (.read 4)) :=
  ⟨rfl, rfl, ⟨fun h => Run.noConfusion h, .inl rfl⟩⟩

theorem witness_FailureStatusWords :
    ∃ w : Failure → Word, ∀ f, w f = statusWord .idle (Status.ofResult (some f)) :=
  ⟨_, fun _ => rfl⟩

/-- FT[0xFF] is the last counter, at 0x07FC. -/
theorem witness_FtWordReadAndWrite :
    (idleWith (.write 0x7FC 5)).run = .idle ∧
    (idleWith (.write 0x7FC 5)).inbox = .write (BitVec.ofNat 32 (0x400 + 4 * (0xFF : Byte).toNat)) 5 :: [] ∧
    (idleWith (.read 0x7FC)).inbox = .read (BitVec.ofNat 32 (0x400 + 4 * (0xFF : Byte).toNat)) :: [] := by
  decide +kernel

/-- NODE[510] word 3 is the last word, at 0x3FEC. -/
theorem witness_NodeWordFormat :
    (idleWith (.read 0x3FEC)).run = .idle ∧ 510 < 511 ∧ 3 < 4 ∧
    (idleWith (.read 0x3FEC)).inbox = .read (BitVec.ofNat 32 (0x2000 + 16 * 510 + 4 * 3)) :: [] := by
  decide +kernel

/-- CB[0xFF] word 8 is the last word, at 0x7FE0. -/
theorem witness_CbWordFormat :
    (idleWith (.read 0x7FE0)).run = .idle ∧ 8 ≤ 8 ∧
    (idleWith (.read 0x7FE0)).inbox = .read (BitVec.ofNat 32 (0x4000 + 64 * (0xFF : Byte).toNat + 4 * 8)) :: [] := by
  decide +kernel

/-- The last word of IBUF and of OBUF, with the default sizes. -/
theorem witness_BufferWordLanes :
    (idleWith (.write 0x0100FFFC 1)).params.Legal ∧ 65532 % 4 = 0 ∧ 65532 < State.reset.params.ibufSize ∧
    (idleWith (.write 0x0100FFFC 1)).inbox = .write (BitVec.ofNat 32 (0x01000000 + 65532)) 1 :: [] ∧
    (idleWith (.read 0x0100FFFC)).inbox = .read (BitVec.ofNat 32 (0x01000000 + 65532)) :: [] ∧
    524284 < State.reset.params.obufSize ∧
    (idleWith (.read 0x0207FFFC)).inbox = .read (BitVec.ofNat 32 (0x02000000 + 524284)) :: [] ∧
    (idleWith (.write 0x0207FFFC 1)).inbox = .write (BitVec.ofNat 32 (0x02000000 + 524284)) 1 :: [] := by
  decide +kernel

/-- The first address past IBUF is neither; STATUS is read only; 0x02 is misaligned. -/
theorem witness_UnmappedAccesses :
    State.reset.params.Legal ∧
    ¬ Writable State.reset.params 0x01010000 ∧ ¬ ReadOnly State.reset.params 0x01010000 ∧
    ¬ Writable State.reset.params 0x00000004 ∧
    ¬ Writable State.reset.params 0x00000002 ∧ ¬ ReadOnly State.reset.params 0x00000002 := by
  refine ⟨by decide +kernel, ?_⟩
  unfold Writable ReadOnly
  decide +kernel

/-- ILEN = IBUF_SIZE is legal, IBUF_SIZE + 1 is not. -/
theorem witness_CountFillsTable :
    ({ State.reset with ilen := 65536 } : State).ilen.toNat ≤ State.reset.params.ibufSize := by decide +kernel

theorem witness_OverlongInputIsIllegalCommand :
    State.reset.params.ibufSize < ({ State.reset with ilen := 65537 } : State).ilen.toNat := by decide +kernel

theorem witness_EmptyInputLeavesNothingStale :
    (∀ i, i < 256 → ftGet State.reset.ft i = 0) ∧ State.reset.root = 0x1FF#9 ∧ State.reset.ilen = 0 :=
  ⟨fun _ _ => rfl, rfl, rfl⟩

/-- Only the last symbol appears. -/
theorem witness_BuildOfOneSymbol :
    ftGet (tabled [(255, 1)]).ft 255 ≠ 0 ∧ ∀ i, i < 256 → i ≠ 255 → ftGet (tabled [(255, 1)]).ft i = 0 := by
  refine ⟨by decide +kernel, fun i _ h => ?_⟩
  show ftGet (ftPut [] 255 1) i = 0
  rw [Laws.ftGet_ftPut, if_neg h]
  rfl

theorem witness_BuildMakesTree : ∃ i, i < 256 ∧ ftGet (tabled [(255, 1)]).ft i ≠ 0 :=
  ⟨255, by decide, by decide +kernel⟩

/-- A BUILD that makes a merge. -/
theorem witness_MergesTakeTheLeastKeys :
    ∃ t, exec .build (tabled [(0x61, 3), (0x62, 1)]) = .next t ∧ (nodeGet t.node (256 + 0)).used = true ∧
      t.root ≠ 0x1FF#9 :=
  ⟨_, rfl, by decide +kernel, by decide +kernel⟩

theorem witness_BuildIsAFunctionOfTheTable :
    ∀ i, i < 256 → ftGet (tabled [(1, 2)]).ft i = ftGet ({ tabled [(1, 2)] with node := aaabTree } : State).ft i :=
  fun _ _ => rfl

theorem witness_WalkOfOneLeafGivesTheSentinel :
    ({ State.reset with root := 0xFF } : State).root.toNat < 256 := by decide +kernel

theorem witness_CompileEqualsCountBuildWalk :
    1 ≤ (loaded [0x61]).ilen.toNat ∧ (loaded [0x61]).ilen.toNat ≤ (loaded [0x61]).params.ibufSize := by decide +kernel

/-- "aaab" under its codebook, in a buffer of exactly the container's 9 bytes rounded to 12. -/
def aaabEncode (obufSize : Nat) : State :=
  { coded [(0x61, 1, 1), (0x62, 1, 0)] [0x61, 0x61, 0x61, 0x62] with
    params := { ibufSize := 4, obufSize := obufSize } }

theorem covers_of_all {cb : Table CbRec} {data : List Byte}
    (h : (data.all fun b => (cbGet cb b.toNat).valid) = true) : Covers cb data := by
  simpa [Covers] using h

theorem witness_EncodeWritesTheContainer :
    (aaabEncode 12).params.Legal ∧ 1 ≤ (aaabEncode 12).ilen.toNat ∧
    (aaabEncode 12).ilen.toNat ≤ (aaabEncode 12).params.ibufSize ∧ Covers (aaabEncode 12).cb (aaabEncode 12).input ∧
    containerSize (aaabEncode 12).cb (aaabEncode 12).input ≤ (aaabEncode 12).params.obufSize :=
  ⟨by decide +kernel, by decide +kernel, by decide +kernel, covers_of_all (by decide +kernel), by decide +kernel⟩

/-- One clause each: no data; the second byte uncovered; a buffer of 8 bytes for a container of 9 (vector E18). -/
theorem witness_EncodeFailures :
    State.reset.ilen = 0 ∧
    ((coded [(0x61, 1, 0)] [0x61, 0x63]).ilen.toNat ≤ (coded [(0x61, 1, 0)] [0x61, 0x63]).params.ibufSize ∧
      (coded [(0x61, 1, 0)] [0x61, 0x63]).input = [0x61] ++ 0x63 :: [] ∧
      Covers (coded [(0x61, 1, 0)] [0x61, 0x63]).cb [0x61] ∧
      (cbGet (coded [(0x61, 1, 0)] [0x61, 0x63]).cb (0x63 : Byte).toNat).valid = false) ∧
    (1 ≤ (aaabEncode 8).ilen.toNat ∧ (aaabEncode 8).ilen.toNat ≤ (aaabEncode 8).params.ibufSize ∧
      Covers (aaabEncode 8).cb (aaabEncode 8).input ∧
      (aaabEncode 8).params.obufSize < containerSize (aaabEncode 8).cb (aaabEncode 8).input) :=
  ⟨rfl, ⟨by decide +kernel, by decide +kernel, covers_of_all (by decide +kernel), by decide +kernel⟩,
    ⟨by decide +kernel, by decide +kernel, covers_of_all (by decide +kernel), by decide +kernel⟩⟩

theorem witness_FailedCommandsLeaveNoOutput : State.reset.params.Legal := by decide +kernel

/-- A container in IBUF, written byte by byte: `Holds` from the bytes read back. -/
theorem holds_of_all {s : State} {bytes : List Byte}
    (h : (s.ilen.toNat == bytes.length && decide (bytes.length ≤ s.params.ibufSize) &&
      (List.range bytes.length).all fun a => bytes[a]? == s.ibuf.get? a) = true) : Holds s bytes := by
  simp only [Bool.and_eq_true, beq_iff_eq, decide_eq_true_eq, List.all_eq_true, List.mem_range] at h
  refine ⟨h.1.1, h.1.2, fun a ha => ?_⟩
  simp [State.ibufByte, ← h.2 a ha, List.getElem?_eq_getElem ha, List.getD_eq_getElem?_getD]

/-- The entries of vector X4: 0x61 "0", 0x62 "1". -/
def abEntries : List WireEntry := [⟨0x61, 1, [0x00]⟩, ⟨0x62, 1, [0x01]⟩]

/-- The entries of vector X34: 0x61 "00", 0x62 "01". -/
def gapEntries : List WireEntry := [⟨0x61, 2, [0x00]⟩, ⟨0x62, 2, [0x02]⟩]

theorem abEntries_ok : WireOk abEntries := by
  refine ⟨by decide, by decide, ?_⟩
  unfold WireEntry.Fits abEntries
  decide +kernel

theorem gapEntries_ok : WireOk gapEntries := by
  refine ⟨by decide, by decide, ?_⟩
  unfold WireEntry.Fits gapEntries
  decide +kernel

theorem abEntries_prefixFree : PrefixFree abEntries := by unfold PrefixFree abEntries; decide +kernel
theorem gapEntries_prefixFree : PrefixFree gapEntries := by unfold PrefixFree gapEntries; decide +kernel

/-- S4's container, `01 61 01 01`, begins a header of two entries. -/
theorem witness_DecodeOfTruncatedContainer :
    WireOk [⟨0x61, 1, [0x01]⟩, ⟨0x62, 1, [0x00]⟩] ∧
    [0x01, 0x61, 0x01, 0x01] <+: wireHeader [⟨0x61, 1, [0x01]⟩, ⟨0x62, 1, [0x00]⟩] ∧
    Holds (loaded [0x01, 0x61, 0x01, 0x01]) [0x01, 0x61, 0x01, 0x01] := by
  refine ⟨⟨by decide, by decide, ?_⟩, by decide +kernel, holds_of_all (by decide +kernel)⟩
  unfold WireEntry.Fits
  decide +kernel

/-- X12 fits the default OBUF; X39's 16 symbols do not fit 8 bytes. -/
theorem witness_DecodeOfSingleEntry :
    (WireEntry.mk 0x41 0 []).Fits ∧ PadOk [0xA5] 0 ∧ (loaded [0x00, 0x41, 0x00, 0xA5, 0x00]).params.Legal ∧
    Holds (loaded [0x00, 0x41, 0x00, 0xA5, 0x00]) (wireContainer [⟨0x41, 0, []⟩] [0xA5] 0) ∧
    8 * [(0xA5 : Byte)].length - (0 : Byte).toNat ≤ (loaded [0x00, 0x41, 0x00, 0xA5, 0x00]).params.obufSize ∧
    (WireEntry.mk 0x41 1 [0x00]).Fits ∧ PadOk [0xFF, 0xFF] 0 ∧
    Holds { loaded [0x00, 0x41, 0x01, 0x00, 0xFF, 0xFF, 0x00] with params := ⟨8, 8⟩ }
      (wireContainer [⟨0x41, 1, [0x00]⟩] [0xFF, 0xFF] 0) ∧
    8 < 8 * [(0xFF : Byte), 0xFF].length - (0 : Byte).toNat :=
  ⟨by unfold WireEntry.Fits; decide, ⟨by decide, by decide⟩, by decide +kernel, holds_of_all (by decide +kernel),
    by decide +kernel, by unfold WireEntry.Fits; decide, ⟨by decide, by decide⟩, holds_of_all (by decide +kernel),
    by decide⟩

/-- X4: `01 61 01 00 62 01 01 02 06`, payload bits 0, 1. -/
theorem witness_DecodeRecoversSymbols :
    (loaded [0x01, 0x61, 0x01, 0x00, 0x62, 0x01, 0x01, 0x02, 0x06]).params.Legal ∧ WireOk abEntries ∧
    2 ≤ abEntries.length ∧ PrefixFree abEntries ∧ PadOk [0x02] 6 ∧
    Holds (loaded [0x01, 0x61, 0x01, 0x00, 0x62, 0x01, 0x01, 0x02, 0x06]) (wireContainer abEntries [0x02] 6) ∧
    (∀ x ∈ abEntries, x ∈ abEntries) ∧ usableBits [0x02] 6 = abEntries.flatMap WireEntry.bits ∧
    abEntries.length ≤ (loaded [0x01, 0x61, 0x01, 0x00, 0x62, 0x01, 0x01, 0x02, 0x06]).params.obufSize :=
  ⟨by decide +kernel, abEntries_ok, by decide, abEntries_prefixFree, ⟨by decide, by decide⟩,
    holds_of_all (by decide +kernel), fun _ h => h, by decide +kernel, by decide +kernel⟩

/-- The overflow clause: sixteen one-bit codes and a buffer of 8 bytes. -/
theorem witness_DecodeRecoversSymbols_overflow :
    PadOk [0x00, 0x00] 0 ∧
    Holds { loaded [0x01, 0x61, 0x01, 0x00, 0x62, 0x01, 0x01, 0x00, 0x00, 0x00] with params := ⟨12, 8⟩ }
      (wireContainer abEntries [0x00, 0x00] 0) ∧
    (∀ x ∈ List.replicate 16 (WireEntry.mk 0x61 1 [0x00]), x ∈ abEntries) ∧
    usableBits [0x00, 0x00] 0 = (List.replicate 16 (WireEntry.mk 0x61 1 [0x00])).flatMap WireEntry.bits ∧
    8 < (List.replicate 16 (WireEntry.mk 0x61 1 [0x00])).length :=
  ⟨⟨by decide, by decide⟩, holds_of_all (by decide +kernel), by decide +kernel, by decide +kernel, by decide⟩

/-- X35 ends mid-code, X34 leaves the trie. -/
theorem witness_DecodeRejectsBadPayload :
    WireOk gapEntries ∧ 2 ≤ gapEntries.length ∧ PrefixFree gapEntries ∧ PadOk [0x00] 7 ∧ PadOk [0x01] 7 ∧
    Holds (loaded [0x01, 0x61, 0x02, 0x00, 0x62, 0x02, 0x02, 0x00, 0x07]) (wireContainer gapEntries [0x00] 7) ∧
    usableBits [0x00] 7 = ([] : List WireEntry).flatMap WireEntry.bits ++ [false] ∧
    (∃ e ∈ gapEntries, [false] <+: e.bits ∧ [false] ≠ e.bits) ∧
    Holds (loaded [0x01, 0x61, 0x02, 0x00, 0x62, 0x02, 0x02, 0x01, 0x07]) (wireContainer gapEntries [0x01] 7) ∧
    usableBits [0x01] 7 = ([] : List WireEntry).flatMap WireEntry.bits ++ [true] ∧
    (∀ e ∈ gapEntries, ¬ [true] <+: e.bits ∧ ¬ e.bits <+: [true]) :=
  ⟨gapEntries_ok, by decide, gapEntries_prefixFree, ⟨by decide, by decide⟩, ⟨by decide, by decide⟩,
    holds_of_all (by decide +kernel), by decide +kernel, by unfold gapEntries; decide +kernel,
    holds_of_all (by decide +kernel), by decide +kernel, by unfold gapEntries; decide +kernel⟩

/-- X27, X28 and X29, one for each kind of conflict. -/
theorem witness_DecodeRejectsConflictingCodes :
    (WireOk ([⟨0x61, 1, [0x00]⟩] ++ ⟨0x62, 2, [0x02]⟩ :: []) ∧ PrefixFree [⟨0x61, 1, [0x00]⟩] ∧
      Holds (loaded [0x01, 0x61, 0x01, 0x00, 0x62, 0x02, 0x02, 0x00, 0x00])
        (wireContainer ([⟨0x61, 1, [0x00]⟩] ++ ⟨0x62, 2, [0x02]⟩ :: []) [0x00] 0) ∧
      (∃ x ∈ [WireEntry.mk 0x61 1 [0x00]], x.bits <+: (WireEntry.mk 0x62 2 [0x02]).bits ∧
        x.bits ≠ (WireEntry.mk 0x62 2 [0x02]).bits)) ∧
    (Holds (loaded [0x01, 0x61, 0x01, 0x00, 0x62, 0x01, 0x00, 0x00, 0x00])
        (wireContainer ([⟨0x61, 1, [0x00]⟩] ++ ⟨0x62, 1, [0x00]⟩ :: []) [0x00] 0) ∧
      (∃ x ∈ [WireEntry.mk 0x61 1 [0x00]], x.bits = (WireEntry.mk 0x62 1 [0x00]).bits)) ∧
    (Holds (loaded [0x01, 0x61, 0x02, 0x02, 0x62, 0x01, 0x00, 0x00, 0x00])
        (wireContainer ([⟨0x61, 2, [0x02]⟩] ++ ⟨0x62, 1, [0x00]⟩ :: []) [0x00] 0) ∧
      (∃ x ∈ [WireEntry.mk 0x61 2 [0x02]], (WireEntry.mk 0x62 1 [0x00]).bits <+: x.bits ∧
        (WireEntry.mk 0x62 1 [0x00]).bits ≠ x.bits)) := by
  refine ⟨⟨⟨by decide, by decide, ?_⟩, ?_, holds_of_all (by decide +kernel), by decide +kernel⟩,
    ⟨holds_of_all (by decide +kernel), by decide +kernel⟩, ⟨holds_of_all (by decide +kernel), by decide +kernel⟩⟩
  · unfold WireEntry.Fits; decide +kernel
  · exact List.pairwise_singleton _ _

/-- X25 (PAD 8), X26 (no payload, PAD 5) and X14 (no payload, PAD 0). -/
theorem witness_DecodeJudgesThePadByte :
    WireOk abEntries ∧ PrefixFree abEntries ∧
    (Holds (loaded [0x01, 0x61, 0x01, 0x00, 0x62, 0x01, 0x01, 0x02, 0x08]) (wireContainer abEntries [0x02] 8) ∧
      7 < (8 : Byte).toNat) ∧
    (Holds (loaded [0x01, 0x61, 0x01, 0x00, 0x62, 0x01, 0x01, 0x05]) (wireContainer abEntries [] 5) ∧
      (5 : Byte) ≠ 0) ∧
    Holds (loaded [0x01, 0x61, 0x01, 0x00, 0x62, 0x01, 0x01, 0x00]) (wireContainer abEntries [] 0) :=
  ⟨abEntries_ok, abEntries_prefixFree, ⟨holds_of_all (by decide +kernel), by decide⟩,
    ⟨holds_of_all (by decide +kernel), by decide⟩, holds_of_all (by decide +kernel)⟩

/-- The same data and codebook in instances that otherwise differ. -/
theorem witness_ResultsDependOnlyOnTheInput :
    (aaabEncode 12).params = ({ aaabEncode 12 with olen := 7, ft := [(1, 2)] } : State).params ∧
    (∀ a, a < (aaabEncode 12).ilen.toNat →
      (aaabEncode 12).ibufByte a = ({ aaabEncode 12 with olen := 7, ft := [(1, 2)] } : State).ibufByte a) ∧
    ∀ k, k < 256 → cbGet (aaabEncode 12).cb k = cbGet ({ aaabEncode 12 with olen := 7, ft := [(1, 2)] } : State).cb k :=
  ⟨rfl, fun _ _ => rfl, fun _ _ => rfl⟩

theorem witness_DecodeStaysWithinItsBounds :
    (∀ e ∈ [Entry.mk 0x61 [false], Entry.mk 0x62 [true]], e.code.length ≤ 255) ∧
    insertAll [Entry.mk 0x61 [false], Entry.mk 0x62 [true]] .empty = .ok (.fork (.leaf 0x61) (.leaf 0x62)) ∧
    8 * State.reset.params.ibufSize ≤ State.reset.params.obufSize ∧ ∃ t, exec .decode State.reset = .next t :=
  ⟨by decide, by decide, by decide +kernel, ⟨_, rfl⟩⟩

/-- The codebook of "aaab" (vector W1). -/
def aaabCodes : Table CbRec := [(0x61, ⟨true, 1, 1⟩), (0x62, ⟨true, 1, 0⟩)]

theorem aaabCodes_valid (s : Nat) : (cbGet aaabCodes s).valid = true ↔ s = 0x61 ∨ s = 0x62 := by
  simp only [cbGet, aaabCodes, Table.get?]
  split
  · simp_all
  · split
    · simp_all
    · simp [CbRec.invalid]; omega

theorem aaabCodes_isCodebook : IsCodebook aaabCodes where
  someCode := ⟨0x61, by decide, by decide +kernel⟩
  length s _ h := by
    rcases (aaabCodes_valid s).1 h with rfl | rfl <;> decide +kernel
  padding s _ h k hk := by
    rcases (aaabCodes_valid s).1 h with rfl | rfl
    · change 1 ≤ k at hk
      show (1#256).getLsbD k = false
      simp [BitVec.getLsbD_one]
      omega
    · show (0#256).getLsbD k = false
      simp
  prefixFree s t _ _ hs ht hne := by
    rcases (aaabCodes_valid s).1 hs with rfl | rfl <;> rcases (aaabCodes_valid t).1 ht with rfl | rfl <;>
      first
      | exact absurd rfl hne
      | decide +kernel
  single h := by revert h; decide +kernel
  invalid s h := by
    have hs : ¬ (s = 0x61 ∨ s = 0x62) := fun hs => by
      rw [(aaabCodes_valid s).2 hs] at h
      exact Bool.noConfusion h
    rw [not_or] at hs
    simp [cbGet, aaabCodes, Table.get?, Ne.symm hs.1, Ne.symm hs.2]

/-- Vector E2 back as X3: the container of "aaab", fed back, fits. -/
theorem witness_DecodeOfEncodeIsTheData :
    (aaabEncode 12).params.Legal ∧ IsCodebook (aaabEncode 12).cb ∧
    (∃ t, exec .encode (aaabEncode 12) = .next t ∧ t.status.error = false ∧ t.olen = 9 ∧
      ∀ a, a < t.olen.toNat →
        (loaded [0x01, 0x61, 0x01, 0x01, 0x62, 0x01, 0x00, 0x07, 0x04]).ibufByte a = t.obufByte a) ∧
    (loaded [0x01, 0x61, 0x01, 0x01, 0x62, 0x01, 0x00, 0x07, 0x04]).ilen = 9 ∧
    (aaabEncode 12).ilen.toNat ≤ (loaded []).params.obufSize := by
  refine ⟨by decide +kernel, aaabCodes_isCodebook, ⟨_, rfl, by decide +kernel, by decide +kernel, ?_⟩,
    by decide +kernel, by decide +kernel⟩
  intro a ha
  have h9 : a < 9 := Nat.lt_of_lt_of_eq ha (by decide +kernel)
  match a, h9 with
  | 0, _ | 1, _ | 2, _ | 3, _ | 4, _ | 5, _ | 6, _ | 7, _ | 8, _ => decide +kernel

/-- COMPILE and ENCODE of "aaab" answer next states, and ENCODE does not fail. -/
theorem witness_RoundTrip :
    (loaded [0x61, 0x61, 0x61, 0x62]).params.Legal ∧ 1 ≤ (loaded [0x61, 0x61, 0x61, 0x62]).ilen.toNat ∧
    (loaded [0x61, 0x61, 0x61, 0x62]).ilen.toNat ≤ (loaded [0x61, 0x61, 0x61, 0x62]).params.ibufSize ∧
    ∃ s1 s2, exec .compile (loaded [0x61, 0x61, 0x61, 0x62]) = .next s1 ∧ exec .encode s1 = .next s2 ∧
      s2.status.error = false ∧ s2.olen = 9 :=
  ⟨by decide +kernel, by decide +kernel, by decide +kernel, _, _, rfl, rfl, by decide +kernel, by decide +kernel⟩

/-- A buffer with the byte to read and one that ends too soon, for each clause. -/
theorem witness_HeaderBytesAreRead :
    (loaded [0x00, 0x41, 0x01, 0x00, 0x07]).ilen.toNat ≤ (loaded []).params.ibufSize ∧
    1 ≤ (loaded [0x00, 0x41, 0x01, 0x00, 0x07]).ilen.toNat ∧
    ({ loaded [0x00, 0x41, 0x01] with scan := ⟨1, 1, 0, []⟩ } : State).scan.p + 2 ≤ (loaded [0x00, 0x41, 0x01]).ilen.toNat ∧
    ({ loaded [0x00, 0x41, 0x08, 0xFF] with scan := ⟨1, 2, 0x41, []⟩ } : State).scan.p + 1 + ((8 : Byte).toNat + 7) / 8 ≤
      (loaded [0x00, 0x41, 0x08, 0xFF]).ilen.toNat ∧
    (loaded []).ilen.toNat = 0 ∧
    (loaded [0x00, 0x41]).ilen.toNat < ({ loaded [0x00, 0x41] with scan := ⟨1, 1, 0, []⟩ } : State).scan.p + 2 ∧
    (loaded [0x00, 0x41, 0x09, 0xFF]).ilen.toNat <
      ({ loaded [0x00, 0x41, 0x09, 0xFF] with scan := ⟨1, 2, 0x41, []⟩ } : State).scan.p + 1 + ((9 : Byte).toNat + 7) / 8 := by
  decide +kernel

theorem witness_PadByteClosesTheContainer :
    WireOk abEntries ∧
    Holds { loaded [0x01, 0x61, 0x01, 0x00, 0x62, 0x01, 0x01, 0x02, 0x06] with
      scan := ⟨0, 7, 0x62, [⟨0x61, [false]⟩, ⟨0x62, [true]⟩]⟩ } (wireContainer abEntries [0x02] 6) ∧
    (⟨0, 7, 0x62, [⟨0x61, [false]⟩, ⟨0x62, [true]⟩]⟩ : Scan) =
      { left := 0, p := (wireHeader abEntries).length, sym := 0x62,
        ents := abEntries.map fun e => { sym := e.sym, code := e.bits } } :=
  ⟨abEntries_ok, holds_of_all (by decide +kernel), by decide +kernel⟩

theorem witness_DecodeIsItsBytewiseReading : (inFlight 6 (loaded [0x00])).run = .busy := rfl

theorem witness_IllegalOpcodesFail :
    ((0x00 : Byte) = 0 ∨ 7 ≤ (0x00 : Byte).toNat) ∧ ((0x07 : Byte) = 0 ∨ 7 ≤ (0x07 : Byte).toNat) ∧
    (idleWith (.write 0 0xABCDEF07)).run = .idle ∧
    (idleWith (.write 0 0xABCDEF07)).inbox = .write 0x00000000 ((0xABCDEF : BitVec 24) ++ (0x07 : Byte)) :: [] := by
  decide +kernel

theorem witness_CommandsTouchOnlyTheirOutputs :
    (∃ t, exec .count State.reset = .next t) ∧ (∃ t, exec .build State.reset = .next t) ∧
    (∃ t, exec .walk State.reset = .next t) ∧ (∃ t, exec .compile State.reset = .next t) ∧
    (∃ t, exec .encode State.reset = .next t) ∧ (∃ t, exec .decode State.reset = .next t) :=
  ⟨Laws.exec_next _ _, Laws.exec_next _ _, Laws.exec_next _ _, Laws.exec_next _ _, Laws.exec_next _ _,
    Laws.exec_next _ _⟩

theorem witness_CommandsFromReset :
    ∃ s : State, s = ({ State.reset with epoch := 3 } : State).startCommand 0x00000005 :=
  ⟨_, rfl⟩

end Sys2Proof.Tests
end

section
/-! Packing and its inverse (00_scope R8), on the bit laws of Sys2Proof/Laws. -/

namespace Sys2Proof.Proofs

open Sys2Proof.Machine Sys2Proof.Laws

/-- What follows a region does not disturb the bits unpacked from it. -/
theorem unpack_append (bytes rest : List Byte) {n : Nat} (h : n ≤ 8 * bytes.length) :
    unpack (bytes ++ rest) n = unpack bytes n :=
  List.map_congr_left fun k hk => bitAt_append _ _ (by have := List.mem_range.1 hk; omega)

/-- Unpacking recovers what was packed. -/
@[simp] theorem unpack_pack (bits : Bits) : unpack (pack bits) bits.length = bits := by
  refine List.ext_getElem (unpack_length _ _) fun k _ hk => ?_
  have hbyte : k < 8 * ceilDiv8 bits.length := by unfold ceilDiv8; omega
  calc (unpack (pack bits) bits.length)[k]
      = bitAt (pack bits) k := by simp [unpack]
    _ = bits.getD k false := bitAt_pack bits hbyte
    _ = bits[k] := List.getD_eq_getElem bits false hk

theorem length_le_pack (bits : Bits) : bits.length ≤ 8 * (pack bits).length := by
  rw [pack_length, ceilDiv8]; omega

/-- Settles O5: the length and the bits are `pack_length` and `bitAt_pack`, and unpacking recovers the sequence
because what follows a packing does not disturb its bits. -/
theorem packAndUnpack : Obligations.PackAndUnpack := by
  refine ⟨fun c => ⟨pack_length c, fun k hk => ?_, fun rest => ?_⟩, fun bytes n =>
    ⟨unpack_length bytes n, fun k hk => unpack_getElem? bytes hk⟩⟩
  · exact bitAt_pack c (pack_length c ▸ hk)
  · rw [unpack_append _ _ (length_le_pack c), unpack_pack]

end Sys2Proof.Proofs
end

section
/-! WALK (42_walk_compile R150 to R156): the codes are the paths from the root to the leaves, so none begins another
and each has 1 to 255 bits. -/

namespace Sys2Proof.Proofs

open Sys2Proof.Machine Sys2Proof.Laws Sys2Proof.Safety

/-! ### Paths in the arena -/

/-- The child a code bit leads to: bit 0 to LEFT, bit 1 to RIGHT (R152). -/
def childSlot (nd : Table Node) (i : Nat) : Bool → Nat
  | false => (nodeGet nd i).left.toNat
  | true => (nodeGet nd i).right.toNat

/-- The bits lead from slot `i` to slot `j`, through used internal slots only. -/
def PathTo (nd : Table Node) : Nat → Bits → Nat → Prop
  | i, [], j => i = j
  | i, b :: bs, j => 256 ≤ i ∧ (nodeGet nd i).used = true ∧ PathTo nd (childSlot nd i b) bs j

/-- A path ends where `descend` does. -/
theorem PathTo.descend_eq {nd : Table Node} : ∀ {i j : Nat} {bs : Bits}, PathTo nd i bs j → descend nd i bs = j
  | _, _, [], h => h
  | _, _, false :: _, ⟨_, _, h⟩ => h.descend_eq
  | _, _, true :: _, ⟨_, _, h⟩ => h.descend_eq

theorem pathTo_append {nd : Table Node} {i j : Nat} {bs cs : Bits} :
    PathTo nd i (bs ++ cs) j ↔ ∃ m, PathTo nd i bs m ∧ PathTo nd m cs j := by
  induction bs generalizing i with
  | nil => simp [PathTo]
  | cons b bs ih => simp [PathTo, ih, and_assoc]

/-- A path from a leaf goes nowhere. -/
theorem PathTo.of_leaf {nd : Table Node} {i j : Nat} {bs : Bits} (h : PathTo nd i bs j) (hi : i < 256) :
    bs = [] ∧ i = j := by
  cases bs with
  | nil => exact ⟨rfl, h⟩
  | cons b bs => exact absurd h.1 (by omega)

/-- If one path to a leaf begins another path, both lead to that leaf. -/
theorem PathTo.leaf_eq_of_prefix {nd : Table Node} {r i j : Nat} {bs cs : Bits} (hb : PathTo nd r bs i)
    (hc : PathTo nd r cs j) (hi : i < 256) (hpre : bs <+: cs) : i = j := by
  obtain ⟨ds, rfl⟩ := hpre
  obtain ⟨m, hm, hds⟩ := pathTo_append.1 hc
  have hmi : m = i := hm.descend_eq.symm.trans hb.descend_eq
  exact ((hmi ▸ hds).of_leaf hi).2

/-! ### The traversal of R150 -/

/-- The path word with one more bit, at position `depth` (R150). -/
def pathBit (path : BitVec 256) (depth : Nat) : Bool → BitVec 256
  | false => path
  | true => path ||| (1#256 <<< depth)

/-- The path word after the bits `bs`, from a word that already holds `depth` of them. -/
def pathWord (path : BitVec 256) (depth : Nat) : Bits → BitVec 256
  | [] => path
  | b :: bs => pathWord (pathBit path depth b) (depth + 1) bs

theorem pathBit_getLsbD (path : BitVec 256) (depth : Nat) (b : Bool) {k : Nat} (hk : k < 256) :
    (pathBit path depth b).getLsbD k = (path.getLsbD k || (b && decide (k = depth))) := by
  cases b with
  | false => simp [pathBit]
  | true =>
    rw [pathBit, ← BitVec.twoPow_eq, BitVec.getLsbD_or, BitVec.getLsbD_twoPow]
    grind

theorem pathWord_getLsbD (path : BitVec 256) (depth : Nat) (bs : Bits) {k : Nat} (hk : k < 256) :
    (pathWord path depth bs).getLsbD k =
      (path.getLsbD k || (decide (depth ≤ k) && bs.getD (k - depth) false)) := by
  induction bs generalizing path depth with
  | nil => simp [pathWord]
  | cons b bs ih =>
    rw [pathWord, ih, pathBit_getLsbD _ _ _ hk]
    rcases Nat.lt_trichotomy k depth with h | rfl | h
    · simp [show ¬ depth + 1 ≤ k by omega, show ¬ depth ≤ k by omega, show k ≠ depth by omega]
    · simp
    · obtain ⟨d, rfl⟩ : ∃ d, k = depth + 1 + d := ⟨k - depth - 1, by omega⟩
      simp [show depth + 1 + d - depth = d + 1 by omega, show depth ≤ depth + 1 + d by omega,
        show depth + 1 + d ≠ depth by omega]

theorem leavesBelow_leaf {nd : Table Node} {fuel i depth : Nat} {path : BitVec 256} (hi : i < 256) :
    leavesBelow nd (fuel + 1) i path depth = [(i, path, depth)] := by
  rw [leavesBelow, if_pos hi]

theorem mem_leavesBelow_internal {nd : Table Node} {fuel i depth : Nat} {path : BitVec 256} {e : LeafAt}
    (hi : 256 ≤ i) :
    e ∈ leavesBelow nd (fuel + 1) i path depth ↔
      (nodeGet nd i).used = true ∧
        ∃ b, e ∈ leavesBelow nd fuel (childSlot nd i b) (pathBit path depth b) (depth + 1) := by
  rw [leavesBelow, if_neg (by omega)]
  split
  · next hu => simp [hu, childSlot, pathBit]
  · next hu => simp [hu]

/-- R150: the traversal reaches exactly the leaves at the end of a path shorter than its fuel, and notes for each its
path and its depth. -/
theorem mem_leavesBelow {nd : Table Node} {fuel i depth : Nat} {path : BitVec 256} {e : LeafAt} :
    e ∈ leavesBelow nd fuel i path depth ↔
      ∃ bs : Bits, bs.length < fuel ∧ PathTo nd i bs e.1 ∧ e.1 < 256 ∧
        e.2 = (pathWord path depth bs, depth + bs.length) := by
  induction fuel generalizing i depth path with
  | zero => simp [leavesBelow]
  | succ fuel ih =>
    by_cases hi : i < 256
    · rw [leavesBelow_leaf hi, List.mem_singleton]
      constructor
      · rintro rfl
        exact ⟨[], by simp, rfl, hi, rfl⟩
      · rintro ⟨bs, -, hp, -, he⟩
        obtain ⟨rfl, hie⟩ := hp.of_leaf hi
        exact Prod.ext hie.symm he
    · rw [mem_leavesBelow_internal (by omega)]
      simp only [ih]
      constructor
      · rintro ⟨hu, b, bs, hlen, hp, hs, he⟩
        exact ⟨b :: bs, by simpa using hlen, ⟨by omega, hu, hp⟩, hs, by rw [he, pathWord, List.length_cons]; grind⟩
      · rintro ⟨bs, hlen, hp, hs, he⟩
        cases bs with
        | nil => exact absurd (show i < 256 from hp ▸ hs) hi
        | cons b bs =>
          obtain ⟨-, hu, hp⟩ := hp
          exact ⟨hu, b, bs, by simpa using hlen, hp, hs, by rw [he, pathWord, List.length_cons]; grind⟩

/-! ### The codebook WALK leaves -/

/-- The record holds exactly this code: its bits in order, and no bit set past them (R32). -/
structure Spells (r : CbRec) (bs : Bits) : Prop where
  valid : r.valid = true
  code : r.code = bs
  padding : ∀ k, r.len.toNat ≤ k → r.bits.getLsbD k = false

theorem Spells.len_eq {r : CbRec} {bs : Bits} (h : Spells r bs) : r.len.toNat = bs.length := by
  rw [← h.code, code_length]

/-- R153: the sentinel is the code "0". -/
theorem sentinel_spells : Spells sentinel [false] := ⟨rfl, rfl, by simp [sentinel]⟩

theorem leafRec_spells (i : Nat) {bs : Bits} (h : bs.length < 256) :
    Spells (leafRec (i, pathWord 0 0 bs, bs.length)) bs := by
  have hlen : (BitVec.ofNat 8 bs.length).toNat = bs.length := Nat.mod_eq_of_lt h
  refine ⟨rfl, List.ext_getElem (by simp [leafRec, hlen]) fun k _ hk => ?_, fun k hk => ?_⟩
  · simp [CbRec.code, leafRec, pathWord_getLsbD _ _ _ (show k < 256 by omega), hk]
  · have hge : bs.length ≤ k := by simpa [leafRec, hlen] using hk
    by_cases hk : k < 256
    · simp [leafRec, pathWord_getLsbD _ _ _ hk, hge]
    · exact BitVec.getLsbD_of_ge _ _ (by omega)

/-- A record after leaves have been written over a codebook: the one of some leaf of that symbol, or the old one when
there is none. -/
theorem cbGet_foldl_leafRec (es : List LeafAt) (cb : Table CbRec) (s : Nat) :
    (∃ e ∈ es, e.1 = s ∧ cbGet (es.foldl (fun cb e => cbPut cb e.1 (leafRec e)) cb) s = leafRec e) ∨
    ((∀ e ∈ es, e.1 ≠ s) ∧ cbGet (es.foldl (fun cb e => cbPut cb e.1 (leafRec e)) cb) s = cbGet cb s) := by
  induction es generalizing cb with
  | nil => simp
  | cons f es ih =>
    rcases ih (cbPut cb f.1 (leafRec f)) with ⟨e, he, hs, h⟩ | ⟨hne, h⟩
    · exact .inl ⟨e, List.mem_cons_of_mem _ he, hs, h⟩
    · rw [cbGet_cbPut] at h
      by_cases hs : f.1 = s
      · exact .inl ⟨f, List.mem_cons_self, hs, h.trans (if_pos hs.symm)⟩
      · exact .inr ⟨List.forall_mem_cons.2 ⟨hs, hne⟩, h.trans (if_neg (Ne.symm hs))⟩

/-- R153, R155: with no root nothing is coded, and a leaf root is coded by the sentinel. -/
theorem cbGet_walkTree_leaf {nd : Table Node} {root : NodeIx} (h : root.toNat < 256) (s : Nat) :
    cbGet (walkTree nd root) s = if s = root.toNat then sentinel else CbRec.invalid := by
  have hne : root ≠ Config.noNode := by rintro rfl; exact absurd h (by decide)
  rw [walkTree, if_neg hne, if_pos h, cbGet_cbPut, cbGet_nil]

/-- R150, R152: under an internal root a symbol's record spells the path to its leaf, and a symbol no such path leads
to has none. -/
theorem cbGet_walkTree_internal {nd : Table Node} {root : NodeIx} (hroot : root ≠ Config.noNode)
    (h : 256 ≤ root.toNat) (s : Nat) :
    (∃ bs : Bits, bs.length < 256 ∧ PathTo nd root.toNat bs s ∧ s < 256 ∧ Spells (cbGet (walkTree nd root) s) bs) ∨
    ((∀ bs : Bits, bs.length < 256 → PathTo nd root.toNat bs s → 256 ≤ s) ∧
      cbGet (walkTree nd root) s = CbRec.invalid) := by
  rw [walkTree, if_neg hroot, if_neg (by omega)]
  rcases cbGet_foldl_leafRec (leavesBelow nd 256 root.toNat 0 0) [] s with ⟨e, he, rfl, hrec⟩ | ⟨hne, hrec⟩
  · obtain ⟨bs, hlen, hp, hs, he2⟩ := mem_leavesBelow.1 he
    refine .inl ⟨bs, hlen, hp, hs, ?_⟩
    rw [hrec, show e = (e.1, pathWord 0 0 bs, bs.length) from Prod.ext rfl (by simpa using he2)]
    exact leafRec_spells _ hlen
  · refine .inr ⟨fun bs hlen hp => ?_, hrec⟩
    by_contra hs
    exact hne (s, _, _) (mem_leavesBelow.2 ⟨bs, hlen, hp, by simpa using hs, rfl⟩) rfl

/-- Whatever NODE and ROOT hold, a symbol WALK gives a code is the root itself, a leaf with the sentinel, or a leaf
whose path from an internal root its record spells. -/
theorem walkTree_valid {nd : Table Node} {root : NodeIx} {s : Nat} (h : (cbGet (walkTree nd root) s).valid = true) :
    (s = root.toNat ∧ s < 256 ∧ Spells (cbGet (walkTree nd root) s) [false]) ∨
    (256 ≤ root.toNat ∧ s < 256 ∧ ∃ bs : Bits, bs.length < 256 ∧ PathTo nd root.toNat bs s ∧
      Spells (cbGet (walkTree nd root) s) bs) := by
  by_cases hroot : root = Config.noNode
  · simp [walkTree, hroot, CbRec.invalid] at h
  by_cases hleaf : root.toNat < 256
  · rw [cbGet_walkTree_leaf hleaf] at h ⊢
    split at h
    · next hs => exact .inl ⟨hs, hs ▸ hleaf, by rw [if_pos hs]; exact sentinel_spells⟩
    · cases h
  · rcases cbGet_walkTree_internal hroot (by omega) s with ⟨bs, hlen, hp, hs, hsp⟩ | ⟨-, hinv⟩
    · exact .inr ⟨by omega, hs, bs, hlen, hp, hsp⟩
    · rw [hinv] at h; cases h

/-- R156: no code WALK gives begins another symbol's: the longer path would go on from a leaf. -/
theorem walkTree_prefixFree {nd : Table Node} {root : NodeIx} {s t : Nat}
    (hs : (cbGet (walkTree nd root) s).valid = true) (ht : (cbGet (walkTree nd root) t).valid = true) (hne : s ≠ t) :
    ¬ (cbGet (walkTree nd root) s).code <+: (cbGet (walkTree nd root) t).code := by
  intro hpre
  rcases walkTree_valid hs with ⟨hs, hlt, -⟩ | ⟨hroot, hlt, bs, -, hp, hsp⟩ <;>
    rcases walkTree_valid ht with ⟨ht, htlt, -⟩ | ⟨_, _, cs, -, hq, htp⟩
  · exact hne (hs.trans ht.symm)
  · omega
  · omega
  · rw [hsp.code, htp.code] at hpre
    exact hne (hp.leaf_eq_of_prefix hq hlt hpre)

/-- R156: a code WALK gives has 1 to 255 bits. -/
theorem walkTree_len {nd : Table Node} {root : NodeIx} {s : Nat} (h : (cbGet (walkTree nd root) s).valid = true) :
    1 ≤ (cbGet (walkTree nd root) s).len.toNat ∧ (cbGet (walkTree nd root) s).len.toNat ≤ 255 := by
  refine ⟨?_, Nat.le_of_lt_succ (BitVec.isLt _)⟩
  rcases walkTree_valid h with ⟨-, -, hsp⟩ | ⟨hroot, hlt, bs, -, hp, hsp⟩
  · rw [hsp.len_eq]; simp
  · rw [hsp.len_eq]
    refine List.length_pos_of_ne_nil ?_
    rintro rfl
    exact absurd (show root.toNat = s from hp) (by omega)

theorem execWalk_eq {s t : State} (h : exec .walk s = .next t) :
    t = (walkStage s).complete (walkFailure s.root) :=
  (Host.Outcome.next.inj h).symm

/-- Settles O38: the codes are paths to different leaves of the arena, and no path goes on from a leaf. -/
theorem compiledCodesArePrefixFree : Obligations.CompiledCodesArePrefixFree := by
  intro s t _ h
  obtain rfl := execWalk_eq h
  simp only [complete_cb, walkStage_cb]
  exact ⟨fun i j _ _ hi hj => walkTree_prefixFree hi hj, fun i _ hi => walkTree_len hi⟩

end Sys2Proof.Proofs
end

section
/-! WALK of a tree (10_state R36) leaves a codebook (R37): every leaf is reached by a path of at most 255 bits, since
slot numbers fall along it. -/

namespace Sys2Proof.Proofs

open Sys2Proof.Machine Sys2Proof.Laws Sys2Proof.Safety

theorem reach_childSlot {nd : Table Node} {r i : Nat} (h : Reach nd r i) (hi : 256 ≤ i) (b : Bool) :
    Reach nd r (childSlot nd i b) := by
  cases b with
  | false => exact .left h hi
  | true => exact .right h hi

theorem PathTo.reach {nd : Table Node} {r : Nat} :
    ∀ {i j : Nat} {bs : Bits}, PathTo nd i bs j → Reach nd r i → Reach nd r j
  | _, _, [], rfl, hr => hr
  | _, _, b :: _, ⟨hi, _, h⟩, hr => h.reach (reach_childSlot hr hi b)

section Tree

variable {nd : Table Node} {root : NodeIx}

theorem isTree_root_le (ht : IsTree nd root) : root.toNat ≤ 510 := by
  have hne : root.toNat ≠ 511 := fun h => ht.rootUsed.1 (BitVec.eq_of_toNat_eq h)
  have := root.isLt
  omega

/-- R131: a child's slot is below its parent's. -/
theorem isTree_childSlot_lt (ht : IsTree nd root) {i : Nat} (hi : 256 ≤ i) (hu : (nodeGet nd i).used = true)
    (b : Bool) : childSlot nd i b < i := by
  obtain ⟨-, -, -, hl, hr, -⟩ := ht.fork i hi hu
  cases b with
  | false => exact hl
  | true => exact hr

/-- R133: under an internal root every used slot is at the end of a path, along which the internal slots fall; so the
path has at most as many bits as slots from 256 up to the root. -/
theorem isTree_exists_pathTo (ht : IsTree nd root) (hroot : 256 ≤ root.toNat) {i : Nat}
    (hu : (nodeGet nd i).used = true) :
    ∃ bs : Bits, PathTo nd root.toNat bs i ∧ bs.length + max i 255 ≤ root.toNat := by
  have hstep : ∀ {j : Nat} (b : Bool), Reach nd root.toNat j → 256 ≤ j →
      (∃ bs : Bits, PathTo nd root.toNat bs j ∧ bs.length + max j 255 ≤ root.toNat) →
      ∃ bs : Bits, PathTo nd root.toNat bs (childSlot nd j b) ∧
        bs.length + max (childSlot nd j b) 255 ≤ root.toNat := by
    rintro j b hr hj ⟨bs, hp, hlen⟩
    have hju := (ht.reachable j).2 hr
    have hlt := isTree_childSlot_lt ht hj hju b
    exact ⟨bs ++ [b], pathTo_append.2 ⟨j, hp, hj, hju, rfl⟩, by rw [List.length_append, List.length_singleton]; omega⟩
  have hr := (ht.reachable i).1 hu
  clear hu
  induction hr with
  | root => exact ⟨[], rfl, by simp; omega⟩
  | left hr hj ih => exact hstep false hr hj ih
  | right hr hj ih => exact hstep true hr hj ih

/-- Under an internal root the coded symbols are the tree's leaves. -/
theorem walkTree_valid_iff_used (ht : IsTree nd root) (hroot : 256 ≤ root.toNat) {s : Nat} (hs : s < 256) :
    (cbGet (walkTree nd root) s).valid = true ↔ (nodeGet nd s).used = true := by
  constructor
  · intro h
    rcases walkTree_valid h with ⟨rfl, -, -⟩ | ⟨-, -, bs, -, hp, -⟩
    · exact ht.rootUsed.2
    · exact (ht.reachable s).2 (hp.reach .root)
  · intro hu
    obtain ⟨bs, hp, hlen⟩ := isTree_exists_pathTo ht hroot hu
    have hle := isTree_root_le ht
    rcases cbGet_walkTree_internal ht.rootUsed.1 hroot s with ⟨_, _, _, _, hsp⟩ | ⟨hno, -⟩
    · exact hsp.valid
    · exact absurd (hno bs (by omega) hp) (by omega)

theorem codedSyms_walkTree_length (ht : IsTree nd root) (hroot : 256 ≤ root.toNat) :
    (codedSyms (walkTree nd root)).length = leafCount nd := by
  unfold codedSyms leafCount
  congr 1
  refine List.filter_congr fun s hs => ?_
  rw [Bool.eq_iff_iff]
  exact walkTree_valid_iff_used ht hroot (List.mem_range.1 hs)

/-- A symbol without a code has the invalid record (R37). -/
theorem walkTree_invalid (nd : Table Node) (root : NodeIx) {s : Nat}
    (h : (cbGet (walkTree nd root) s).valid = false) : cbGet (walkTree nd root) s = CbRec.invalid := by
  by_cases hroot : root = Config.noNode
  · simp [walkTree, hroot]
  by_cases hleaf : root.toNat < 256
  · rw [cbGet_walkTree_leaf hleaf] at h ⊢
    split at h
    · cases h
    · next hs => exact if_neg hs
  · rcases cbGet_walkTree_internal hroot (by omega) s with ⟨_, _, _, _, hsp⟩ | ⟨-, hinv⟩
    · rw [hsp.valid] at h; cases h
    · exact hinv

/-- R37: WALK of a tree leaves a codebook. -/
theorem walkTree_isCodebook (ht : IsTree nd root) : IsCodebook (walkTree nd root) where
  someCode := by
    by_cases hleaf : root.toNat < 256
    · exact ⟨root.toNat, hleaf, by rw [cbGet_walkTree_leaf hleaf, if_pos rfl]; rfl⟩
    · obtain ⟨s, hs⟩ := List.exists_mem_of_length_pos ht.someLeaf
      obtain ⟨hs, hu⟩ := List.mem_filter.1 hs
      have hs := List.mem_range.1 hs
      exact ⟨s, hs, (walkTree_valid_iff_used ht (by omega) hs).2 hu⟩
  length s _ hv := (walkTree_len hv).1
  padding s _ hv := by
    rcases walkTree_valid hv with ⟨-, -, hsp⟩ | ⟨-, -, bs, -, -, hsp⟩ <;> exact hsp.padding
  prefixFree s t _ _ hs ht hne := walkTree_prefixFree hs ht hne
  single h1 s _ hv := by
    rcases walkTree_valid hv with ⟨-, -, hsp⟩ | ⟨hroot, -⟩
    · exact BitVec.eq_of_toNat_eq hsp.len_eq
    · have := ht.rootLeaf (codedSyms_walkTree_length ht hroot ▸ h1)
      omega
  invalid s hv := walkTree_invalid nd root hv

end Tree

end Sys2Proof.Proofs
end

section
/-! BUILD (41_build R130 to R136) makes a tree (10_state R36): the loop keeps a forest whose roots are LIVE. -/

namespace Sys2Proof.Proofs

open Sys2Proof.Machine Sys2Proof.Laws Sys2Proof.Safety

/-! ### The symbols and the leaves -/

theorem mem_presentSyms {ft : Table Word} {s : Nat} : s ∈ presentSyms ft ↔ s < 256 ∧ ftGet ft s ≠ 0 := by
  simp [presentSyms]

theorem presentSyms_nodup (ft : Table Word) : (presentSyms ft).Nodup := List.nodup_range.filter _

theorem presentSyms_length_le (ft : Table Word) : (presentSyms ft).length ≤ 256 :=
  (List.length_filter_le _ _).trans_eq List.length_range

/-- The arena after leaves of the symbols `syms` have been written. -/
theorem nodeGet_foldl_leafNode (ft : Table Word) (syms : List Nat) (nd : Table Node) (i : Nat) :
    nodeGet (syms.foldl (fun nd s => nodePut nd s (leafNode (ftGet ft s))) nd) i =
      if i ∈ syms then leafNode (ftGet ft i) else nodeGet nd i := by
  induction syms generalizing nd with
  | nil => simp
  | cons s syms ih =>
    simp only [List.foldl_cons, ih, nodeGet_nodePut, List.mem_cons]
    by_cases h : i = s <;> simp [h]

/-- R131: a leaf for every symbol that appears, every other slot unused. -/
theorem nodeGet_leaves (ft : Table Word) (i : Nat) :
    nodeGet (leaves ft) i = if i ∈ presentSyms ft then leafNode (ftGet ft i) else Node.unused :=
  nodeGet_foldl_leafNode ft _ [] i

/-! ### LIVE -/

theorem argmin_mem {nd : Table Node} {live : List Nat} {a : Nat} (h : argmin nd live = some a) : a ∈ live := by
  induction live generalizing a with
  | nil => cases h
  | cons i rest ih =>
    unfold argmin at h
    split at h
    · obtain rfl := Option.some.inj h
      exact List.mem_cons_self
    · next j hj =>
      split at h <;> obtain rfl := Option.some.inj h
      · exact List.mem_cons_self
      · exact List.mem_cons_of_mem _ (ih hj)

theorem argmin_eq_none {nd : Table Node} {live : List Nat} : argmin nd live = none ↔ live = [] := by
  cases live with
  | nil => simp [argmin]
  | cons i rest =>
    unfold argmin
    split
    · simp
    · split <;> simp

@[simp] theorem mem_without {live : List Nat} {i j : Nat} : j ∈ without live i ↔ j ∈ live ∧ j ≠ i := by
  simp [without]

theorem without_nodup {live : List Nat} (h : live.Nodup) (i : Nat) : (without live i).Nodup := h.filter _

theorem without_length {live : List Nat} (h : live.Nodup) {i : Nat} (hi : i ∈ live) :
    (without live i).length + 1 = live.length := by
  have herase : without live i = live.erase i := by
    rw [h.erase_eq_filter]; exact List.filter_congr fun j _ => by rw [Bool.eq_iff_iff]; simp
  rw [herase, List.length_erase_of_mem hi]
  have := List.length_pos_of_mem hi
  omega

/-- LIVE after merge number `k` took `a` and `b` and made slot 256 + k. -/
def mergedLive (live : List Nat) (k a b : Nat) : List Nat := without (without live a) b ++ [256 + k]

/-- The loop stops at once when there are no two live nodes, else it merges two of them. -/
theorem mergeLoop_cases (fuel k : Nat) (nd : Table Node) {live : List Nat} (hnd : live.Nodup) :
    (live.length ≤ 1 ∧ mergeLoop (fuel + 1) k nd live = (nd, live)) ∨
    ∃ a b, argmin nd live = some a ∧ argmin nd (without live a) = some b ∧
      mergeLoop (fuel + 1) k nd live = mergeLoop fuel (k + 1) (nodePut nd (256 + k) (mergeNode nd a b))
        (mergedLive live k a b) := by
  rw [mergeLoop]
  split
  · next ha => exact .inl ⟨by simp [argmin_eq_none.1 ha], rfl⟩
  · next a ha =>
    split
    · next hb =>
      have hlen := without_length hnd (argmin_mem ha)
      rw [argmin_eq_none.1 hb] at hlen
      exact .inl ⟨by simpa using hlen.ge, rfl⟩
    · next b hb =>
      exact .inr ⟨a, b, ha, hb, rfl⟩

/-! ### The forest -/

/-- R36: a used internal slot is the parent of two different used slots below it, whose frequencies it adds. -/
def ForkOk (nd : Table Node) (i : Nat) : Prop :=
  (nodeGet nd i).left ≠ (nodeGet nd i).right ∧
  (nodeGet nd (nodeGet nd i).left.toNat).used = true ∧ (nodeGet nd (nodeGet nd i).right.toNat).used = true ∧
  (nodeGet nd i).left.toNat < i ∧ (nodeGet nd i).right.toNat < i ∧
  (nodeGet nd i).freq = (nodeGet nd (nodeGet nd i).left.toNat).freq + (nodeGet nd (nodeGet nd i).right.toNat).freq

/-- The loop of R130 on a table after `k` merges: LIVE are the roots of a forest over the leaves of the symbols that
appear and the slots 256 to 255 + k. -/
structure Forest (ft : Table Word) (k : Nat) (nd : Table Node) (live : List Nat) : Prop where
  nodup : live.Nodup
  size : live.length + k = (presentSyms ft).length
  unused : ∀ i, (nodeGet nd i).used = false → nodeGet nd i = Node.unused
  leaf : ∀ i, i < 256 → nodeGet nd i = nodeGet (leaves ft) i
  internal : ∀ i, 256 ≤ i → ((nodeGet nd i).used = true ↔ i < 256 + k)
  fork : ∀ i, 256 ≤ i → (nodeGet nd i).used = true → ForkOk nd i
  root : ∀ j ∈ live, (nodeGet nd j).used = true ∧ ∀ i, ¬ ParentOf nd i j
  oneParent : ∀ j, (nodeGet nd j).used = true → j ∉ live → ∃! i, ParentOf nd i j

theorem leaves_used {ft : Table Word} {i : Nat} : (nodeGet (leaves ft) i).used = true ↔ i ∈ presentSyms ft := by
  rw [nodeGet_leaves]
  split <;> simp_all [leafNode, Node.unused]

/-- R131: before the first merge LIVE are the leaves. -/
theorem forest_leaves (ft : Table Word) : Forest ft 0 (leaves ft) (presentSyms ft) := by
  have hlt : ∀ i, (nodeGet (leaves ft) i).used = true → i < 256 := fun i h => (mem_presentSyms.1 (leaves_used.1 h)).1
  exact {
    nodup := presentSyms_nodup ft
    size := rfl
    unused := fun i h => by
      rw [nodeGet_leaves, if_neg fun hi => by rw [leaves_used.2 hi] at h; cases h]
    leaf := fun _ _ => rfl
    internal := fun i hi => iff_of_false (fun h => absurd (hlt i h) (by omega)) (by omega)
    fork := fun i hi h => absurd (hlt i h) (by omega)
    root := fun j hj => ⟨leaves_used.2 hj, fun i ⟨hi, hu, _⟩ => absurd (hlt i hu) (by omega)⟩
    oneParent := fun j hu hj => absurd (leaves_used.1 hu) hj }

section Merge

variable {ft : Table Word} {k a b : Nat} {nd : Table Node} {live : List Nat}

/-- Every used slot is a leaf or a slot of an earlier merge. -/
theorem Forest.used_lt (hf : Forest ft k nd live) {i : Nat} (hu : (nodeGet nd i).used = true) : i < 256 + k := by
  by_cases hi : i < 256
  · omega
  · exact (hf.internal i (by omega)).1 hu

/-- A child is a used slot below its parent. -/
theorem Forest.child (hf : Forest ft k nd live) {i j : Nat} (h : ParentOf nd i j) :
    (nodeGet nd j).used = true ∧ j < i := by
  obtain ⟨hi, hu, hj⟩ := h
  obtain ⟨-, hlu, hru, hl, hr, -⟩ := hf.fork i hi hu
  rcases hj with rfl | rfl
  · exact ⟨hlu, hl⟩
  · exact ⟨hru, hr⟩

theorem forkOk_merge {n : Nat} (hua : (nodeGet nd a).used = true) (hub : (nodeGet nd b).used = true) (hne : a ≠ b)
    (ha : a < n) (hb : b < n) (hn : n ≤ 511) : ForkOk (nodePut nd n (mergeNode nd a b)) n := by
  have hia : (BitVec.ofNat 9 a).toNat = a := Nat.mod_eq_of_lt (by omega)
  have hib : (BitVec.ofNat 9 b).toNat = b := Nat.mod_eq_of_lt (by omega)
  have hix : BitVec.ofNat 9 a ≠ BitVec.ofNat 9 b := fun h => hne (by rw [← hia, ← hib, h])
  simp [ForkOk, mergeNode, hia, hib, hix, ha.ne, hb.ne, hua, hub, ha, hb]

/-- A write of an unused slot leaves the other forks as they are. -/
theorem forkOk_nodePut {n i : Nat} {r : Node} (h : ForkOk nd i) (hi : i ≠ n) (hfree : (nodeGet nd n).used = false) :
    ForkOk (nodePut nd n r) i := by
  obtain ⟨hne, hl, hr, h⟩ := h
  have hused : ∀ {j}, (nodeGet nd j).used = true → j ≠ n := by
    rintro j hj rfl; rw [hfree] at hj; cases hj
  simp only [ForkOk, nodeGet_nodePut, if_neg hi, if_neg (hused hl), if_neg (hused hr)]
  exact ⟨hne, hl, hr, h⟩

/-- The parents after a merge into slot `n`: those before it, and `n`. -/
theorem parentOf_merge {n : Nat} (hn : 256 ≤ n) (hfree : (nodeGet nd n).used = false) (ha : a < 512) (hb : b < 512)
    {i j : Nat} :
    ParentOf (nodePut nd n (mergeNode nd a b)) i j ↔ ParentOf nd i j ∨ (i = n ∧ (a = j ∨ b = j)) := by
  unfold ParentOf
  rw [nodeGet_nodePut]
  by_cases h : i = n
  · subst h
    simp [hfree, hn, mergeNode, Nat.mod_eq_of_lt ha, Nat.mod_eq_of_lt hb]
  · simp [h]

theorem used_merge {n i : Nat} :
    (nodeGet (nodePut nd n (mergeNode nd a b)) i).used = true ↔ (nodeGet nd i).used = true ∨ i = n := by
  rw [nodeGet_nodePut]
  by_cases h : i = n <;> simp [h, mergeNode]

theorem mem_mergedLive {j : Nat} : j ∈ mergedLive live k a b ↔ (j ∈ live ∧ j ≠ a ∧ j ≠ b) ∨ j = 256 + k := by
  simp [mergedLive, and_assoc]

/-- The next slot is free. -/
theorem Forest.next_unused (hf : Forest ft k nd live) : (nodeGet nd (256 + k)).used = false := by
  by_contra h
  exact absurd (hf.used_lt (Bool.not_eq_false _ ▸ h)) (by omega)

theorem Forest.live_lt (hf : Forest ft k nd live) {j : Nat} (hj : j ∈ live) : j < 256 + k :=
  hf.used_lt (hf.root j hj).1

section OneMerge

variable (hf : Forest ft k nd live) (ha : a ∈ live) (hb : b ∈ live) (hne : b ≠ a)

include hf ha hb hne

/-- Two nodes are live, so the arena has room for one more (R131). -/
theorem Forest.room : k ≤ 254 := by
  have hsize := hf.size
  have hle := presentSyms_length_le ft
  have h2 : 2 ≤ live.length := by
    have hsub : [a, b] ⊆ live := by simp [ha, hb]
    exact (List.nodup_cons.2 ⟨by simpa using hne.symm, List.nodup_singleton b⟩).subperm hsub |>.length_le
  omega

theorem Forest.parentOf_merge {i j : Nat} :
    ParentOf (nodePut nd (256 + k) (mergeNode nd a b)) i j ↔ ParentOf nd i j ∨ (i = 256 + k ∧ (a = j ∨ b = j)) := by
  have hk := hf.room ha hb hne
  have hla := hf.live_lt ha
  have hlb := hf.live_lt hb
  exact Proofs.parentOf_merge (by omega) hf.next_unused (by omega) (by omega)

theorem Forest.merge_live : (mergedLive live k a b).Nodup ∧ (mergedLive live k a b).length + 1 = live.length := by
  constructor
  · refine List.nodup_append.2 ⟨without_nodup (without_nodup hf.nodup a) b, List.nodup_singleton _, fun j hj n hn => ?_⟩
    rw [List.mem_singleton.1 hn]
    exact (hf.live_lt (mem_without.1 (mem_without.1 hj).1).1).ne
  · have hla := without_length hf.nodup ha
    have hlb := without_length (without_nodup hf.nodup a) (mem_without.2 ⟨hb, hne⟩)
    rw [mergedLive, List.length_append, List.length_singleton]
    omega

theorem Forest.merge_fork {i : Nat} (hi : 256 ≤ i)
    (hu : (nodeGet (nodePut nd (256 + k) (mergeNode nd a b)) i).used = true) :
    ForkOk (nodePut nd (256 + k) (mergeNode nd a b)) i := by
  have hk := hf.room ha hb hne
  by_cases hin : i = 256 + k
  · rw [hin]
    exact forkOk_merge (hf.root a ha).1 (hf.root b hb).1 hne.symm (hf.live_lt ha) (hf.live_lt hb) (by omega)
  · exact forkOk_nodePut (hf.fork i hi ((used_merge.1 hu).resolve_right hin)) hin hf.next_unused

/-- The new node is no one's child, and the nodes still live are not children of the new one. -/
theorem Forest.merge_root {j : Nat} (hj : j ∈ mergedLive live k a b) (i : Nat) :
    ¬ ParentOf (nodePut nd (256 + k) (mergeNode nd a b)) i j := by
  rw [hf.parentOf_merge ha hb hne]
  rintro (h | ⟨-, hab⟩)
  · rcases mem_mergedLive.1 hj with ⟨hj, -, -⟩ | rfl
    · exact (hf.root j hj).2 i h
    · exact absurd (hf.used_lt (hf.child h).1) (by omega)
  · rcases mem_mergedLive.1 hj with ⟨-, hja, hjb⟩ | rfl
    · exact hab.elim (hja ·.symm) (hjb ·.symm)
    · have hla := hf.live_lt ha
      have hlb := hf.live_lt hb
      omega

/-- The two extracted nodes get the new one as their parent, every other node keeps its own. -/
theorem Forest.merge_oneParent {j : Nat} (hu : (nodeGet nd j).used = true) (hj : j ∈ live → a = j ∨ b = j) :
    ∃! i, ParentOf (nodePut nd (256 + k) (mergeNode nd a b)) i j := by
  simp only [hf.parentOf_merge ha hb hne]
  by_cases hl : j ∈ live
  · exact ⟨256 + k, .inr ⟨rfl, hj hl⟩, fun i h => (h.resolve_left ((hf.root j hl).2 i)).1⟩
  · obtain ⟨p, hp, huniq⟩ := hf.oneParent j hu hl
    refine ⟨p, .inl hp, fun i h => huniq i (h.resolve_right ?_)⟩
    rintro ⟨-, rfl | rfl⟩
    · exact hl ha
    · exact hl hb

/-- R130: a merge of two live nodes keeps the forest. -/
theorem Forest.merge : Forest ft (k + 1) (nodePut nd (256 + k) (mergeNode nd a b)) (mergedLive live k a b) := by
  obtain ⟨hnodup, hlen⟩ := hf.merge_live ha hb hne
  have hold : ∀ {i}, i ≠ 256 + k → nodeGet (nodePut nd (256 + k) (mergeNode nd a b)) i = nodeGet nd i :=
    fun h => by rw [nodeGet_nodePut, if_neg h]
  have hsize := hf.size
  exact {
    nodup := hnodup
    size := by omega
    unused := fun i h => by
      have hi : i ≠ 256 + k := fun hi => by rw [used_merge.2 (.inr hi)] at h; cases h
      rw [hold hi] at h ⊢
      exact hf.unused i h
    leaf := fun i hi => by rw [hold (by omega), hf.leaf i hi]
    internal := fun i hi => by rw [used_merge, hf.internal i hi]; omega
    fork := fun i hi hu => hf.merge_fork ha hb hne hi hu
    root := fun j hj => by
      refine ⟨used_merge.2 ?_, hf.merge_root ha hb hne hj⟩
      exact (mem_mergedLive.1 hj).imp_left fun ⟨hj, _⟩ => (hf.root j hj).1
    oneParent := fun j hu hj => by
      rw [mem_mergedLive, not_or] at hj
      refine hf.merge_oneParent ha hb hne ((used_merge.1 hu).resolve_right hj.2) fun hl => ?_
      by_contra hab
      exact hj.1 ⟨hl, fun h => hab (.inl h.symm), fun h => hab (.inr h.symm)⟩ }

end OneMerge

/-- R130, R131: with enough turns the loop ends with one live node. -/
theorem mergeLoop_forest (hpos : live ≠ []) {fuel : Nat} (hfuel : live.length ≤ fuel)
    (hf : Forest ft k nd live) :
    ∃ k' r, (mergeLoop fuel k nd live).2 = [r] ∧ Forest ft k' (mergeLoop fuel k nd live).1 [r] := by
  induction fuel generalizing k nd live with
  | zero => exact absurd (List.length_eq_zero_iff.1 (Nat.le_zero.1 hfuel)) hpos
  | succ fuel ih =>
    rcases mergeLoop_cases fuel k nd hf.nodup with ⟨h1, hstop⟩ | ⟨a, b, ha, hb, hnext⟩
    · obtain ⟨r, rfl⟩ := List.length_eq_one_iff.1 (show live.length = 1 by have := List.length_pos_iff.2 hpos; omega)
      rw [hstop]
      exact ⟨k, r, rfl, hf⟩
    · obtain ⟨hbl, hne⟩ := mem_without.1 (argmin_mem hb)
      have hmerge := hf.merge (argmin_mem ha) hbl hne
      rw [hnext]
      have hsize := hf.size
      have hsize' := hmerge.size
      exact ih (by simp [mergedLive]) (by omega) hmerge

theorem Forest.leafCount_eq (hf : Forest ft k nd live) : leafCount nd = (presentSyms ft).length := by
  refine ((List.perm_ext_iff_of_nodup (List.nodup_range.filter _) (presentSyms_nodup ft)).2 fun i => ?_).length_eq
  rw [List.mem_filter, List.mem_range]
  constructor
  · rintro ⟨hi, hu⟩
    exact leaves_used.1 (hf.leaf i hi ▸ hu)
  · intro hi
    have hlt := (mem_presentSyms.1 hi).1
    exact ⟨hlt, hf.leaf i hlt ▸ leaves_used.2 hi⟩

section OneRoot

variable {r : Nat} (hf : Forest ft k nd [r])

include hf

/-- With one live node every used slot is under it: its chain of parents rises and can end nowhere else. -/
theorem Forest.reach (i : Nat) (hu : (nodeGet nd i).used = true) : Reach nd r i := by
  by_cases hi : i = r
  · exact hi ▸ .root
  · obtain ⟨p, hp, -⟩ := hf.oneParent i hu (by simpa using hi)
    have hgt := (hf.child hp).2
    have hlt := hf.used_lt hu
    have hr := Forest.reach p hp.2.1
    obtain ⟨hp256, -, rfl | rfl⟩ := hp
    · exact .left hr hp256
    · exact .right hr hp256
termination_by 256 + k - i

theorem Forest.used_of_reach {i : Nat} (h : Reach nd r i) : (nodeGet nd i).used = true := by
  induction h with
  | root => exact (hf.root r (by simp)).1
  | left _ hi ih => exact (hf.fork _ hi ih).2.1
  | right _ hi ih => exact (hf.fork _ hi ih).2.2.1

/-- R131: the one live node is the last one made. -/
theorem Forest.root_eq (hk : k ≠ 0) : r = 255 + k := by
  have hu : (nodeGet nd (255 + k)).used = true := (hf.internal _ (by omega)).2 (by omega)
  by_contra hne
  obtain ⟨p, hp, -⟩ := hf.oneParent (255 + k) hu (by simpa using Ne.symm hne)
  have hgt := (hf.child hp).2
  have hlt := hf.used_lt hp.2.1
  omega

/-- R36: a forest with one root is a tree over its symbols. -/
theorem Forest.isTree : IsTree nd (BitVec.ofNat 9 r) := by
  have hru := (hf.root r (by simp)).1
  have hr := hf.used_lt hru
  have hleaves := hf.leafCount_eq
  have hsize : 1 + k = (presentSyms ft).length := hf.size
  have hle := presentSyms_length_le ft
  have hrn : (BitVec.ofNat 9 r).toNat = r := Nat.mod_eq_of_lt (by omega)
  refine {
    someLeaf := by omega
    rootUsed := ⟨fun h => ?_, by rwa [hrn]⟩
    rootLeaf := fun h1 => ?_
    rootInternal := fun h2 => ?_
    internal := fun i hi => by rw [hf.internal i hi]; omega
    reachable := fun i => ?_
    leaf := fun i hi _ => by rw [hf.leaf i hi, nodeGet_leaves]; split <;> exact ⟨rfl, rfl⟩
    fork := hf.fork
    oneParent := fun j hu hj => hf.oneParent j hu (by simpa [hrn] using hj) }
  · have : (BitVec.ofNat 9 r).toNat = 511 := by rw [h]; rfl
    omega
  · by_contra h
    have := (hf.internal r (by omega)).1 hru
    omega
  · have := hf.root_eq (by omega)
    omega
  · rw [hrn]
    exact ⟨hf.reach i, hf.used_of_reach⟩

end OneRoot

end Merge

/-- R130: when some symbol appears, BUILD ends with a forest of one root. -/
theorem buildTree_forest {ft : Table Word} (h : presentSyms ft ≠ []) :
    ∃ k r, (buildTree ft).2 = BitVec.ofNat 9 r ∧ Forest ft k (buildTree ft).1 [r] := by
  obtain ⟨k, r, hlive, hf⟩ := mergeLoop_forest h le_rfl (forest_leaves ft)
  exact ⟨k, r, by rw [buildTree, hlive, rootOf], hf⟩

/-- R36, R130: when some symbol appears, BUILD makes a tree. -/
theorem buildTree_isTree {ft : Table Word} (h : presentSyms ft ≠ []) : IsTree (buildTree ft).1 (buildTree ft).2 := by
  obtain ⟨k, r, hroot, hf⟩ := buildTree_forest h
  exact hroot ▸ hf.isTree

end Sys2Proof.Proofs
end

section
/-! COUNT and COMPILE (40_count R120, 42_walk_compile R151): COMPILE of a non-empty input does not fail and leaves a
codebook. -/

namespace Sys2Proof.Proofs

open Sys2Proof.Machine Sys2Proof.Laws Sys2Proof.Safety

theorem ftGet_foldl_count (data : List Byte) (ft : Table Word) (s : Nat) :
    ftGet (data.foldl (fun ft b => ftPut ft b.toNat (ftGet ft b.toNat + 1)) ft) s =
      ftGet ft s + BitVec.ofNat 32 (data.countP fun b => b.toNat = s) := by
  induction data generalizing ft with
  | nil => simp
  | cons b data ih =>
    rw [List.foldl_cons, ih, ftGet_ftPut, List.countP_cons]
    by_cases h : b.toNat = s
    · simp [h, BitVec.ofNat_add, add_assoc, add_comm (1#32)]
    · simp [h, Ne.symm h]

/-- R121: a counter is the number of times its symbol occurs. -/
theorem ftGet_countBytes (data : List Byte) (s : Nat) :
    ftGet (countBytes data) s = BitVec.ofNat 32 (data.countP fun b => b.toNat = s) := by
  rw [countBytes, ftGet_foldl_count, ftGet_nil, zero_add]

/-- The first symbol of a non-empty input appears: its counter is not 0 and does not wrap. -/
theorem presentSyms_countBytes_ne_nil {data : List Byte} (hpos : data ≠ []) (hlt : data.length < 2 ^ 32) :
    presentSyms (countBytes data) ≠ [] := by
  obtain ⟨b, rest, rfl⟩ := List.exists_cons_of_ne_nil hpos
  refine List.ne_nil_of_mem (mem_presentSyms.2 ⟨b.isLt, fun h0 => ?_⟩)
  have hle := List.countP_le_length (p := fun c : Byte => c.toNat = b.toNat) (l := b :: rest)
  have hcount : ((b :: rest).countP fun c : Byte => c.toNat = b.toNat) % 2 ^ 32 = 0 := by
    rw [← BitVec.toNat_ofNat, ← ftGet_countBytes, h0]; rfl
  rw [Nat.mod_eq_of_lt (by omega), List.countP_cons_of_pos (by simp)] at hcount
  omega

theorem execCompile_eq {s t : State} (hlen : s.ilen.toNat ≤ s.params.ibufSize) (h : exec .compile s = .next t) :
    t = (walkStage (buildStage (countStage s))).complete
      (firstFailure (buildFailure (countBytes s.input)) (walkFailure (buildTree (countBytes s.input)).2)) := by
  have hbad := (lengthBad_eq_false s).2 hlen
  simp only [exec, execCompile, hbad] at h
  exact (Host.Outcome.next.inj h).symm

/-- R151: COMPILE of a non-empty input that fits IBUF does not fail, changes no size, input or buffer, and leaves a
codebook. -/
theorem execCompile_codebook {s t : State} (hpos : 1 ≤ s.ilen.toNat) (hlen : s.ilen.toNat ≤ s.params.ibufSize)
    (h : exec .compile s = .next t) :
    t.status = okStatus ∧ IsCodebook t.cb ∧ t.params = s.params ∧ t.ilen = s.ilen ∧
      ∀ a, t.ibufByte a = s.ibufByte a := by
  have hsyms : presentSyms (countBytes s.input) ≠ [] := by
    refine presentSyms_countBytes_ne_nil (List.ne_nil_of_length_pos ?_) ?_ <;> rw [input_length]
    · exact hpos
    · exact s.ilen.isLt
  have htree := buildTree_isTree hsyms
  obtain rfl := execCompile_eq hlen h
  refine ⟨?_, walkTree_isCodebook htree, rfl, rfl, fun a => ibufByte_congr rfl rfl a⟩
  rw [complete_status, buildFailure, if_neg hsyms, walkFailure, if_neg htree.rootUsed.1]
  rfl

end Sys2Proof.Proofs
end

section
/-! The reading of a container (44_decode R191 phase A, R202): a header and a payload laid out as 30_encoding R100
says are found again, whatever the codes are. -/

namespace Sys2Proof.Proofs

open Sys2Proof.Machine Sys2Proof.Laws Sys2Proof.Safety

/-! ### One entry -/

/-- R191: what phase A keeps of an entry. -/
def wireToEntry (e : WireEntry) : Entry := { sym := e.sym, code := e.bits }

/-- The scratch after one more entry. -/
def readEntry (sc : Scan) (e : WireEntry) : Scan where
  left := sc.left - 1
  p := sc.p + e.bytes.length
  sym := e.sym
  ents := sc.ents ++ [wireToEntry e]

@[simp] theorem readEntry_p (sc : Scan) (e : WireEntry) : (readEntry sc e).p = sc.p + e.bytes.length := rfl
@[simp] theorem readEntry_ents (sc : Scan) (e : WireEntry) :
    (readEntry sc e).ents = sc.ents ++ [wireToEntry e] := rfl

theorem getD_append_cons (pre rest : List Byte) (b : Byte) : (pre ++ b :: rest).getD pre.length 0 = b := by
  simp [List.getD_eq_getElem?_getD]

/-- R194: the code bits of an entry whose CODE bytes are all there. -/
theorem fits_unpack {e : WireEntry} (he : e.Fits) (rest : List Byte) : unpack (e.code ++ rest) e.len.toNat = e.bits :=
  unpack_append _ _ (by rw [he, ceilDiv8]; omega)

theorem scanSym_entry {pre rest : List Byte} {e : WireEntry} {sc : Scan} (hp : sc.p = pre.length) :
    scanSym (pre ++ e.bytes ++ rest) ((pre ++ e.bytes ++ rest).getD sc.p 0) sc =
      .ok { sc with sym := e.sym, p := sc.p + 1 } := by
  have hc : pre ++ e.bytes ++ rest = pre ++ e.sym :: (e.len :: e.code ++ rest) := by simp [WireEntry.bytes]
  rw [hc, hp, getD_append_cons, scanSym, if_neg (by simp [hp]), hp]

theorem scanLen_entry {pre rest : List Byte} {e : WireEntry} {sc : Scan} (he : e.Fits) (hp : sc.p = pre.length) :
    scanLen (pre ++ e.bytes ++ rest) ((pre ++ e.bytes ++ rest).getD (sc.p + 1) 0)
      { sc with sym := e.sym, p := sc.p + 1 } = .ok (readEntry sc e) := by
  have hc : pre ++ e.bytes ++ rest = (pre ++ [e.sym]) ++ e.len :: (e.code ++ rest) := by simp [WireEntry.bytes]
  have hp1 : sc.p + 1 = (pre ++ [e.sym]).length := by simp [hp]
  have hceil : ceilDiv8 e.len.toNat = e.code.length := Eq.symm he
  have hdrop : (pre ++ [e.sym] ++ e.len :: (e.code ++ rest)).drop ((pre ++ [e.sym]).length + 1) = e.code ++ rest := by
    rw [List.drop_length_add_append]; rfl
  have hend : (pre ++ [e.sym]).length + 1 + e.code.length = sc.p + e.bytes.length := by
    simp [WireEntry.bytes, hp]; omega
  have hroom : ¬ (pre ++ [e.sym] ++ e.len :: (e.code ++ rest)).length < sc.p + e.bytes.length := by
    simp [WireEntry.bytes, hp]
  simp only [hc, hp1, getD_append_cons, scanLen, hceil, hend, if_neg hroom, hdrop, fits_unpack he]
  rfl

/-- R191 phase A: the loop over entries that are all there takes them in order. -/
theorem scanEntries_wire {es : List WireEntry} (hes : ∀ e ∈ es, e.Fits) {pre : List Byte} (rest : List Byte)
    {sc : Scan} (hp : sc.p = pre.length) :
    scanEntries (pre ++ es.flatMap WireEntry.bytes ++ rest) es.length sc = .ok (es.foldl readEntry sc) := by
  induction es generalizing pre sc with
  | nil => rfl
  | cons e es ih =>
    obtain ⟨he, hes⟩ := List.forall_mem_cons.1 hes
    have hc : pre ++ (e :: es).flatMap WireEntry.bytes ++ rest =
        pre ++ e.bytes ++ (es.flatMap WireEntry.bytes ++ rest) := by simp
    rw [List.length_cons, scanEntries, hc, scanSym_entry hp]
    simp only [scanLen_entry he hp]
    rw [← List.append_assoc, List.foldl_cons]
    exact ih hes (by simp [readEntry, hp])

/-! ### The header -/

theorem foldl_readEntry_p (es : List WireEntry) (sc : Scan) :
    (es.foldl readEntry sc).p = sc.p + (es.flatMap WireEntry.bytes).length := by
  induction es generalizing sc with
  | nil => rfl
  | cons e es ih => rw [List.foldl_cons, ih, readEntry_p, List.flatMap_cons, List.length_append, Nat.add_assoc]

theorem foldl_readEntry_ents (es : List WireEntry) (sc : Scan) :
    (es.foldl readEntry sc).ents = sc.ents ++ es.map wireToEntry := by
  induction es generalizing sc with
  | nil => simp
  | cons e es ih => simp [ih]

/-- The scratch after the header of these entries. -/
def headerScan (es : List WireEntry) : Scan := es.foldl readEntry (scanCount (BitVec.ofNat 8 (es.length - 1)))

@[simp] theorem headerScan_p (es : List WireEntry) : (headerScan es).p = (wireHeader es).length := by
  rw [headerScan, foldl_readEntry_p, wireHeader, List.length_cons, Nat.add_comm]
  rfl

@[simp] theorem headerScan_ents (es : List WireEntry) : (headerScan es).ents = es.map wireToEntry := by
  rw [headerScan, foldl_readEntry_ents]
  rfl

/-- R101, R192: COUNT + 1 is the number of entries. -/
theorem countByte_add_one {es : List WireEntry} (h : WireOk es) :
    (BitVec.ofNat 8 (es.length - 1)).toNat + 1 = es.length := by
  obtain ⟨h1, h256, -⟩ := h
  rw [BitVec.toNat_ofNat, Nat.mod_eq_of_lt (by omega)]
  omega

/-- R191 phase A: a header is read as it was laid out, whatever follows. -/
theorem parseHeader_wire {es : List WireEntry} (h : WireOk es) (rest : List Byte) :
    parseHeader (wireHeader es ++ rest) = .ok (headerScan es) := by
  have ⟨_, _, hfits⟩ := h
  have hscan := scanEntries_wire hfits (pre := [BitVec.ofNat 8 (es.length - 1)]) rest
    (sc := scanCount (BitVec.ofNat 8 (es.length - 1))) rfl
  rw [wireHeader, List.cons_append, parseHeader, countByte_add_one h]
  exact hscan

/-! ### The container -/

/-- R191, R193: the last byte of a whole container is judged as its PAD, after its header. -/
theorem decodeContainer_wire {es : List WireEntry} (h : WireOk es) (payload : List Byte) (pad : Byte) :
    decodeContainer (wireContainer es payload pad) =
      closeContainer (wireContainer es payload pad) (headerScan es) pad := by
  have hparse : parseHeader (wireContainer es payload pad) = .ok (headerScan es) := by
    rw [wireContainer, List.append_assoc]; exact parseHeader_wire h _
  have hlast : (wireContainer es payload pad).getD ((wireContainer es payload pad).length - 1) 0 = pad := by
    simp [wireContainer]
  have hroom : ¬ (wireContainer es payload pad).length < (headerScan es).p + 1 := by simp [wireContainer]
  rw [decodeContainer, hparse]
  simp only [hlast, if_neg hroom]

/-- R203. -/
theorem padBad_eq_false {payload : List Byte} {pad : Byte} :
    padBad payload.length pad.toNat = false ↔ PadOk payload pad := by
  simp [padBad, PadOk, ← BitVec.toNat_inj]

/-- R191 phases B to D: with a trie and an acceptable PAD the usable payload bits are emitted. -/
theorem closeContainer_wire {es : List WireEntry} {payload : List Byte} {pad : Byte} {t : Trie}
    (ht : buildTrie (es.map wireToEntry) = .ok t) (hpad : PadOk payload pad) :
    closeContainer (wireContainer es payload pad) (headerScan es) pad =
      emit (es.map wireToEntry) t (usableBits payload pad) := by
  have hdrop : (wireContainer es payload pad).drop (wireHeader es).length = payload ++ [pad] := by
    simp [wireContainer]
  have hsize : (wireContainer es payload pad).length - (wireHeader es).length - 1 = payload.length := by
    simp [wireContainer]
  simp only [closeContainer, headerScan_ents, ht, headerScan_p, hsize, padBad_eq_false.2 hpad, hdrop]
  rw [if_neg (by simp), unpack_append _ _ (by omega), usableBits]

end Sys2Proof.Proofs
end

section
/-! The trie (44_decode R195 to R205): codes of which none begins another are inserted without a conflict, and a
payload made of those codes is read back symbol by symbol. -/

namespace Sys2Proof.Proofs

open Sys2Proof.Machine Sys2Proof.Laws Sys2Proof.Safety

/-! ### Nodes -/

/-- The node a bit sequence leads to, an absent child being `empty`. -/
def trieAt : Trie → Bits → Trie
  | t, [] => t
  | t, b :: bs => trieAt (t.child b) bs

@[simp] theorem trieAt_cons (t : Trie) (b : Bool) (bs : Bits) : trieAt t (b :: bs) = trieAt (t.child b) bs := rfl

@[simp] theorem trieAt_empty (bs : Bits) : trieAt .empty bs = .empty := by
  induction bs with
  | nil => rfl
  | cons b bs ih => exact ih

theorem trieAt_append (t : Trie) (bs cs : Bits) : trieAt t (bs ++ cs) = trieAt (trieAt t bs) cs := by
  induction bs generalizing t with
  | nil => rfl
  | cons b bs ih => exact ih (t.child b)

/-- A leaf has no nodes under it. -/
theorem trieAt_leaf (s : Byte) {bs : Bits} (h : bs ≠ []) : trieAt (.leaf s) bs = .empty := by
  obtain ⟨b, bs, rfl⟩ := List.exists_cons_of_ne_nil h
  exact trieAt_empty bs

/-! ### Insertion -/

/-- A node that is no leaf with one child replaced. -/
def withChild (t : Trie) (b : Bool) (x : Trie) : Trie :=
  match b with
  | false => .fork x (t.child true)
  | true => .fork (t.child false) x

theorem child_withChild (t : Trie) (b c : Bool) (x : Trie) :
    (withChild t b x).child c = if c = b then x else t.child c := by
  cases b <;> cases c <;> rfl

/-- R196: a code goes into the child its first bit names. -/
theorem insert_cons {t : Trie} (h : ∀ s, t ≠ .leaf s) (sym : Byte) (b : Bool) (bs : Bits) :
    t.insert sym (b :: bs) = (Trie.insert sym bs (t.child b)).map (withChild t b) := by
  cases t with
  | leaf s => exact absurd rfl (h s)
  | empty => cases b <;> rfl
  | fork l r => cases b <;> rfl

/-- R196: a code that ends at no node and goes through no leaf is inserted; its leaf is added, and nothing changes off
its path. -/
theorem insert_ok {t : Trie} {bs : Bits} (sym : Byte) (hend : trieAt t bs = .empty)
    (hthrough : ∀ d s, d <+: bs → trieAt t d ≠ .leaf s) :
    ∃ t', t.insert sym bs = .ok t' ∧ trieAt t' bs = .leaf sym ∧ ∀ d, ¬ d <+: bs → trieAt t' d = trieAt t d := by
  induction bs generalizing t with
  | nil =>
    obtain rfl : t = .empty := hend
    refine ⟨.leaf sym, rfl, rfl, fun d hd => ?_⟩
    rw [trieAt_empty, trieAt_leaf sym fun h => hd (h ▸ List.nil_prefix)]
  | cons b bs ih =>
    obtain ⟨x, hx, hleaf, hother⟩ := ih (t := t.child b) hend fun d s hd =>
      hthrough (b :: d) s (List.cons_prefix_cons.2 ⟨rfl, hd⟩)
    refine ⟨withChild t b x, ?_, ?_, fun d hd => ?_⟩
    · rw [insert_cons (t := t) (hthrough [] · List.nil_prefix), hx]; rfl
    · rw [trieAt_cons, child_withChild, if_pos rfl, hleaf]
    · cases d with
      | nil => exact absurd List.nil_prefix hd
      | cons c d =>
        rw [trieAt_cons, trieAt_cons, child_withChild]
        by_cases hc : c = b
        · subst hc
          rw [if_pos rfl]
          exact hother d (by simpa using hd)
        · rw [if_neg hc]

/-- The trie holds these entries and nothing else: each code leads to its leaf, and every node is on the way to
one. -/
structure HoldsEntries (t : Trie) (es : List WireEntry) : Prop where
  leaf : ∀ e ∈ es, trieAt t e.bits = .leaf e.sym
  node : ∀ d, trieAt t d ≠ .empty → ∃ e ∈ es, d <+: e.bits

theorem holdsEntries_nil : HoldsEntries .empty [] := ⟨by simp, by simp⟩

/-- R196: an entry whose code conflicts with none in the trie is added to it. -/
theorem HoldsEntries.insert {t : Trie} {es : List WireEntry} {x : WireEntry} (ht : HoldsEntries t es)
    (hx : ∀ e ∈ es, ¬ e.bits <+: x.bits ∧ ¬ x.bits <+: e.bits) :
    ∃ t', t.insert x.sym x.bits = .ok t' ∧ HoldsEntries t' (es ++ [x]) := by
  have hend : trieAt t x.bits = .empty := by
    by_contra h
    obtain ⟨e, he, hpre⟩ := ht.node _ h
    exact (hx e he).2 hpre
  have hthrough : ∀ d s, d <+: x.bits → trieAt t d ≠ .leaf s := by
    intro d s hd hleaf
    obtain ⟨e, he, c, hc⟩ := ht.node d (by simp [hleaf])
    have hcode := ht.leaf e he
    rw [← hc, trieAt_append, hleaf] at hcode
    have hnil : c = [] := by
      by_contra hne
      rw [trieAt_leaf s hne] at hcode; cases hcode
    rw [hnil, List.append_nil] at hc
    exact (hx e he).1 (hc ▸ hd)
  obtain ⟨t', hins, hleaf, hother⟩ := insert_ok x.sym hend hthrough
  refine ⟨t', hins, fun e he => ?_, fun d hd => ?_⟩
  · rcases List.mem_append.1 he with he | he
    · rw [hother _ (hx e he).1, ht.leaf e he]
    · rw [List.mem_singleton.1 he, hleaf]
  · by_cases hpre : d <+: x.bits
    · exact ⟨x, by simp, hpre⟩
    · rw [hother d hpre] at hd
      obtain ⟨e, he, h⟩ := ht.node d hd
      exact ⟨e, by simp [he], h⟩

/-- R191 phase B: entries without a conflict (R197) are all inserted. -/
theorem insertAll_ok {t : Trie} {done es : List WireEntry} (ht : HoldsEntries t done)
    (hpf : PrefixFree (done ++ es)) :
    ∃ t', insertAll (es.map wireToEntry) t = .ok t' ∧ HoldsEntries t' (done ++ es) := by
  induction es generalizing t done with
  | nil => exact ⟨t, rfl, by simpa using ht⟩
  | cons x es ih =>
    have hx : ∀ e ∈ done, ¬ e.bits <+: x.bits ∧ ¬ x.bits <+: e.bits :=
      fun e he => (List.pairwise_append.1 hpf).2.2 e he x List.mem_cons_self
    obtain ⟨t1, hins, h1⟩ := ht.insert hx
    obtain ⟨t', hall, h'⟩ := ih h1 (by simpa using hpf)
    refine ⟨t', ?_, by simpa using h'⟩
    rw [List.map_cons, insertAll, show t.insert (wireToEntry x).sym (wireToEntry x).code = .ok t1 from hins]
    exact hall

/-- R191 phase B, R198: two or more entries without a conflict make a trie. -/
theorem buildTrie_ok {es : List WireEntry} (h2 : 2 ≤ es.length) (hpf : PrefixFree es) :
    ∃ t, buildTrie (es.map wireToEntry) = .ok t ∧ HoldsEntries t es := by
  obtain ⟨t, hall, ht⟩ := insertAll_ok (done := []) holdsEntries_nil hpf
  match es, h2 with
  | _ :: _ :: _, _ => exact ⟨t, hall, ht⟩

/-! ### Traversal -/

/-- R204: the bits that lead from the cursor to a leaf emit its symbol, and the cursor is back at the root. -/
theorem traverse_leaf (root cur : Trie) (away : Bool) {bs : Bits} (rest : Bits) {sym : Byte} (hne : bs ≠ [])
    (h : trieAt cur bs = .leaf sym) :
    traverse root cur away (bs ++ rest) = (traverse root root false rest).map (sym :: ·) := by
  induction bs generalizing cur away with
  | nil => exact absurd rfl hne
  | cons b bs ih =>
    rw [trieAt_cons] at h
    rw [List.cons_append, Sys2Proof.Machine.traverse]
    cases hc : cur.child b with
    | empty => rw [hc, trieAt_empty] at h; cases h
    | leaf s =>
      by_cases hbs : bs = []
      · subst hbs
        obtain rfl : s = sym := by simpa [hc, trieAt] using h
        rfl
      · rw [hc, trieAt_leaf s hbs] at h; cases h
    | fork l r =>
      by_cases hbs : bs = []
      · rw [hbs, hc] at h; cases h
      · exact ih (.fork l r) true hbs (hc ▸ h)

/-- R204: a payload that is the codes of entries of the trie, one after another, is read back as their symbols. -/
theorem traverse_codes {t : Trie} {es : List WireEntry} (ht : HoldsEntries t es) (hne : ∀ e ∈ es, e.bits ≠ [])
    {xs : List WireEntry} (hxs : ∀ x ∈ xs, x ∈ es) :
    traverse t t false (xs.flatMap WireEntry.bits) = .ok (xs.map WireEntry.sym) := by
  induction xs with
  | nil => rfl
  | cons x xs ih =>
    obtain ⟨hx, hxs⟩ := List.forall_mem_cons.1 hxs
    rw [List.flatMap_cons, traverse_leaf t t false _ (hne x hx) (ht.leaf x hx), ih hxs]
    rfl

/-- Among two or more codes without a conflict none is empty. -/
theorem prefixFree_bits_ne_nil {es : List WireEntry} (h2 : 2 ≤ es.length) (hpf : PrefixFree es) :
    ∀ e ∈ es, e.bits ≠ [] := by
  match es, h2 with
  | a :: b :: es, _ =>
    obtain ⟨ha, -⟩ := List.pairwise_cons.1 hpf
    intro e he hnil
    rcases List.mem_cons.1 he with rfl | he
    · exact (ha b List.mem_cons_self).1 (hnil ▸ List.nil_prefix)
    · exact (ha e he).2 (hnil ▸ List.nil_prefix)

/-- R191, R204: a container of two or more entries without a conflict, whose usable payload bits are the codes of
entries of its own, decodes to their symbols. -/
theorem decodeContainer_codes {es xs : List WireEntry} {payload : List Byte} {pad : Byte} (hok : WireOk es)
    (h2 : 2 ≤ es.length) (hpf : PrefixFree es) (hpad : PadOk payload pad) (hxs : ∀ x ∈ xs, x ∈ es)
    (hbits : usableBits payload pad = xs.flatMap WireEntry.bits) :
    decodeContainer (wireContainer es payload pad) = .ok (xs.map WireEntry.sym) := by
  obtain ⟨t, hbuild, ht⟩ := buildTrie_ok h2 hpf
  rw [decodeContainer_wire hok, closeContainer_wire hbuild hpad, hbits]
  rw [← traverse_codes ht (prefixFree_bits_ne_nil h2 hpf) hxs]
  match es, h2 with
  | _ :: _ :: _, _ => rfl

/-- R198: a container of one entry decodes to its symbol, once for each usable bit. -/
theorem decodeContainer_single {e : WireEntry} {payload : List Byte} {pad : Byte} (he : e.Fits)
    (hpad : PadOk payload pad) :
    decodeContainer (wireContainer [e] payload pad) =
      .ok (List.replicate (8 * payload.length - pad.toNat) e.sym) := by
  have hok : WireOk [e] := ⟨by simp, by simp, by simpa using he⟩
  rw [decodeContainer_wire hok, closeContainer_wire (t := .empty) rfl hpad]
  simp [emit, wireToEntry, usableBits]

end Sys2Proof.Proofs
end

section
/-! ENCODE, DECODE and the round trip (00_scope R17): the container ENCODE writes under a codebook is one a decoder
reads back, and a command's result is found in the buffers. -/

namespace Sys2Proof.Proofs

open Sys2Proof.Machine Sys2Proof.Laws Sys2Proof.Safety

/-! ### The container of ENCODE as a decoder meets it -/

/-- R102: the entry ENCODE writes for a symbol. -/
def wireEntry (cb : Table CbRec) (s : Nat) : WireEntry :=
  { sym := BitVec.ofNat 8 s, len := (cbGet cb s).len, code := pack (cbGet cb s).code }

/-- R174: the entries ENCODE writes. -/
def wireEntries (cb : Table CbRec) : List WireEntry := (codedSyms cb).map (wireEntry cb)

theorem wireEntry_fits (cb : Table CbRec) (s : Nat) : (wireEntry cb s).Fits := by
  simp [WireEntry.Fits, wireEntry]

@[simp] theorem wireEntry_bits (cb : Table CbRec) (s : Nat) : (wireEntry cb s).bits = (cbGet cb s).code := by
  simpa [WireEntry.bits, wireEntry] using unpack_pack (cbGet cb s).code

theorem containerOf_eq_wire (cb : Table CbRec) (data : List Byte) :
    containerOf cb data =
      wireContainer (wireEntries cb) (pack (payloadBits cb data)) (padByte (payloadBits cb data).length) := by
  have hbytes : (wireEntries cb).flatMap WireEntry.bytes = (codedSyms cb).flatMap (entryBytes cb) := by
    rw [wireEntries, List.flatMap_map]; rfl
  rw [containerOf, wireContainer, headerBytes, wireHeader, hbytes, countByte, wireEntries, List.length_map]

theorem padByte_toNat (n : Nat) : (padByte n).toNat = (8 - n % 8) % 8 := by
  rw [padByte, BitVec.toNat_ofNat]; omega

/-- R104, R203: ENCODE's PAD byte is acceptable. -/
theorem padOk_padByte (bits : Bits) : PadOk (pack bits) (padByte bits.length) := by
  refine ⟨by rw [padByte_toNat]; omega, fun hnil => BitVec.eq_of_toNat_eq ?_⟩
  have hlen : ceilDiv8 bits.length = 0 := by rw [← pack_length, hnil]; rfl
  have h0 : bits.length = 0 := by unfold ceilDiv8 at hlen; omega
  rw [padByte_toNat, h0]; rfl

/-- R202: PAD says how many bits of the packing are not the payload's. -/
theorem payload_length (bits : Bits) : 8 * (pack bits).length - (padByte bits.length).toNat = bits.length := by
  rw [padByte_toNat, pack_length, ceilDiv8]; omega

@[simp] theorem usableBits_pack (bits : Bits) : usableBits (pack bits) (padByte bits.length) = bits := by
  rw [usableBits, payload_length, unpack_pack]

section Codebook

variable {cb : Table CbRec} {data : List Byte}

theorem mem_codedSyms {s : Nat} : s ∈ codedSyms cb ↔ s < 256 ∧ (cbGet cb s).valid = true := by
  simp [codedSyms]

theorem codedSyms_pos (hcb : IsCodebook cb) : 1 ≤ (codedSyms cb).length := by
  obtain ⟨s, hs⟩ := hcb.someCode
  exact List.length_pos_of_mem (mem_codedSyms.2 hs)

theorem wireEntries_ok (hcb : IsCodebook cb) : WireOk (wireEntries cb) := by
  rw [WireOk, wireEntries, List.length_map, List.forall_mem_map]
  exact ⟨codedSyms_pos hcb, (List.length_filter_le _ _).trans_eq List.length_range, fun s _ => wireEntry_fits cb s⟩

theorem wireEntries_prefixFree (hcb : IsCodebook cb) : PrefixFree (wireEntries cb) := by
  rw [PrefixFree, wireEntries, List.pairwise_map]
  refine (List.nodup_range.filter _).imp_of_mem fun {s t} hs ht hne => ?_
  obtain ⟨hs, hsv⟩ := mem_codedSyms.1 hs
  obtain ⟨ht, htv⟩ := mem_codedSyms.1 ht
  rw [wireEntry_bits, wireEntry_bits]
  exact ⟨hcb.prefixFree s t hs ht hsv htv hne, hcb.prefixFree t s ht hs htv hsv hne.symm⟩

theorem wireEntry_mem (hcov : Covers cb data) {b : Byte} (hb : b ∈ data) : wireEntry cb b.toNat ∈ wireEntries cb :=
  List.mem_map_of_mem (mem_codedSyms.2 ⟨b.isLt, hcov b hb⟩)

/-- With one coded symbol (R153) the data are that symbol repeated and the payload has a bit for each. -/
theorem decodeContainer_containerOf_single (hcb : IsCodebook cb) (hcov : Covers cb data)
    (h1 : (codedSyms cb).length = 1) : decodeContainer (containerOf cb data) = .ok data := by
  obtain ⟨s, hs⟩ := List.length_eq_one_iff.1 h1
  have hdata : ∀ b ∈ data, b = BitVec.ofNat 8 s := by
    intro b hb
    have hbs : b.toNat = s := by simpa [hs] using mem_codedSyms.2 ⟨b.isLt, hcov b hb⟩
    rw [← hbs, BitVec.ofNat_toNat, BitVec.setWidth_eq]
  have hlen : (payloadBits cb data).length = data.length := by
    have hcode : ∀ b ∈ data, ((cbGet cb b.toNat).code).length = 1 := fun b hb => by
      rw [code_length, hcb.single h1 _ b.isLt (hcov b hb)]; rfl
    rw [payloadBits, List.length_flatMap, List.map_congr_left hcode]
    simp
  rw [containerOf_eq_wire, wireEntries, hs, List.map_singleton,
    decodeContainer_single (wireEntry_fits cb s) (padOk_padByte _), payload_length, hlen]
  exact congrArg _ (List.eq_replicate_of_mem hdata).symm

/-- R17: what ENCODE lays out under a codebook that covers the data decodes to the data. -/
theorem decodeContainer_containerOf (hcb : IsCodebook cb) (hcov : Covers cb data) :
    decodeContainer (containerOf cb data) = .ok data := by
  have hpos := codedSyms_pos hcb
  by_cases h1 : (codedSyms cb).length = 1
  · exact decodeContainer_containerOf_single hcb hcov h1
  have h2 : 2 ≤ (wireEntries cb).length := by rw [wireEntries, List.length_map]; omega
  have hxs : ∀ x ∈ data.map fun b => wireEntry cb b.toNat, x ∈ wireEntries cb :=
    List.forall_mem_map.2 fun b hb => wireEntry_mem hcov hb
  have hbits : payloadBits cb data = (data.map fun b => wireEntry cb b.toNat).flatMap WireEntry.bits := by
    simp [payloadBits, List.flatMap_map]
  have hsyms : (data.map fun b => wireEntry cb b.toNat).map WireEntry.sym = data := by
    simp [wireEntry, Function.comp_def]
  rw [containerOf_eq_wire,
    decodeContainer_codes (wireEntries_ok hcb) h2 (wireEntries_prefixFree hcb) (padOk_padByte _) hxs
      ((usableBits_pack _).trans hbits), hsyms]

end Codebook

/-! ### Results in the buffers -/

/-- A container that lies in IBUF is the input, and its length is legal. -/
theorem input_eq_of_holds {s : State} {c : List Byte} (h : Holds s c) : s.input = c ∧ s.lengthBad = false := by
  obtain ⟨hlen, hfit, hbytes⟩ := h
  refine ⟨List.ext_getElem (by rw [input_length, hlen]) fun a ha hc => ?_, (lengthBad_eq_false s).2 (by omega)⟩
  rw [← List.getD_eq_getElem _ 0 ha, input_getD s (by omega), hbytes a hc, List.getD_eq_getElem _ 0 hc]

/-- R23, R28: a result that fits an OBUF of legal size is found there, and OLEN counts it. -/
theorem commit_ok_produced {s : State} {out : List Byte} (hlegal : s.params.Legal)
    (hfit : out.length ≤ s.params.obufSize) :
    (s.commit (.ok out)).status = okStatus ∧ Produced (s.commit (.ok out)) out := by
  obtain ⟨-, -, -, -, -, hmax⟩ := hlegal
  refine ⟨rfl, Nat.mod_eq_of_lt (by omega), fun a ha => ?_⟩
  rw [obufByte_congr (s := s.setOutput out) (t := s.commit (.ok out)) rfl rfl, obufByte_setOutput, if_pos ha]

/-- R171: ENCODE succeeds only on covered data whose container fits OBUF, and its result is that container. -/
theorem encodeResult_ok {s : State} {out : List Byte} (h : encodeResult s = .ok out) :
    Covers s.cb s.input ∧ out = containerOf s.cb s.input ∧ out.length ≤ s.params.obufSize := by
  unfold encodeResult at h
  split at h
  · cases h
  split at h
  · cases h
  split at h
  · cases h
  next hnone =>
    split at h
    · cases h
    next hfit =>
      obtain rfl := Except.ok.inj h
      refine ⟨fun b hb => ?_, rfl, by omega⟩
      simpa using List.find?_eq_none.1 hnone b hb

theorem execEncode_produced {s t : State} (hlegal : s.params.Legal) (h : exec .encode s = .next t)
    (herr : t.status.error = false) : Covers s.cb s.input ∧ Produced t (containerOf s.cb s.input) := by
  obtain rfl : s.commit (encodeResult s) = t := Host.Outcome.next.inj h
  cases hr : encodeResult s with
  | error f => rw [hr] at herr; cases herr
  | ok out =>
    obtain ⟨hcov, rfl, hfit⟩ := encodeResult_ok hr
    exact ⟨hcov, (commit_ok_produced hlegal hfit).2⟩

/-- R191, R206: DECODE of a container that lies in IBUF, when its data fit OBUF. -/
theorem execDecode_produced {s : State} {c out : List Byte} (hlegal : s.params.Legal) (hc : Holds s c)
    (hd : decodeContainer c = .ok out) (hfit : out.length ≤ s.params.obufSize) :
    ∃ t, exec .decode s = .next t ∧ t.status = okStatus ∧ Produced t out := by
  obtain ⟨hin, hbad⟩ := input_eq_of_holds hc
  have hr : decodeResult s = .ok out := by
    rw [decodeResult, hin, hd, if_neg (by simp [hbad])]
    exact if_neg (by omega)
  exact ⟨_, rfl, hr ▸ commit_ok_produced hlegal hfit⟩

/-! ### The round trip -/

/-- R17 from a codebook on: a container ENCODE produced, held as the input of any machine whose OBUF the data fit,
decodes to the data. -/
theorem execDecode_of_execEncode {s t u : State} (hs : s.params.Legal) (hcb : IsCodebook s.cb)
    (henc : exec .encode s = .next t) (herr : t.status.error = false) (hu : u.params.Legal) (hlen : u.ilen = t.olen)
    (hfit : u.ilen.toNat ≤ u.params.ibufSize) (hbytes : ∀ a, a < t.olen.toNat → u.ibufByte a = t.obufByte a)
    (hout : s.ilen.toNat ≤ u.params.obufSize) :
    ∃ v, exec .decode u = .next v ∧ v.status = okStatus ∧ Produced v s.input := by
  obtain ⟨hcov, holen, hobuf⟩ := execEncode_produced hs henc herr
  have hholds : Holds u (containerOf s.cb s.input) :=
    ⟨by rw [hlen, holen], by rwa [← holen, ← hlen], fun a ha => (hbytes a (holen ▸ ha)).trans (hobuf a ha)⟩
  exact execDecode_produced hu hholds (decodeContainer_containerOf hcb hcov) (by rwa [input_length])

/-- Settles O53: COMPILE leaves a codebook because BUILD makes a tree and WALK's codes are the paths to its leaves;
ENCODE's container under a codebook is read back entry by entry and code by code. -/
theorem roundTrip : Obligations.RoundTrip := by
  intro s s1 s2 hlegal hpos hlen hcompile hencode
  obtain ⟨hok, hcb, hparams, hilen, hibuf⟩ := execCompile_codebook hpos hlen hcompile
  refine ⟨hok, fun herr u hu hulen hufit hubytes hout => ?_⟩
  obtain ⟨v, hdecode, hvok, hvolen, hvbytes⟩ := execDecode_of_execEncode (hparams ▸ hlegal) hcb hencode herr hu hulen
    hufit hubytes (hilen ▸ hout)
  rw [input_length, hilen] at hvolen
  refine ⟨v, hdecode, hvok, BitVec.eq_of_toNat_eq hvolen, fun a ha => ?_⟩
  rw [hvbytes a (by rwa [input_length, hilen]), input_getD s1 (by rwa [hilen]), hibuf]

end Sys2Proof.Proofs
end

section
/-! What a step can do (10_state R21 to R24, 20_memory R61 to R69): the command in CMD completes, or one Host access
lands. Every invariant of the state is proved over these two relations. -/

namespace Sys2Proof.Proofs

open Sys2Proof.Machine Sys2Proof.Laws Sys2Proof.Safety

/-! ### The Core: a completion -/

theorem encode_ite_cmdWord {p : Prop} [Decidable p] {i j : Instr} (hi : ∃ v, encode i = .cmdWord v)
    (hj : ∃ v, encode j = .cmdWord v) : ∃ v, encode (if p then i else j) = .cmdWord v := by
  split <;> assumption

/-- A CMD byte decodes to a row of format CMD, never to a container row (R91). -/
theorem encode_decodeOpcode (op : Byte) : ∃ v, encode (decodeOpcode op) = .cmdWord v := by
  unfold decodeOpcode
  repeat' apply encode_ite_cmdWord
  all_goals exact ⟨_, rfl⟩

/-- A byte is the opcode of the word it reads as (R90, R94). -/
theorem opcodeOf_setWidth (op : Byte) : opcodeOf (op.setWidth 32) = op := by
  rw [opcodeOf, BitVec.extractLsb'_setWidth_of_le (by omega)]
  exact BitVec.extractLsb'_eq_self

/-- Everything a completion step (R23) can leave: a failure before any stage ran, the stages of the command, or an
output that is committed only when it fits OBUF. -/
inductive Completion (s : State) : State → Prop where
  | raised (f : Failure) : Completion s (s.raise f)
  | counted (hlen : s.lengthBad = false) : Completion s ((countStage s).complete none)
  | built : Completion s ((buildStage s).complete (buildFailure s.ft))
  | walked : Completion s ((walkStage s).complete (walkFailure s.root))
  | compiled (hlen : s.lengthBad = false) : Completion s ((walkStage (buildStage (countStage s))).complete
      (firstFailure (buildFailure (countBytes s.input)) (walkFailure (buildTree (countBytes s.input)).2)))
  | committed (r : Except Failure (List Byte)) (hfit : ∀ out, r = .ok out → out.length ≤ s.params.obufSize) :
      Completion s (s.commit r)

/-- R206: DECODE succeeds only with data that fit OBUF. -/
theorem decodeResult_ok_length {s : State} {out : List Byte} (h : decodeResult s = .ok out) :
    out.length ≤ s.params.obufSize := by
  unfold decodeResult at h
  split at h
  · cases h
  split at h
  · cases h
  next data _ =>
    rcases fitOutput_cases s data with ⟨hfit, hr⟩ | ⟨-, hr⟩
    · obtain rfl := Except.ok.inj (hr.symm.trans h)
      exact hfit
    · cases hr.symm.trans h

/-- Every command's meaning is a completion. -/
theorem exec_completion {i : Instr} {v : Word} (hi : encode i = .cmdWord v) (s : State) :
    ∃ t, exec i s = .next t ∧ Completion s t := by
  cases i with
  | count =>
    simp only [exec, execCount]
    split
    · exact ⟨_, rfl, .raised _⟩
    · next hlen => exact ⟨_, rfl, .counted (Bool.eq_false_of_not_eq_true hlen)⟩
  | build => exact ⟨_, rfl, .built⟩
  | walk => exact ⟨_, rfl, .walked⟩
  | compile =>
    simp only [exec, execCompile]
    split
    · exact ⟨_, rfl, .raised _⟩
    · next hlen => exact ⟨_, rfl, .compiled (Bool.eq_false_of_not_eq_true hlen)⟩
  | encode => exact ⟨_, rfl, .committed _ fun _ h => (encodeResult_ok h).2.2⟩
  | decode => exact ⟨_, rfl, .committed _ fun _ h => decodeResult_ok_length h⟩
  | illegal00 | illegal07 | illegal08_0F | illegal10_1F | illegal20_3F | illegal40_7F | illegal80_FF =>
    exact ⟨_, rfl, .raised _⟩
  | containerCount | containerEntrySym | containerEntryLen | containerPad => cases hi

/-! ### The Host: one access -/

/-- The two states differ in nothing of the block: only in the Host's queue, the words it has read, and the model's
counters of accesses and free values (log entry 4). -/
abbrev SameBlock (t u : State) : Prop :=
  t = { u with inbox := t.inbox, replies := t.replies, wait := t.wait, fresh := t.fresh }

/-- Everything one access of the Host can do to the block: nothing, an accepted CMD write (R22), a store to ILEN, to
FT or to one word of IBUF (R27, R95, R64), or the reset event (R250). -/
inductive HostEffect (s : State) : HostOp → State → Prop where
  | quiet {op : HostOp} {t : State} (ht : SameBlock t s) : HostEffect s op t
  | started {v : Word} {t : State} (hidle : s.run = .idle) (ht : SameBlock t (s.startCommand v)) :
      HostEffect s (.write 0 v) t
  | storedIlen {addr v : Word} {t : State} (ht : SameBlock t { s with ilen := v }) : HostEffect s (.write addr v) t
  | storedFt {addr v : Word} {t : State} {i : Nat} (hi : i < 256)
      (ht : SameBlock t { s with ft := ftPut s.ft i v }) : HostEffect s (.write addr v) t
  | storedIbuf {addr v : Word} {t : State} {a : Nat} (halign : a % 4 = 0) (ha : a < s.params.ibufSize)
      (ht : SameBlock t { s with ibuf := s.ibuf.writeBytes a (bytesOfWord v) }) : HostEffect s (.write addr v) t
  | reset {t : State} (ht : SameBlock t s.resetEvent) : HostEffect s .reset t

/-- What the address map (R63) promises of the places a write can change. -/
def PlaceOk (p : Config.Params) (addr : Word) : PortLoc → Prop
  | .cmd => addr = 0
  | .ft i => i < 256
  | .ibuf a => a % 4 = 0 ∧ a < p.ibufSize
  | _ => True

theorem locate_placeOk (p : Config.Params) (addr : Word) : PlaceOk p addr (locate p addr) := by
  unfold locate
  extract_lets a
  split
  · trivial
  split
  · next hcmd => exact BitVec.eq_of_toNat_eq hcmd
  repeat' split
  all_goals simp only [PlaceOk, ibufBase] at *
  all_goals omega

theorem hostRead_sameBlock (s : State) (addr : Word) : SameBlock (s.hostRead addr) s := by
  rcases hostRead_cases s addr with ⟨-, -, h⟩ | ⟨-, h⟩ <;> rw [h] <;> rfl

theorem hostWrite_effect (s : State) (addr v : Word) : HostEffect s (.write addr v) (s.hostWrite addr v) := by
  have hplace := locate_placeOk s.params addr
  unfold State.hostWrite
  cases hrun : s.run with
  | busy => exact .quiet rfl
  | idle =>
    rcases portWrite_cases s v (locate s.params addr) with
      ⟨hl, h⟩ | ⟨-, h⟩ | ⟨i, hl, h⟩ | ⟨a, hl, h⟩ | ⟨-, h⟩ <;> simp only [h]
    · rw [hl] at hplace
      obtain rfl : addr = 0 := hplace
      exact .started hrun rfl
    · exact .storedIlen rfl
    · rw [hl] at hplace
      exact .storedFt hplace rfl
    · rw [hl] at hplace
      obtain ⟨halign, ha⟩ := hplace
      exact .storedIbuf halign ha rfl
    · exact .quiet rfl

theorem hostWait_sameBlock (s : State) : SameBlock s.hostWait s := by
  have hread := hostRead_sameBlock s statusAddr
  unfold State.hostWait
  cases s.run with
  | idle => exact hread
  | busy => dsimp only; rw [hread]

theorem hostAccess_effect (s : State) (op : HostOp) : HostEffect s op (s.hostAccess op) := by
  cases op with
  | read addr => exact .quiet (hostRead_sameBlock s addr)
  | write addr v => exact hostWrite_effect s addr v
  | wait => exact .quiet (hostWait_sameBlock s)
  | reset => exact .reset rfl

/-- Taking an access off the queue and counting it changes nothing of the block. -/
theorem HostEffect.of_queue {s t : State} {op : HostOp} {rest : List HostOp} {n : Nat}
    (h : HostEffect { s with inbox := rest, wait := n } op t) : HostEffect s op t := by
  cases h with
  | quiet ht => exact .quiet ht
  | started hidle ht => exact .started hidle ht
  | storedIlen ht => exact .storedIlen ht
  | storedFt hi ht => exact .storedFt hi ht
  | storedIbuf halign ha ht => exact .storedIbuf halign ha ht
  | reset ht => exact .reset ht

/-! ### The step -/

theorem hostTurn_cons {s : State} {op : HostOp} {rest : List HostOp} (h : s.inbox = op :: rest) :
    s.hostTurn = { s with inbox := rest }.hostAccess op := by
  rw [State.hostTurn, h]

theorem hostTurn_nil {s : State} (h : s.inbox = []) : s.hostTurn = s := by
  rw [State.hostTurn, h]

/-- When the completion does not come first, the step is the Host's next access. -/
theorem step_hostAccess {s : State} {op : HostOp} {rest : List HostOp} (hin : s.inbox = op :: rest)
    (hturn : s.run = .idle ∨ 0 < s.wait) :
    ∃ n, step s = .next ({ s with inbox := rest, wait := n }.hostAccess op) := by
  rcases step_cases s with ⟨hrun, hwait, -⟩ | ⟨-, -, -, h⟩ | ⟨-, h⟩
  · simp [hrun, hin] at hturn hwait
    omega
  · exact ⟨s.wait - 1, by rw [h, hostTurn_cons (s := { s with wait := s.wait - 1 }) hin]⟩
  · exact ⟨s.wait, by rw [h, hostTurn_cons hin]⟩

theorem step_hostEffect {s t : State} {op : HostOp} {rest : List HostOp} (hin : s.inbox = op :: rest)
    (hturn : s.run = .idle ∨ 0 < s.wait) (h : step s = .next t) : HostEffect s op t := by
  obtain ⟨n, hstep⟩ := step_hostAccess hin hturn
  obtain rfl := Host.Outcome.next.inj (hstep.symm.trans h)
  exact (hostAccess_effect _ op).of_queue

/-- What a completion and a Host access both keep, every step keeps. -/
theorem step_keeps {P : State → Prop} {s t : State} (hs : P s) (hcore : ∀ u, Completion s u → P u)
    (hhost : ∀ op u, HostEffect s op u → P u) (h : step s = .next t) : P t := by
  rcases step_cases s with ⟨-, -, hexec⟩ | ⟨-, hwait, hne, -⟩ | ⟨hidle, hturn⟩
  · obtain ⟨v, hv⟩ := encode_decodeOpcode s.cmd
    obtain ⟨u, hu, hc⟩ := exec_completion hv s
    obtain rfl := Host.Outcome.next.inj ((hexec.trans hu).symm.trans h)
    exact hcore _ hc
  · obtain ⟨op, rest, hin⟩ := List.exists_cons_of_ne_nil hne
    exact hhost op t (step_hostEffect hin (.inr hwait) h)
  · cases hin : s.inbox with
    | nil =>
      rw [hostTurn_nil hin] at hturn
      exact Host.Outcome.next.inj (hturn.symm.trans h) ▸ hs
    | cons op rest => exact hhost op t (step_hostEffect hin (.inl hidle) h)

/-- Settles O13: the step is exec of CMD's opcode, and decoding the word that CMD reads as finds that opcode. -/
theorem stepCompletesCommandInCmd : Obligations.StepCompletesCommandInCmd := by
  intro s i hrun hturn hdec
  obtain rfl : decodeOpcode (opcodeOf (s.cmd.setWidth 32)) = i := Except.ok.inj hdec
  rcases step_cases s with ⟨-, -, h⟩ | ⟨-, hwait, hne, -⟩ | ⟨hidle, -⟩
  · rw [h, opcodeOf_setWidth]
  · exact absurd hturn (not_or.2 ⟨by omega, hne⟩)
  · rw [hrun] at hidle; cases hidle

/-- A write of address 0 while IDLE is accepted as a command (R22). -/
theorem hostWrite_cmd {s : State} (v : Word) (hidle : s.run = .idle) : s.hostWrite 0 v = s.startCommand v := by
  rw [State.hostWrite, hidle]
  rfl

/-- Settles O16: the Host's turn is the accepted write. -/
theorem cmdWriteStartsCommand : Obligations.CmdWriteStartsCommand := by
  intro s v rest hidle hin
  obtain ⟨n, hstep⟩ := step_hostAccess hin (.inl hidle)
  exact ⟨_, hstep.trans (congrArg _ (hostWrite_cmd (s := { s with inbox := rest, wait := n }) v hidle)), rfl⟩

/-- Settles O17: of all a Host access can do, only an accepted CMD write and the reset event reach these fields. -/
theorem failureRecordLasts : Obligations.FailureRecordLasts := by
  intro s t op rest hin hturn hreset hcmd h
  cases step_hostEffect hin hturn h with
  | started hidle _ => cases hidle.symm.trans (hcmd _ rfl)
  | reset _ => exact absurd rfl hreset
  | quiet ht | storedIlen ht | storedFt _ ht | storedIbuf _ _ ht =>
    rw [ht]
    exact ⟨rfl, rfl, rfl, rfl, rfl, rfl, rfl, rfl, rfl, rfl, rfl⟩

end Sys2Proof.Proofs
end

section
/-! What every step keeps (10_state R26 to R37): the canonical form of the files, the legal values of STATUS and OLEN,
the tree and the codebook. -/

namespace Sys2Proof.Proofs

open Sys2Proof.Machine Sys2Proof.Laws Sys2Proof.Safety

/-! ### What the commands write is in canonical form -/

/-- R31, R120: COUNT leaves counters of bytes only, and lists none that is 0. -/
theorem ftWf_countBytes (data : List Byte) : FtWf (countBytes data) :=
  List.foldlRecOn data _ ftWf_nil fun _ hft b _ => ftWf_ftPut hft b.isLt _

theorem nodeWf_leaves (ft : Table Word) : NodeWf (leaves ft) :=
  List.foldlRecOn (presentSyms ft) _ nodeWf_nil fun _ hnd s hs =>
    nodeWf_nodePut hnd (lt_trans (mem_presentSyms.1 hs).1 (by decide)) _

/-- R131: the loop of R130 makes its nodes inside the arena, since a merge takes two of at most 256 roots. -/
theorem nodeWf_mergeLoop {ft : Table Word} {fuel k : Nat} {nd : Table Node} {live : List Nat}
    (hf : Forest ft k nd live) (hnd : NodeWf nd) : NodeWf (mergeLoop fuel k nd live).1 := by
  induction fuel generalizing k nd live with
  | zero => exact hnd
  | succ fuel ih =>
    rcases mergeLoop_cases fuel k nd hf.nodup with ⟨-, hstop⟩ | ⟨a, b, ha, hb, hnext⟩
    · rw [hstop]
      exact hnd
    · obtain ⟨hbl, hne⟩ := mem_without.1 (argmin_mem hb)
      have hroom := hf.room (argmin_mem ha) hbl hne
      rw [hnext]
      exact ih (hf.merge (argmin_mem ha) hbl hne) (nodeWf_nodePut hnd (by omega) _)

/-- R30, R130: BUILD's arena. -/
theorem nodeWf_buildTree (ft : Table Word) : NodeWf (buildTree ft).1 :=
  nodeWf_mergeLoop (forest_leaves ft) (nodeWf_leaves ft)

/-- R32, R150: WALK writes records of leaves only, whatever NODE and ROOT hold. -/
theorem cbWf_walkTree (nd : Table Node) (root : NodeIx) : CbWf (walkTree nd root) := by
  unfold walkTree
  split
  · exact cbWf_nil
  split
  · next hleaf => exact cbWf_cbPut cbWf_nil hleaf _
  · refine List.foldlRecOn _ _ cbWf_nil fun _ hcb e he => cbWf_cbPut hcb ?_ _
    obtain ⟨_, _, _, he, _⟩ := mem_leavesBelow.1 he
    exact he

/-! ### The files -/

/-- R38: after a reset every file is empty. -/
theorem resetEvent_filesInv {s : State} (hp : s.params.Legal) : FilesInv s.resetEvent :=
  ⟨hp, ftWf_nil, nodeWf_nil, cbWf_nil, memory_wf_nil _, memory_wf_nil _⟩

/-- R177, R207: a committed output stays inside OBUF, and a failure writes no byte. -/
theorem commit_obuf_wf {s : State} {r : Except Failure (List Byte)} (hobuf : s.obuf.wf s.params.obufSize)
    (hfit : ∀ out, r = .ok out → out.length ≤ s.params.obufSize) : (s.commit r).obuf.wf s.params.obufSize := by
  rcases commit_cases s r with ⟨out, hr, h⟩ | ⟨f, -, h⟩ <;> rw [h]
  · exact memory_wf_writeBytes hobuf (by rw [zero_add]; exact hfit out hr)
  · exact hobuf

theorem Completion.filesInv {s t : State} (h : Completion s t) (hs : FilesInv s) : FilesInv t := by
  obtain ⟨hp, hft, hnode, hcb, hibuf, hobuf⟩ := hs
  cases h with
  | raised f => exact ⟨hp, hft, hnode, hcb, hibuf, hobuf⟩
  | counted => exact ⟨hp, ftWf_countBytes _, hnode, hcb, hibuf, hobuf⟩
  | built => exact ⟨hp, hft, nodeWf_buildTree _, hcb, hibuf, hobuf⟩
  | walked => exact ⟨hp, hft, hnode, cbWf_walkTree _ _, hibuf, hobuf⟩
  | compiled => exact ⟨hp, ftWf_countBytes _, nodeWf_buildTree _, cbWf_walkTree _ _, hibuf, hobuf⟩
  | committed r hfit =>
    rw [commit_frame]
    exact ⟨hp, hft, hnode, hcb, hibuf, commit_obuf_wf hobuf hfit⟩

/-- A Host access stores inside FT or IBUF; an aligned word of IBUF ends inside it, because the size is a multiple of 4
(R5, R64). -/
theorem HostEffect.filesInv {s t : State} {op : HostOp} (h : HostEffect s op t) (hs : FilesInv s) : FilesInv t := by
  cases h with
  | quiet ht | started _ ht | storedIlen ht => rw [ht]; exact hs
  | @storedFt _ v _ i hi ht =>
    obtain ⟨hp, hft, hrest⟩ := hs
    rw [ht]
    exact ⟨hp, ftWf_ftPut hft hi v, hrest⟩
  | @storedIbuf _ v _ a halign ha ht =>
    obtain ⟨hp, hft, hnode, hcb, hibuf, hobuf⟩ := hs
    have hsize : s.params.ibufSize % 4 = 0 := hp.1
    have hend : a + (bytesOfWord v).length ≤ s.params.ibufSize := by simp only [bytesOfWord, List.length]; omega
    rw [ht]
    exact ⟨hp, hft, hnode, hcb, memory_wf_writeBytes hibuf hend, hobuf⟩
  | reset ht => rw [ht]; exact resetEvent_filesInv hs.1

/-- Settles O9: every command writes files in canonical form, and the address map keeps the Host's stores inside FT and
IBUF. -/
theorem stepKeepsFilesCanonical : Obligations.StepKeepsFilesCanonical := fun _ _ hs h =>
  step_keeps hs (fun _ hc => hc.filesInv hs) (fun _ _ hh => hh.filesInv hs) h

/-! ### The tree and the codebook -/

/-- R36: BUILD leaves a tree, or no tree and every slot unused when no symbol appears. -/
theorem buildTree_treeInv (ft : Table Word) : TreeInv (buildTree ft).1 (buildTree ft).2 := by
  by_cases h : presentSyms ft = []
  · exact .inl (by simp [buildTree, leaves, h, mergeLoop, rootOf])
  · obtain ⟨_, _, -, hf⟩ := buildTree_forest h
    exact .inr ⟨buildTree_isTree h, hf.unused⟩

/-- R37: WALK of what R36 allows leaves what R37 allows. -/
theorem walkTree_codebookInv {nd : Table Node} {root : NodeIx} (h : TreeInv nd root) :
    CodebookInv (walkTree nd root) := by
  rcases h with ⟨hroot, -⟩ | ⟨htree, -⟩
  · exact .inl fun s => by rw [walkTree, if_pos hroot, cbGet_nil]
  · exact .inr (walkTree_isCodebook htree)

theorem treeInv_empty : TreeInv [] Config.noNode := .inl ⟨rfl, nodeGet_nil⟩

theorem codebookInv_nil : CodebookInv [] := .inl cbGet_nil

/-- A Host access leaves the tree and the codebook, or clears both. -/
theorem HostEffect.tree_cases {s t : State} {op : HostOp} (h : HostEffect s op t) :
    (t.node = s.node ∧ t.root = s.root ∧ t.cb = s.cb) ∨ (t.node = [] ∧ t.root = Config.noNode ∧ t.cb = []) := by
  cases h with
  | quiet ht | started _ ht | storedIlen ht | storedFt _ ht | storedIbuf _ _ ht => rw [ht]; exact .inl ⟨rfl, rfl, rfl⟩
  | reset ht => rw [ht]; exact .inr ⟨rfl, rfl, rfl⟩

theorem Completion.treeInv {s t : State} (h : Completion s t) (hs : TreeInv s.node s.root) :
    TreeInv t.node t.root := by
  cases h with
  | raised | counted | walked => exact hs
  | built | compiled => exact buildTree_treeInv _
  | committed r => rw [commit_frame]; exact hs

theorem Completion.codebookInv {s t : State} (h : Completion s t) (htree : TreeInv s.node s.root)
    (hs : CodebookInv s.cb) : CodebookInv t.cb := by
  cases h with
  | raised | counted | built => exact hs
  | walked => exact walkTree_codebookInv htree
  | compiled => exact walkTree_codebookInv (buildTree_treeInv _)
  | committed r => rw [commit_frame]; exact hs

/-- Settles O11: only BUILD and COMPILE write a tree, and the loop of R130 ends with a forest of one root. -/
theorem stepKeepsTree : Obligations.StepKeepsTree := by
  intro s t hs h
  refine step_keeps (P := fun u => TreeInv u.node u.root) hs (fun _ hc => hc.treeInv hs) (fun _ u hh => ?_) h
  rcases hh.tree_cases with ⟨hnode, hroot, -⟩ | ⟨hnode, hroot, -⟩ <;> rw [hnode, hroot]
  · exact hs
  · exact treeInv_empty

/-- Settles O12: only WALK and COMPILE write a codebook, and what they walk is what R36 allows. -/
theorem stepKeepsCodebook : Obligations.StepKeepsCodebook := by
  intro s t htree hs h
  refine step_keeps (P := fun u => CodebookInv u.cb) hs (fun _ hc => hc.codebookInv htree hs) (fun _ u hh => ?_) h
  rcases hh.tree_cases with ⟨-, -, hcb⟩ | ⟨-, -, hcb⟩ <;> rw [hcb]
  · exact hs
  · exact codebookInv_nil

/-! ### STATUS, OLEN and the scratch -/

/-- R23: every completion ends in `State.complete`, which sets RUN and STATUS and drops the scratch. -/
theorem Completion.eq_complete {s t : State} (h : Completion s t) : ∃ u r, t = State.complete u r := by
  cases h with
  | raised f => exact ⟨s, some f, rfl⟩
  | counted | built | walked | compiled => exact ⟨_, _, rfl⟩
  | committed r =>
    rcases commit_cases s r with ⟨out, -, h⟩ | ⟨f, -, h⟩
    · exact ⟨_, _, h⟩
    · exact ⟨{ s with olen := 0 }, some f, h⟩

theorem Completion.statusInv {s t : State} (h : Completion s t) : StatusInv t := by
  obtain ⟨u, r, rfl⟩ := h.eq_complete
  exact ⟨fun hbusy => Run.noConfusion hbusy, .inr ⟨r, complete_status u r⟩⟩

theorem Completion.scan_eq {s t : State} (h : Completion s t) : t.scan = Scan.empty := by
  obtain ⟨u, r, rfl⟩ := h.eq_complete
  exact complete_scan u r

/-- R28: a completion leaves OLEN as it was, or makes it 0 or the length of an output that fits OBUF. -/
theorem Completion.olen_le {s t : State} (h : Completion s t) (hs : s.olen.toNat ≤ s.params.obufSize) :
    t.olen.toNat ≤ t.params.obufSize := by
  cases h with
  | raised | counted | built | walked | compiled => exact hs
  | committed r hfit =>
    rcases commit_cases s r with ⟨out, hr, h⟩ | ⟨f, -, h⟩ <;> rw [h]
    · exact (Nat.mod_le _ _).trans (hfit out hr)
    · exact Nat.zero_le _

theorem HostEffect.statusInv {s t : State} {op : HostOp} (h : HostEffect s op t) (hs : StatusInv s) : StatusInv t := by
  cases h with
  | quiet ht | storedIlen ht | storedFt _ ht | storedIbuf _ _ ht => rw [ht]; exact hs
  | started _ ht | reset ht => rw [ht]; exact ⟨fun _ => rfl, .inl rfl⟩

theorem HostEffect.outputInv {s t : State} {op : HostOp} (h : HostEffect s op t) (hs : OutputInv s) : OutputInv t := by
  cases h with
  | quiet ht | started _ ht | storedIlen ht | storedFt _ ht | storedIbuf _ _ ht => rw [ht]; exact hs
  | reset ht => rw [ht]; exact ⟨Nat.zero_le _, rfl⟩

/-- Settles O10: a completion writes one of its legal values to STATUS, a Host access leaves it or clears it. -/
theorem stepKeepsStatusLegal : Obligations.StepKeepsStatusLegal := by
  intro s t _ hstatus hout h
  exact step_keeps (P := fun u => StatusInv u ∧ OutputInv u) ⟨hstatus, hout⟩
    (fun _ hc => ⟨hc.statusInv, hc.olen_le hout.1, hc.scan_eq⟩)
    (fun _ _ hh => ⟨hh.statusInv hstatus, hh.outputInv hout⟩) h

/-! ### The state after reset -/

/-- Settles O6: the scalar registers are stated, and every entry of an empty file reads as R38 says. -/
theorem resetLeavesStatedValues : Obligations.ResetLeavesStatedValues :=
  ⟨⟨rfl, rfl, rfl, rfl, rfl, rfl, rfl, rfl, rfl, rfl, fun i _ => ftGet_nil i, fun i _ => nodeGet_nil i,
    fun i _ => cbGet_nil i, fun _ => rfl, fun _ => rfl, rfl⟩, by decide⟩

/-- Settles O8: the files are empty, their sizes the defaults of R5, and STATUS is clear. -/
theorem resetSatisfiesInvariant : Obligations.ResetSatisfiesInvariant :=
  ⟨resetEvent_filesInv (s := State.reset) (by decide), ⟨fun _ => rfl, .inl rfl⟩, ⟨Nat.zero_le _, rfl⟩, treeInv_empty,
    codebookInv_nil⟩

end Sys2Proof.Proofs
end

section
/-! The Host port (20_memory R61 to R70): accesses are served in order, what one read or write does while IDLE and while
BUSY, which addresses the map knows, and the byte lanes of IBUF and OBUF. -/

namespace Sys2Proof.Proofs

open Sys2Proof.Machine Sys2Proof.Laws Sys2Proof.Safety

/-! ### Whose turn it is -/

theorem step_idle {s : State} (hidle : s.run = .idle) : step s = .next s.hostTurn := by
  rcases step_cases s with ⟨hbusy, -⟩ | ⟨hbusy, -⟩ | ⟨-, h⟩
  · cases hidle.symm.trans hbusy
  · cases hidle.symm.trans hbusy
  · exact h

theorem step_idle_hostAccess {s : State} {op : HostOp} {rest : List HostOp} (hidle : s.run = .idle)
    (hin : s.inbox = op :: rest) : step s = .next ({ s with inbox := rest }.hostAccess op) := by
  rw [step_idle hidle, hostTurn_cons hin]

theorem step_busy_hostAccess {s : State} {op : HostOp} {rest : List HostOp} (hbusy : s.run = .busy) (hwait : 0 < s.wait)
    (hin : s.inbox = op :: rest) : step s = .next ({ s with inbox := rest, wait := s.wait - 1 }.hostAccess op) := by
  rcases step_cases s with ⟨-, h0 | hnil, -⟩ | ⟨-, -, -, h⟩ | ⟨hidle, -⟩
  · omega
  · cases hin.symm.trans hnil
  · rw [h, hostTurn_cons (s := { s with wait := s.wait - 1 }) hin]
  · cases hidle.symm.trans hbusy

/-- Settles O14: the step is the Host's turn, which takes the first access off the queue. -/
theorem hostAccessesAreServedInOrder : Obligations.HostAccessesAreServedInOrder := fun _ =>
  ⟨fun hidle hnil => by rw [step_idle hidle, hostTurn_nil hnil], fun _ _ hin =>
    ⟨fun hidle => step_idle_hostAccess hidle hin, fun hbusy hwait => step_busy_hostAccess hbusy hwait hin⟩⟩

/-! ### One access while BUSY -/

/-- R62: a write while BUSY is dropped. -/
theorem hostWrite_busy {s : State} (addr v : Word) (hbusy : s.run = .busy) : s.hostWrite addr v = s := by
  rw [State.hostWrite, hbusy]

theorem locate_statusAddr (p : Config.Params) : locate p statusAddr = .status := rfl

/-- R93: what STATUS reads as while a command runs. -/
theorem statusWord_busy_clear : statusWord .busy Status.clear = 0x00000001 := by decide

/-- R62: a read while BUSY returns one word, the true one at STATUS, and leaves the block. -/
theorem hostRead_busy {s : State} (addr : Word) (hbusy : s.run = .busy) :
    ∃ w n, s.hostRead addr = { s with replies := s.replies ++ [w], fresh := n } ∧
      (addr = statusAddr → w = statusWord .busy s.status) := by
  rcases hostRead_cases s addr with ⟨-, hne, h⟩ | ⟨hidle | rfl, h⟩
  · exact ⟨_, _, h, fun haddr => absurd haddr hne⟩
  · cases hidle.symm.trans hbusy
  · exact ⟨_, s.fresh, h, fun _ => by rw [locate_statusAddr, portRead, hbusy]⟩

/-- Settles O18: a write leaves the state, and the read of STATUS is true, which shows BUSY alone because the other
fields are clear while a command runs. -/
theorem accessesWhileBusy : Obligations.AccessesWhileBusy := by
  refine fun s addr rest hbusy hwait => ⟨fun v hin => ?_, fun hin => ?_⟩
  · rw [step_busy_hostAccess hbusy hwait hin]
    exact congrArg _ (hostWrite_busy (s := { s with inbox := rest, wait := s.wait - 1 }) addr v hbusy)
  · obtain ⟨w, n, hread, hstatus⟩ := hostRead_busy (s := { s with inbox := rest, wait := s.wait - 1 }) addr hbusy
    refine ⟨w, n, (step_busy_hostAccess hbusy hwait hin).trans (congrArg _ hread), fun haddr hs => ?_⟩
    obtain ⟨hclear, -⟩ := hs
    rw [hstatus haddr, hclear hbusy, statusWord_busy_clear]

/-! ### One access while IDLE -/

/-- R61: a read while IDLE returns what the place holds and changes nothing else. -/
theorem step_idle_read {s : State} {addr : Word} {rest : List HostOp} (hidle : s.run = .idle)
    (hin : s.inbox = .read addr :: rest) :
    step s = .next { s with inbox := rest, replies := s.replies ++ [portRead s (locate s.params addr)] } := by
  rw [step_idle_hostAccess hidle hin]
  rcases hostRead_cases { s with inbox := rest } addr with ⟨hbusy, -⟩ | ⟨-, h⟩
  · cases hidle.symm.trans hbusy
  · exact congrArg _ h

/-- R61: a write while IDLE is the store that the place takes. -/
theorem step_idle_write {s : State} {addr v : Word} {rest : List HostOp} (hidle : s.run = .idle)
    (hin : s.inbox = .write addr v :: rest) :
    step s = .next (portWrite { s with inbox := rest } v (locate s.params addr)) := by
  rw [step_idle_hostAccess hidle hin]
  simp only [State.hostAccess, State.hostWrite, hidle]

/-! ### The address map (R63) -/

/-- The set of R63's addresses that a place of the port stands for. -/
def InMap (p : Config.Params) (addr : Word) : PortLoc → Prop
  | .cmd | .ilen | .ft _ | .ibuf _ => Writable p addr
  | .status | .olen | .root | .node _ _ | .cb _ _ | .obuf _ => ReadOnly p addr
  | .misaligned | .reserved => ¬ Writable p addr ∧ ¬ ReadOnly p addr

theorem locate_inMap (p : Config.Params) (addr : Word) : InMap p addr (locate p addr) := by
  unfold locate
  extract_lets a
  repeat' split
  all_goals simp only [InMap, Writable, ReadOnly, ibufBase, obufBase] at *
  all_goals omega

/-- R61, R69: a write of a read-only, reserved or misaligned address is ignored. -/
theorem portWrite_of_not_writable {p : Config.Params} {addr : Word} (h : ¬ Writable p addr) (s : State) (v : Word) :
    portWrite s v (locate p addr) = s := by
  have hmap := locate_inMap p addr
  cases hl : locate p addr with rw [hl] at hmap
  | cmd | ilen | ft | ibuf => exact absurd hmap h
  | status | olen | root | node | cb | obuf | misaligned | reserved => rfl

/-- R61, R69: an address outside the map reads as 0. -/
theorem portRead_of_unmapped {p : Config.Params} {addr : Word} (hw : ¬ Writable p addr) (hr : ¬ ReadOnly p addr)
    (s : State) : portRead s (locate p addr) = 0 := by
  have hmap := locate_inMap p addr
  cases hl : locate p addr with rw [hl] at hmap
  | misaligned | reserved => rfl
  | cmd | ilen | ft | ibuf => exact absurd hmap hw
  | status | olen | root | node | cb | obuf => exact absurd hmap hr

/-- Settles O27: the address map finds no place that stores, or none at all. -/
theorem unmappedAccesses : Obligations.UnmappedAccesses := by
  refine fun s addr rest hidle _ => ⟨fun v hin hw => ?_, fun hin hw hr => ?_⟩
  · rw [step_idle_write hidle hin, portWrite_of_not_writable hw]
  · rw [step_idle_read hidle hin, portRead_of_unmapped hw hr]

/-- R5, R63: IBUF's addresses, which end before OBUF's begin. -/
theorem locate_ibuf {p : Config.Params} {a : Nat} (hp : p.Legal) (halign : a % 4 = 0) (ha : a < p.ibufSize) :
    locate p (BitVec.ofNat 32 (0x01000000 + a)) = .ibuf a := by
  obtain ⟨-, -, hmax, -⟩ := hp
  have haddr : (BitVec.ofNat 32 (0x01000000 + a)).toNat = 0x01000000 + a := by rw [BitVec.toNat_ofNat]; omega
  simp only [locate, haddr, ibufBase, obufBase]
  iterate 9 rw [if_neg (by omega)]
  rw [if_pos (by omega), Nat.add_sub_cancel_left]

theorem locate_obuf {p : Config.Params} {a : Nat} (hp : p.Legal) (halign : a % 4 = 0) (ha : a < p.obufSize) :
    locate p (BitVec.ofNat 32 (0x02000000 + a)) = .obuf a := by
  obtain ⟨-, -, himax, -, -, homax⟩ := hp
  have haddr : (BitVec.ofNat 32 (0x02000000 + a)).toNat = 0x02000000 + a := by rw [BitVec.toNat_ofNat]; omega
  simp only [locate, haddr, ibufBase, obufBase]
  iterate 10 rw [if_neg (by omega)]
  rw [if_pos (by omega), Nat.add_sub_cancel_left]

/-! ### The lanes (R64) -/

/-- Lane `k` of a word made of four bytes is byte `k`. -/
theorem laneOf_wordOfBytes (b : Nat → Byte) {k : Nat} (hk : k < 4) :
    laneOf (wordOfBytes (b 0) (b 1) (b 2) (b 3)) k = b k := by
  match k, hk with
  | 0, _ => exact BitVec.extractLsb'_append_eq_right
  | 1, _ => exact (BitVec.extractLsb'_append_eq_of_le (by decide)).trans BitVec.extractLsb'_append_eq_right
  | 2, _ =>
    exact (BitVec.extractLsb'_append_eq_of_le (by decide)).trans
      ((BitVec.extractLsb'_append_eq_of_le (by decide)).trans BitVec.extractLsb'_append_eq_right)
  | 3, _ =>
    exact (BitVec.extractLsb'_append_eq_of_le (by decide)).trans
      ((BitVec.extractLsb'_append_eq_of_le (by decide)).trans BitVec.extractLsb'_append_eq_left)

theorem laneOf_ibufWord (s : State) (a : Nat) {k : Nat} (hk : k < 4) : laneOf (ibufWord s a) k = s.ibufByte (a + k) :=
  laneOf_wordOfBytes (fun j => s.ibufByte (a + j)) hk

theorem laneOf_obufWord (s : State) (a : Nat) {k : Nat} (hk : k < 4) : laneOf (obufWord s a) k = s.obufByte (a + k) :=
  laneOf_wordOfBytes (fun j => s.obufByte (a + j)) hk

theorem bytesOfWord_getD (v : Word) {k : Nat} (hk : k < 4) : (bytesOfWord v).getD k 0 = laneOf v k := by
  match k, hk with
  | 0, _ | 1, _ | 2, _ | 3, _ => rfl

theorem ibufByte_portWrite_lane (s : State) (v : Word) (a : Nat) {k : Nat} (hk : k < 4) :
    (portWrite s v (.ibuf a)).ibufByte (a + k) = laneOf v k := by
  rw [portWrite, ibufByte_write, if_pos ⟨Nat.le_add_right a k, Nat.add_lt_add_left hk a⟩, Nat.add_sub_cancel_left,
    bytesOfWord_getD v hk]

theorem ibufByte_portWrite_other (s : State) (v : Word) {a c : Nat} (hc : c < a ∨ a + 4 ≤ c) :
    (portWrite s v (.ibuf a)).ibufByte c = s.ibufByte c := by
  rw [portWrite, ibufByte_write, if_neg (by simp only [bytesOfWord, List.length]; omega)]

/-- Settles O26: the address names one aligned word of the buffer, and both the word read and the bytes stored are
taken lane by lane. -/
theorem bufferWordLanes : Obligations.BufferWordLanes := by
  refine fun s a rest hidle hp halign =>
    ⟨fun ha => ⟨fun d hin => ?_, fun hin => ?_⟩, fun ha => ⟨fun hin => ?_, fun d hin => ?_⟩⟩
  · refine ⟨portWrite { s with inbox := rest } d (.ibuf a), ?_, rfl, fun k hk => ibufByte_portWrite_lane _ d a hk,
      fun c hc => ibufByte_portWrite_other _ d hc⟩
    rw [step_idle_write hidle hin, locate_ibuf hp halign ha]
  · refine ⟨ibufWord s a, ?_, fun k hk => laneOf_ibufWord s a hk⟩
    rw [step_idle_read hidle hin, locate_ibuf hp halign ha, portRead]
  · refine ⟨obufWord s a, ?_, fun k hk => laneOf_obufWord s a hk⟩
    rw [step_idle_read hidle hin, locate_obuf hp halign ha, portRead]
  · rw [step_idle_write hidle hin, locate_obuf hp halign ha, portWrite]

end Sys2Proof.Proofs
end

section
/-! The encoding of instructions (30_encoding R90 to R104): the ranges of the opcode map, and that decoding and encoding
undo each other. -/

namespace Sys2Proof.Proofs

open Sys2Proof.Machine Sys2Proof.Laws Sys2Proof.Safety

/-! ### The fixed bits of a row as a range -/

/-- R91: fixed bits that are a leading one at bit `k`, everything above it 0, are the range of the bytes that have `k`
free bits below that one. -/
theorem fixedBits_leadingOne (op : Byte) {k : Nat} (hk : k < 8) :
    fixedBits op (BitVec.allOnes 8 <<< k) (1#8 <<< k) = true ↔ op.toNat / 2 ^ k = 1 := by
  have hpow : 2 ^ k < 2 ^ 8 := Nat.pow_lt_pow_right (by decide) hk
  have hop : op.toNat / 2 ^ k * 2 ^ k < 2 ^ 8 := (Nat.div_mul_le_self _ _).trans_lt op.isLt
  rw [fixedBits, ← BitVec.shiftLeft_ushiftRight, beq_iff_eq, ← BitVec.toNat_inj, BitVec.toNat_shiftLeft,
    BitVec.toNat_shiftLeft, BitVec.toNat_ushiftRight, Nat.shiftRight_eq_div_pow, Nat.shiftLeft_eq, Nat.shiftLeft_eq,
    Nat.mod_eq_of_lt hop, BitVec.toNat_one (by decide), Nat.one_mul, Nat.mod_eq_of_lt hpow,
    Nat.mul_eq_right (by positivity)]

theorem fixedBits_08_0F (op : Byte) : fixedBits op 0xF8 0x08 = true ↔ op.toNat / 8 = 1 :=
  fixedBits_leadingOne op (k := 3) (by decide)

theorem fixedBits_10_1F (op : Byte) : fixedBits op 0xF0 0x10 = true ↔ op.toNat / 16 = 1 :=
  fixedBits_leadingOne op (k := 4) (by decide)

theorem fixedBits_20_3F (op : Byte) : fixedBits op 0xE0 0x20 = true ↔ op.toNat / 32 = 1 :=
  fixedBits_leadingOne op (k := 5) (by decide)

theorem fixedBits_40_7F (op : Byte) : fixedBits op 0xC0 0x40 = true ↔ op.toNat / 64 = 1 :=
  fixedBits_leadingOne op (k := 6) (by decide)

theorem fixedBits_80_FF (op : Byte) : fixedBits op 0x80 0x80 = true ↔ op.toNat / 128 = 1 :=
  fixedBits_leadingOne op (k := 7) (by decide)

/-! ### The opcode map (R91) -/

/-- R91: the opcodes above 7 go by their ranges. -/
theorem decodeOpcode_of_eight_le {op : Byte} (h : 8 ≤ op.toNat) :
    decodeOpcode op =
      if op.toNat / 8 = 1 then .illegal08_0F op
      else if op.toNat / 16 = 1 then .illegal10_1F op
      else if op.toNat / 32 = 1 then .illegal20_3F op
      else if op.toNat / 64 = 1 then .illegal40_7F op
      else .illegal80_FF op := by
  have hne : ∀ {c : Byte}, c.toNat < 8 → op ≠ c := fun hc heq => by rw [heq] at h; omega
  rw [decodeOpcode]
  iterate 8 rw [if_neg (hne (by decide))]
  simp only [fixedBits_08_0F, fixedBits_10_1F, fixedBits_20_3F, fixedBits_40_7F]

theorem decodeOpcode_08_0F {op : Byte} (h : op.toNat / 8 = 1) : decodeOpcode op = .illegal08_0F op := by
  rw [decodeOpcode_of_eight_le (by omega), if_pos h]

theorem decodeOpcode_10_1F {op : Byte} (h : op.toNat / 16 = 1) : decodeOpcode op = .illegal10_1F op := by
  rw [decodeOpcode_of_eight_le (by omega), if_neg (by omega), if_pos h]

theorem decodeOpcode_20_3F {op : Byte} (h : op.toNat / 32 = 1) : decodeOpcode op = .illegal20_3F op := by
  rw [decodeOpcode_of_eight_le (by omega), if_neg (by omega), if_neg (by omega), if_pos h]

theorem decodeOpcode_40_7F {op : Byte} (h : op.toNat / 64 = 1) : decodeOpcode op = .illegal40_7F op := by
  rw [decodeOpcode_of_eight_le (by omega), if_neg (by omega), if_neg (by omega), if_neg (by omega), if_pos h]

theorem decodeOpcode_80_FF {op : Byte} (h : op.toNat / 128 = 1) : decodeOpcode op = .illegal80_FF op := by
  rw [decodeOpcode_of_eight_le (by omega), if_neg (by omega), if_neg (by omega), if_neg (by omega), if_neg (by omega)]

/-- Settles O3: the commands are the map's own cases, and each range of illegal opcodes is its row's fixed bits. -/
theorem opcodeMap : Obligations.OpcodeMap := by
  refine ⟨⟨rfl, rfl, rfl, rfl, rfl, rfl⟩, rfl, rfl, fun op => ⟨fun hlo hhi => ?_, fun hlo hhi => ?_, fun hlo hhi => ?_,
    fun hlo hhi => ?_, fun hlo => ?_⟩⟩
  · exact decodeOpcode_08_0F (by omega)
  · exact decodeOpcode_10_1F (by omega)
  · exact decodeOpcode_20_3F (by omega)
  · exact decodeOpcode_40_7F (by omega)
  · exact decodeOpcode_80_FF (by omega)

/-- Settles O4: each unit is decoded as it is written out. -/
theorem writtenOutUnitsDecode : Obligations.WrittenOutUnitsDecode :=
  ⟨rfl, rfl, rfl, rfl, rfl, rfl, rfl, rfl, rfl⟩

/-! ### Decoding and encoding undo each other -/

/-- R90: the word the encoder writes for an opcode byte is decoded by the map. -/
theorem decode_cmdWord_setWidth (op : Byte) : decode (.cmdWord (op.setWidth 32)) = .ok (decodeOpcode op) := by
  rw [decode, opcodeOf_setWidth]

/-- Settles O1: an illegal opcode in its row's range is decoded to that row; every other unit is decoded by its own
case. -/
theorem decodeOfEncodeIsIdentity : Obligations.DecodeOfEncodeIsIdentity := by
  intro i hwf
  cases i with
  | count | build | walk | compile | encode | decode | illegal00 | illegal07 => rfl
  | illegal08_0F op => rw [encode, decode_cmdWord_setWidth, decodeOpcode_08_0F ((fixedBits_08_0F op).1 hwf)]
  | illegal10_1F op => rw [encode, decode_cmdWord_setWidth, decodeOpcode_10_1F ((fixedBits_10_1F op).1 hwf)]
  | illegal20_3F op => rw [encode, decode_cmdWord_setWidth, decodeOpcode_20_3F ((fixedBits_20_3F op).1 hwf)]
  | illegal40_7F op => rw [encode, decode_cmdWord_setWidth, decodeOpcode_40_7F ((fixedBits_40_7F op).1 hwf)]
  | illegal80_FF op => rw [encode, decode_cmdWord_setWidth, decodeOpcode_80_FF ((fixedBits_80_FF op).1 hwf)]
  | containerCount | containerEntrySym | containerEntryLen => rfl
  | containerPad pad => exact if_pos hwf

/-- R91: every opcode is decoded to a row that it lies in, and is what the encoder writes for that row. -/
theorem decodeOpcode_row (op : Byte) :
    (decodeOpcode op).wf = true ∧ encode (decodeOpcode op) = .cmdWord (op.setWidth 32) := by
  rcases Nat.lt_or_ge op.toNat 8 with h | h
  · obtain ⟨c, rfl⟩ : ∃ c : Fin 8, op = BitVec.ofNat 8 c := ⟨⟨_, h⟩, by simp⟩
    revert c
    decide
  · rw [decodeOpcode_of_eight_le h]
    split
    · next h8 => exact ⟨(fixedBits_08_0F op).2 h8, rfl⟩
    split
    · next h10 => exact ⟨(fixedBits_10_1F op).2 h10, rfl⟩
    split
    · next h20 => exact ⟨(fixedBits_20_3F op).2 h20, rfl⟩
    split
    · next h40 => exact ⟨(fixedBits_40_7F op).2 h40, rfl⟩
    · exact ⟨(fixedBits_80_FF op).2 (by omega), rfl⟩

/-- R22, R90: the opcode of a word is the word with its bits [31:8] cleared. -/
theorem setWidth_opcodeOf (v : Word) : (opcodeOf v).setWidth 32 = v &&& 0x000000FF := by
  refine BitVec.eq_of_toNat_eq ?_
  have hand : (v &&& 0x000000FF).toNat = v.toNat % 2 ^ 8 := Nat.and_two_pow_sub_one_eq_mod v.toNat 8
  rw [hand, opcodeOf, BitVec.toNat_setWidth, BitVec.extractLsb'_toNat, Nat.shiftRight_zero,
    Nat.mod_eq_of_lt (by omega)]

/-- Settles O2: a CMD word goes by its opcode, a container byte by its field, and only a PAD byte can be refused. -/
theorem encodeOfDecodeIsTheOpcode : Obligations.EncodeOfDecodeIsTheOpcode := by
  refine ⟨fun v => ?_, fun f b i h => ?_⟩
  · obtain ⟨hwf, henc⟩ := decodeOpcode_row (opcodeOf v)
    exact ⟨_, rfl, hwf, by rw [henc, setWidth_opcodeOf]⟩
  · cases f with
    | count | entrySym | entryLen => obtain rfl := Except.ok.inj h; exact ⟨rfl, rfl⟩
    | pad =>
      rw [decode] at h
      split at h
      · next hpad => obtain rfl := Except.ok.inj h; exact ⟨hpad, rfl⟩
      · cases h

/-! ### Illegal opcodes (R92) -/

/-- The instruction is the row of an illegal opcode that carries `op`. -/
def IsIllegalRow (op : Byte) (i : Instr) : Prop :=
  i = .illegal08_0F op ∨ i = .illegal10_1F op ∨ i = .illegal20_3F op ∨ i = .illegal40_7F op ∨ i = .illegal80_FF op

theorem decodeOpcode_isIllegalRow {op : Byte} (h : 8 ≤ op.toNat) : IsIllegalRow op (decodeOpcode op) := by
  rw [decodeOpcode_of_eight_le h, IsIllegalRow]
  split_ifs <;> simp

theorem exec_isIllegalRow {op : Byte} {i : Instr} (h : IsIllegalRow op i) (s : State) :
    exec i s = .next (s.raise (.illegalOpcode op)) := by
  rcases h with rfl | rfl | rfl | rfl | rfl <;> rfl

/-- R92: whichever row an illegal opcode lies in, it completes with its own failure. -/
theorem exec_decodeOpcode_illegal {op : Byte} (h : op = 0 ∨ 7 ≤ op.toNat) (s : State) :
    exec (decodeOpcode op) s = .next (s.raise (.illegalOpcode op)) := by
  rcases h with rfl | h7
  · rfl
  rcases Nat.eq_or_lt_of_le h7 with h | h8
  · obtain rfl : op = 7 := BitVec.eq_of_toNat_eq h.symm
    rfl
  · exact exec_isIllegalRow (decodeOpcode_isIllegalRow h8) s

/-- Settles O57: every illegal row raises the same failure, and the CMD write that starts it is accepted like any
other. -/
theorem illegalOpcodesFail : Obligations.IllegalOpcodesFail := by
  refine fun s => ⟨fun op hop => exec_decodeOpcode_illegal hop s, rfl, rfl, fun op i hi => exec_isIllegalRow hi s,
    fun op hi rest hidle hin _ => ?_⟩
  obtain ⟨t, hstep, ht⟩ := cmdWriteStartsCommand s (hi ++ op) rest hidle hin
  refine ⟨t, hstep, ?_⟩
  rw [ht]
  exact ⟨BitVec.extractLsb'_append_eq_right, rfl, rfl⟩

end Sys2Proof.Proofs
end

section
/-! The words of the registers on the Host port (30_encoding R93 to R97, R108): where the address map finds a register
and what its word says field by field. -/

namespace Sys2Proof.Proofs

open Sys2Proof.Machine Sys2Proof.Laws Sys2Proof.Safety

/-! ### Fields of a word as arithmetic -/

/-- A word laid out as two fields is the sum of the fields, the upper one shifted. -/
theorem append_toNat {m n : Nat} (x : BitVec m) (y : BitVec n) : (x ++ y).toNat = x.toNat * 2 ^ n + y.toNat := by
  rw [BitVec.toNat_append, ← Nat.shiftLeft_add_eq_or_of_lt y.isLt, Nat.shiftLeft_eq]

theorem extractLsb'_eq_of_div_mod {v : Word} {k len : Nat} {x : BitVec len} (h : v.toNat / 2 ^ k % 2 ^ len = x.toNat) :
    v.extractLsb' k len = x :=
  BitVec.eq_of_toNat_eq (by rw [BitVec.extractLsb'_toNat, Nat.shiftRight_eq_div_pow, h])

theorem getLsbD_eq_of_div_mod {v : Word} {k : Nat} {b : Bool} (h : v.toNat / 2 ^ k % 2 = b.toNat) :
    v.getLsbD k = b := by
  rw [BitVec.getLsbD, Nat.testBit_eq_decide_div_mod_eq, h]
  cases b <;> rfl

/-! ### STATUS (R93) and the poll of it (R108) -/

/-- R62, R93: a read of STATUS is true, BUSY or not. -/
theorem hostRead_statusAddr (s : State) : s.hostRead statusAddr = s.reply (statusWord s.run s.status) := by
  rcases hostRead_cases s statusAddr with ⟨-, hne, -⟩ | ⟨-, h⟩
  · exact absurd rfl hne
  · rw [h, locate_statusAddr, portRead]

theorem hostWait_idle {s : State} (hidle : s.run = .idle) : s.hostWait = s.reply (statusWord s.run s.status) := by
  rw [State.hostWait, hostRead_statusAddr]
  simp only [hidle]

theorem hostWait_busy {s : State} (hbusy : s.run = .busy) :
    s.hostWait = { s.reply (statusWord s.run s.status) with inbox := .wait :: s.inbox } := by
  rw [State.hostWait, hostRead_statusAddr]
  simp only [hbusy, reply_inbox]

/-- Settles O19: the poll is a read of STATUS, and while BUSY it puts itself back at the head of the Host's queue. -/
theorem waitPollsStatus : Obligations.WaitPollsStatus := by
  refine fun s rest hin => ⟨fun hbusy hwait => ?_, fun hidle => ?_⟩
  · rw [step_busy_hostAccess hbusy hwait hin, hin]
    exact congrArg _ (hostWait_busy (s := { s with inbox := rest, wait := s.wait - 1 }) hbusy)
  · rw [step_idle_hostAccess hidle hin]
    exact congrArg _ (hostWait_idle (s := { s with inbox := rest }) hidle)

/-- R93: the STATUS word as the sum of its fields. -/
theorem statusWord_toNat (run : Run) (st : Status) :
    (statusWord run st).toNat = st.detail.toNat * 2 ^ 16 + st.sub.toNat * 2 ^ 12 + st.kind.toNat * 2 ^ 8 +
      st.error.toNat * 4 + st.done.toNat * 2 + (run == .busy).toNat := by
  have hbusy : run.busyBit.toNat = (run == .busy).toNat := by cases run <;> rfl
  simp only [statusWord, flagBit, append_toNat, BitVec.toNat_ofBool, BitVec.toNat_ofNat, hbusy]
  omega

/-- R93: every field of the STATUS word, from its place in the sum. -/
theorem statusWord_fields (run : Run) (st : Status) :
    (statusWord run st).getLsbD 0 = (run == .busy) ∧ (statusWord run st).getLsbD 1 = st.done ∧
    (statusWord run st).getLsbD 2 = st.error ∧ (statusWord run st).extractLsb' 3 5 = 0 ∧
    (statusWord run st).extractLsb' 8 4 = st.kind ∧ (statusWord run st).extractLsb' 12 4 = st.sub ∧
    (statusWord run st).extractLsb' 16 8 = st.detail ∧ (statusWord run st).extractLsb' 24 8 = 0 := by
  have hsum := statusWord_toNat run st
  have hzero5 : (0 : BitVec 5).toNat = 0 := rfl
  have hzero8 : (0 : BitVec 8).toNat = 0 := rfl
  have hbusy := (run == .busy).toNat_lt
  have hdone := st.done.toNat_lt
  have herror := st.error.toNat_lt
  refine ⟨getLsbD_eq_of_div_mod ?_, getLsbD_eq_of_div_mod ?_, getLsbD_eq_of_div_mod ?_, extractLsb'_eq_of_div_mod ?_,
    extractLsb'_eq_of_div_mod ?_, extractLsb'_eq_of_div_mod ?_, extractLsb'_eq_of_div_mod ?_,
    extractLsb'_eq_of_div_mod ?_⟩
  all_goals omega

/-- R220: the kinds are 1 to 6. -/
theorem kindCode_range (f : Failure) : 1 ≤ f.kindCode.toNat ∧ f.kindCode.toNat ≤ 6 := by
  cases f <;> simp [Failure.kindCode]

/-- R93: what STATUS shows after a failure. -/
theorem statusWord_failure_toNat (f : Failure) :
    (statusWord .idle (Status.ofResult (some f))).toNat =
      f.detailByte.toNat * 2 ^ 16 + f.subCode.toNat * 2 ^ 12 + f.kindCode.toNat * 2 ^ 8 + 6 := by
  simp [statusWord_toNat, Status.ofResult]

/-- R93: the only words a legal STATUS shows. -/
theorem statusWord_of_statusInv {s : State} (h : StatusInv s) :
    statusWord s.run s.status = 0x00000000 ∨ statusWord s.run s.status = 0x00000001 ∨
      statusWord s.run s.status = 0x00000002 ∨
      ∃ f : Failure, 1 ≤ f.kindCode.toNat ∧ f.kindCode.toNat ≤ 6 ∧ (statusWord s.run s.status).toNat =
        f.detailByte.toNat * 2 ^ 16 + f.subCode.toNat * 2 ^ 12 + f.kindCode.toNat * 2 ^ 8 + 6 := by
  obtain ⟨hclear, hlegal⟩ := h
  cases hrun : s.run with
  | busy => exact .inr (.inl (by rw [hclear hrun, statusWord_busy_clear]))
  | idle =>
    rcases hlegal with hst | ⟨_ | f, hst⟩ <;> rw [hst]
    · exact .inl (by decide)
    · exact .inr (.inr (.inl (by decide)))
    · obtain ⟨hlo, hhi⟩ := kindCode_range f
      exact .inr (.inr (.inr ⟨f, hlo, hhi, statusWord_failure_toNat f⟩))

/-- Settles O21: the read is true whatever RUN is, and the word is the sum of its fields. -/
theorem statusReadFormat : Obligations.StatusReadFormat := by
  intro s rest hturn hin
  obtain ⟨n, hstep⟩ := step_hostAccess hin hturn
  obtain ⟨hbusy, hdone, herror, hlow, hkind, hsub, hdetail, hhigh⟩ := statusWord_fields s.run s.status
  exact ⟨_, statusWord s.run s.status, hstep, congrArg State.replies (hostRead_statusAddr _), hbusy, hdone, herror, hlow,
    hkind, hsub, hdetail, hhigh, statusWord_of_statusInv⟩

/-! ### The scalar registers (R94) -/

/-- Settles O20: each address names its register, and a read returns what the register holds. -/
theorem scalarRegisterAccesses : Obligations.ScalarRegisterAccesses := by
  refine fun s addr rest hidle => ⟨fun hin => ⟨_, step_idle_read hidle hin, ?_, ?_, ?_, ?_⟩, fun d hin => ?_⟩
  · rintro rfl
    exact BitVec.toNat_setWidth_of_le (by decide)
  · rintro rfl; rfl
  · rintro rfl; rfl
  · rintro rfl
    exact BitVec.toNat_setWidth_of_le (by decide)
  · exact step_idle_write hidle hin

/-! ### FT, NODE and CB (R95 to R97) -/

theorem locate_ft (p : Config.Params) {i : Nat} (hi : i < 256) :
    locate p (BitVec.ofNat 32 (0x400 + 4 * i)) = .ft i := by
  have haddr : (BitVec.ofNat 32 (0x400 + 4 * i)).toNat = 0x400 + 4 * i := by rw [BitVec.toNat_ofNat]; omega
  have hindex : (0x400 + 4 * i - 0x400) / 4 = i := by omega
  simp only [locate, haddr]
  iterate 6 rw [if_neg (by omega)]
  rw [if_pos (by omega), hindex]

theorem locate_node (p : Config.Params) {i w : Nat} (hi : i < 511) (hw : w < 4) :
    locate p (BitVec.ofNat 32 (0x2000 + 16 * i + 4 * w)) = .node i w := by
  have haddr : (BitVec.ofNat 32 (0x2000 + 16 * i + 4 * w)).toNat = 0x2000 + 16 * i + 4 * w := by
    rw [BitVec.toNat_ofNat]; omega
  have hindex : (0x2000 + 16 * i + 4 * w - 0x2000) / 16 = i := by omega
  have hword : (0x2000 + 16 * i + 4 * w - 0x2000) % 16 / 4 = w := by omega
  simp only [locate, haddr]
  iterate 7 rw [if_neg (by omega)]
  rw [if_pos (by omega), hindex, hword]

theorem locate_cb (p : Config.Params) {i w : Nat} (hi : i < 256) (hw : w ≤ 8) :
    locate p (BitVec.ofNat 32 (0x4000 + 64 * i + 4 * w)) = .cb i w := by
  have haddr : (BitVec.ofNat 32 (0x4000 + 64 * i + 4 * w)).toNat = 0x4000 + 64 * i + 4 * w := by
    rw [BitVec.toNat_ofNat]; omega
  have hindex : (0x4000 + 64 * i + 4 * w - 0x4000) / 64 = i := by omega
  have hword : (0x4000 + 64 * i + 4 * w - 0x4000) % 64 / 4 = w := by omega
  simp only [locate, haddr]
  iterate 8 rw [if_neg (by omega)]
  rw [if_pos (by omega), hindex, hword]

/-- Settles O23: the address names the counter of its symbol, and a store to one counter leaves the others. -/
theorem ftWordReadAndWrite : Obligations.FtWordReadAndWrite := by
  refine fun s b rest hidle => ⟨fun d hin => ?_, fun hin => ?_⟩
  · refine ⟨{ s with inbox := rest, ft := ftPut s.ft b.toNat d }, ?_, rfl, ?_, fun j hj => ?_⟩
    · rw [step_idle_write hidle hin, locate_ft _ b.isLt, portWrite]
    · rw [ftGet_ftPut, if_pos rfl]
    · rw [ftGet_ftPut, if_neg hj]
  · rw [step_idle_read hidle hin, locate_ft _ b.isLt, portRead]

/-- R96: FREQ takes a word and the low byte of the next. -/
theorem nodeWord_freqLow_toNat (r : Node) : (nodeWord r 0).toNat = r.freq.toNat % 2 ^ 32 := by
  rw [nodeWord, BitVec.extractLsb'_toNat, Nat.shiftRight_zero]

theorem nodeWord_freqHigh_toNat (r : Node) : (nodeWord r 1).toNat = r.freq.toNat / 2 ^ 32 := by
  rw [nodeWord, BitVec.toNat_setWidth, BitVec.extractLsb'_toNat, Nat.shiftRight_eq_div_pow]
  omega

theorem nodeWord_children_toNat (r : Node) : (nodeWord r 2).toNat = r.left.toNat + 2 ^ 16 * r.right.toNat := by
  simp only [nodeWord, append_toNat, BitVec.toNat_ofNat]
  omega

theorem nodeWord_used_toNat (r : Node) : (nodeWord r 3).toNat = r.used.toNat := by
  rw [nodeWord, flagBit, BitVec.toNat_setWidth_of_le (by decide), BitVec.toNat_ofBool]

/-- Settles O24: the address names one word of one slot, and each word is the sum of its fields. -/
theorem nodeWordFormat : Obligations.NodeWordFormat := by
  refine fun s i w rest hidle hi hw hin => ⟨nodeWord (nodeGet s.node i) w, ?_, ?_, ?_, ?_, ?_⟩
  · rw [step_idle_read hidle hin, locate_node _ hi hw, portRead]
  · rintro rfl; exact nodeWord_freqLow_toNat _
  · rintro rfl; exact nodeWord_freqHigh_toNat _
  · rintro rfl; exact nodeWord_children_toNat _
  · rintro rfl; exact nodeWord_used_toNat _

theorem cbWord_zero_toNat (r : CbRec) : (cbWord r 0).toNat = r.len.toNat + 2 ^ 31 * r.valid.toNat := by
  simp only [cbWord, flagBit, append_toNat, BitVec.toNat_ofBool, BitVec.toNat_ofNat]
  omega

/-- R97: code bit `32w + j` is bit `j` of word `w + 1`. -/
theorem cbWord_succ_getLsbD (r : CbRec) {w j : Nat} (hw : w < 8) (hj : j < 32) :
    (cbWord r (w + 1)).getLsbD j = r.bits.getLsbD (32 * w + j) := by
  rw [cbWord, if_pos hw, BitVec.getLsbD_extractLsb', decide_eq_true hj, Bool.true_and]

/-- Settles O25: the address names one word of one record, and the code bits stand in order in the words after the
first. -/
theorem cbWordFormat : Obligations.CbWordFormat := by
  refine fun s b w rest hidle hw hin => ⟨cbWord (cbGet s.cb b.toNat) w, ?_, ?_, fun hpos k hk => ?_⟩
  · rw [step_idle_read hidle hin, locate_cb _ b.isLt hw, portRead]
  · rintro rfl; exact cbWord_zero_toNat _
  · obtain ⟨w, rfl⟩ := Nat.exists_eq_add_of_le' hpos
    have hbit : 32 * w + k % 32 = k := by omega
    rw [cbWord_succ_getLsbD _ (by omega) (by omega), hbit]

end Sys2Proof.Proofs
end

section
/-! The exact counters of COUNT (40_count R120, R121) and the frame of every command (40_count R120, 41_build R130,
42_walk_compile R150 and R151, 43_encode R171, 44_decode R191). -/

namespace Sys2Proof.Proofs

open Sys2Proof.Machine Sys2Proof.Laws Sys2Proof.Safety

/-! ### The commands behind the length check of R224 -/

theorem exec_count_eq_ite (s : State) :
    exec .count s = .next (if s.lengthBad then s.raise .illegalLength else (countStage s).complete none) := by
  simp only [exec, execCount]
  split <;> rfl

theorem exec_compile_eq_ite (s : State) :
    exec .compile s = .next (if s.lengthBad then s.raise .illegalLength
      else (walkStage (buildStage (countStage s))).complete
        (firstFailure (buildFailure (countBytes s.input)) (walkFailure (buildTree (countBytes s.input)).2))) := by
  simp only [exec, execCompile]
  split <;> rfl

/-! ### The table COUNT leaves -/

section Counters

variable {data : List Byte} (hlt : data.length < 2 ^ 32)
include hlt

/-- R121: of an input shorter than 2^32 bytes no counter wraps. -/
theorem ftGet_countBytes_toNat (i : Nat) :
    (ftGet (countBytes data) i).toNat = (data.map BitVec.toNat).count i := by
  have hcount : (data.countP fun b => b.toNat = i) = (data.map BitVec.toNat).count i := by
    rw [List.count_eq_countP, List.countP_map]
    exact List.countP_congr fun b _ => by simp
  have hle : (data.map BitVec.toNat).count i ≤ data.length := List.count_le_length.trans_eq (List.length_map _)
  rw [ftGet_countBytes, hcount, BitVec.toNat_ofNat, Nat.mod_eq_of_lt (hle.trans_lt hlt)]

theorem ftGet_countBytes_byte (b : Byte) : (ftGet (countBytes data) b.toNat).toNat = data.count b := by
  rw [ftGet_countBytes_toNat hlt, List.count_map_of_injective _ _ fun _ _ => BitVec.eq_of_toNat_eq]

theorem ftTotal_countBytes : ftTotal (countBytes data) = data.length := by
  have hsyms : ∀ i ∈ (data.map BitVec.toNat : Multiset Nat), i ∈ Finset.range 256 := by
    simp only [Multiset.mem_coe, List.mem_map, Finset.mem_range]
    rintro _ ⟨b, -, rfl⟩
    exact b.isLt
  calc ftTotal (countBytes data)
      = ∑ i ∈ Finset.range 256, (data.map BitVec.toNat : Multiset Nat).count i := by
        simp only [ftTotal, ftGet_countBytes_toNat hlt, Multiset.coe_count]
        rw [← List.toFinset_range, List.sum_toFinset _ List.nodup_range]
    _ = data.length := by rw [Multiset.sum_count_eq_card hsyms, Multiset.coe_card, List.length_map]

theorem mem_presentSyms_countBytes {i : Nat} : i ∈ presentSyms (countBytes data) ↔ i ∈ data.map BitVec.toNat := by
  have hne : ftGet (countBytes data) i ≠ 0 ↔ i ∈ data.map BitVec.toNat := by
    rw [← List.count_pos_iff, ← ftGet_countBytes_toNat hlt, Nat.pos_iff_ne_zero, ne_eq, ← BitVec.toNat_inj]
    rfl
  rw [mem_presentSyms, hne, and_iff_right_iff_imp, List.mem_map]
  rintro ⟨b, -, rfl⟩
  exact b.isLt

/-- The symbols that appear are the distinct bytes of the input. -/
theorem presentSyms_countBytes_length : (presentSyms (countBytes data)).length = data.dedup.length := by
  have hperm : (presentSyms (countBytes data)).Perm (data.map BitVec.toNat).dedup :=
    (List.perm_ext_iff_of_nodup (presentSyms_nodup _) (List.nodup_dedup _)).2 fun i => by
      rw [mem_presentSyms_countBytes hlt, List.mem_dedup]
  rw [hperm.length_eq, List.dedup_map_of_injective fun _ _ => BitVec.eq_of_toNat_eq, List.length_map]

end Counters

/-- Settles O28: COUNT does not fail, and with ILEN below 2^32 no counter of the input's bytes wraps. -/
theorem countFillsTable : Obligations.CountFillsTable := by
  intro s hlen
  have hlt : s.input.length < 2 ^ 32 := input_length s ▸ s.ilen.isLt
  refine ⟨(countStage s).complete none, ?_, rfl, ftGet_countBytes_byte hlt, ?_, presentSyms_countBytes_length hlt⟩
  · rw [exec_count_eq_ite, (lengthBad_eq_false s).2 hlen]; rfl
  · exact (ftTotal_countBytes hlt).trans (input_length s)

/-! ### The frame of every command -/

/-- Settles O59: COUNT and COMPILE raise or run their stages, BUILD and WALK run theirs, ENCODE and DECODE commit; each
of these writes its own outputs. -/
theorem commandsTouchOnlyTheirOutputs : Obligations.CommandsTouchOnlyTheirOutputs := by
  refine fun s t => ⟨fun h => ?count, fun h => ?build, fun h => ?walk, fun h => ?compile, ?commit⟩
  case count =>
    obtain rfl := Host.Outcome.next.inj ((exec_count_eq_ite s).symm.trans h)
    split <;> rfl
  case build =>
    obtain rfl := Host.Outcome.next.inj h
    rfl
  case walk =>
    obtain rfl := execWalk_eq h
    rfl
  case compile =>
    obtain rfl := Host.Outcome.next.inj ((exec_compile_eq_ite s).symm.trans h)
    split <;> rfl
  case commit =>
    rintro (h | h) <;> obtain rfl := Host.Outcome.next.inj h
    · exact commit_frame s (encodeResult s)
    · exact commit_frame s (decodeResult s)

end Sys2Proof.Proofs
end

section
/-! BUILD as a command (41_build R130, R134, R135, R137): what it completes with, the tree over exactly the table's
symbols, and the two smallest tables; with it the empty input of WALK and COMPILE (60_exceptions R226). -/

namespace Sys2Proof.Proofs

open Sys2Proof.Machine Sys2Proof.Laws Sys2Proof.Safety

/-! ### No symbol (R135, R226) -/

theorem presentSyms_eq_nil {ft : Table Word} : presentSyms ft = [] ↔ ∀ i, i < 256 → ftGet ft i = 0 := by
  simp [List.eq_nil_iff_forall_not_mem, mem_presentSyms]

theorem presentSyms_nil : presentSyms [] = [] := presentSyms_eq_nil.2 fun i _ => ftGet_nil i

theorem buildTree_of_no_symbol {ft : Table Word} (h : presentSyms ft = []) :
    buildTree ft = ([], Config.noNode) := by
  simp [buildTree, leaves, h, mergeLoop, rootOf]

theorem exec_build_of_no_symbol {s : State} (h : presentSyms s.ft = []) :
    exec .build s = .next { s with
      node := [], root := Config.noNode, run := .idle, status := failStatus 1 0 0, scan := Scan.empty } := by
  simp only [exec, execBuild, buildStage, buildTree_of_no_symbol h, buildFailure, if_pos h]
  rfl

theorem walkTree_noNode (nd : Table Node) : walkTree nd Config.noNode = [] := if_pos rfl

theorem exec_walk_of_no_root {s : State} (h : s.root = Config.noNode) :
    exec .walk s = .next { s with cb := [], run := .idle, status := failStatus 1 0 0, scan := Scan.empty } := by
  simp only [exec, execWalk, walkStage, walkFailure, h, walkTree_noNode, if_true]
  rfl

theorem countBytes_input_of_no_byte {s : State} (h : s.ilen = 0) : countBytes s.input = [] := by
  rw [List.eq_nil_of_length_eq_zero (l := s.input) (by rw [input_length, h]; rfl)]; rfl

theorem exec_compile_of_no_byte {s : State} (h : s.ilen = 0) :
    exec .compile s = .next { s with
      ft := [], node := [], root := Config.noNode, cb := []
      run := .idle, status := failStatus 1 0 0, scan := Scan.empty } := by
  have hfits : s.lengthBad = false := (lengthBad_eq_false s).2 (by rw [h]; exact Nat.zero_le _)
  simp only [exec_compile_eq_ite, hfits, walkStage, buildStage, countStage, countBytes_input_of_no_byte h,
    buildTree_of_no_symbol presentSyms_nil, walkTree_noNode, buildFailure, if_pos presentSyms_nil]
  rfl

/-- Settles O30: with no symbol BUILD leaves the empty arena and ROOT = NONE, from which WALK leaves the empty codebook;
COMPILE of no byte does both from the empty table COUNT leaves. -/
theorem emptyInputLeavesNothingStale : Obligations.EmptyInputLeavesNothingStale := fun _ =>
  ⟨fun hft => ⟨_, exec_build_of_no_symbol (presentSyms_eq_nil.2 hft), nodeGet_nil, rfl, rfl⟩,
    fun hroot => ⟨_, exec_walk_of_no_root hroot, cbGet_nil, rfl⟩,
    fun hlen => ⟨_, exec_compile_of_no_byte hlen, ftGet_nil, nodeGet_nil, rfl, cbGet_nil, rfl⟩⟩

/-! ### Some symbol -/

/-- A BUILD that finds a symbol writes NODE and ROOT and does not fail. -/
theorem exec_build_of_some_symbol {s : State} (h : presentSyms s.ft ≠ []) :
    exec .build s = .next { s with
      node := (buildTree s.ft).1, root := (buildTree s.ft).2
      run := .idle, status := okStatus, scan := Scan.empty } := by
  simp only [exec, execBuild, buildFailure, if_neg h]
  rfl

/-- Settles O32: the loop ends with a forest of one root, in which the slots below 256 are as the leaves were placed. -/
theorem buildMakesTree : Obligations.BuildMakesTree := by
  rintro s ⟨x, hx, hne⟩
  have hsyms : presentSyms s.ft ≠ [] := List.ne_nil_of_mem (mem_presentSyms.2 ⟨hx, hne⟩)
  obtain ⟨_, _, -, hf⟩ := buildTree_forest hsyms
  refine ⟨_, exec_build_of_some_symbol hsyms, buildTree_isTree hsyms, fun i hi => ?used, fun i hi hne => ?freq,
    hf.unused, rfl⟩
  case used => rw [hf.leaf i hi, leaves_used, mem_presentSyms, and_iff_right hi]
  case freq => rw [hf.leaf i hi, nodeGet_leaves, if_pos (mem_presentSyms.2 ⟨hi, hne⟩)]; rfl

/-! ### One symbol (R134) -/

theorem presentSyms_eq_singleton {ft : Table Word} {x : Nat} (hx : x < 256) (hne : ftGet ft x ≠ 0)
    (hother : ∀ i, i < 256 → i ≠ x → ftGet ft i = 0) : presentSyms ft = [x] := by
  refine List.perm_singleton.1
    ((List.perm_ext_iff_of_nodup (presentSyms_nodup ft) (List.nodup_singleton x)).2 fun i => ?_)
  rw [mem_presentSyms, List.mem_singleton]
  constructor
  · rintro ⟨hi, hi0⟩
    by_contra h
    exact hi0 (hother i hi h)
  · rintro rfl
    exact ⟨hx, hne⟩

/-- R134: the loop does not run, and the single leaf is the root. -/
theorem buildTree_of_one_symbol {ft : Table Word} {x : Nat} (h : presentSyms ft = [x]) :
    buildTree ft = (leaves ft, BitVec.ofNat 9 x) := by
  simp [buildTree, h, mergeLoop, argmin, without, rootOf]

/-- Settles O31: the arena is the one leaf. -/
theorem buildOfOneSymbol : Obligations.BuildOfOneSymbol := by
  intro s x hx hne hother
  have hsyms := presentSyms_eq_singleton hx hne hother
  refine ⟨_, exec_build_of_some_symbol (by simp [hsyms]), ?root, ?leaf, fun i hi => ?unused, rfl⟩ <;>
    simp only [buildTree_of_one_symbol hsyms, nodeGet_leaves, hsyms, List.mem_singleton]
  case root => exact Nat.mod_eq_of_lt (by omega)
  case leaf => exact if_pos trivial
  case unused => exact if_neg hi

/-! ### Equal tables (R137) -/

section Equal

variable {ft gt : Table Word} (h : ∀ i, i < 256 → ftGet ft i = ftGet gt i)
include h

theorem presentSyms_congr : presentSyms ft = presentSyms gt :=
  List.filter_congr fun i hi => by rw [h i (List.mem_range.1 hi)]

theorem leaves_congr : leaves ft = leaves gt := by
  unfold leaves
  rw [presentSyms_congr h]
  exact List.foldl_ext _ _ _ fun nd i hi => by rw [h i (mem_presentSyms.1 hi).1]

theorem buildTree_congr : buildTree ft = buildTree gt := by
  unfold buildTree
  rw [presentSyms_congr h, leaves_congr h]

theorem buildFailure_congr : buildFailure ft = buildFailure gt := by
  unfold buildFailure
  rw [presentSyms_congr h]

end Equal

/-- Settles O35: the symbols, the leaves and the loop read FT only through its counters. -/
theorem buildIsAFunctionOfTheTable : Obligations.BuildIsAFunctionOfTheTable := by
  intro s u h
  refine ⟨_, _, rfl, rfl, fun i => ?node, ?root, ?status⟩
  case node => rw [complete_node, complete_node, buildStage_node, buildStage_node, buildTree_congr h]
  case root => rw [complete_root, complete_root, buildStage_root, buildStage_root, buildTree_congr h]
  case status => rw [complete_status, complete_status, buildFailure_congr h]

end Sys2Proof.Proofs
end

section
/-! The order and the weight of BUILD's merges (41_build R130 to R133, R136): each takes the two least keys of
the nodes then live, and the live nodes always weigh the whole table, which 40 bits hold. -/

namespace Sys2Proof.Proofs

open Sys2Proof.Machine Sys2Proof.Laws Sys2Proof.Safety

/-! ### The order of extraction (R132) -/

theorem keyLt_iff {nd : Table Node} {i j : Nat} : keyLt nd i j = true ↔ ExtractedBefore nd i j := by
  simp [keyLt, ExtractedBefore, BitVec.lt_def, BitVec.toNat_eq]

theorem extractedBefore_trans {nd : Table Node} {i j l : Nat} (hij : ExtractedBefore nd i j)
    (hjl : ExtractedBefore nd j l) : ExtractedBefore nd i l := by
  unfold ExtractedBefore at *
  omega

theorem extractedBefore_of_not {nd : Table Node} {i j : Nat} (hne : i ≠ j) (h : ¬ ExtractedBefore nd j i) :
    ExtractedBefore nd i j := by
  unfold ExtractedBefore at *
  omega

/-- `argmin` of the key is extracted before every other member. -/
theorem argmin_extractedBefore {nd : Table Node} {live : List Nat} {a c : Nat} (ha : argmin nd live = some a)
    (hc : c ∈ live) (hne : c ≠ a) : ExtractedBefore nd a c := by
  induction live generalizing a with
  | nil => cases hc
  | cons i rest ih =>
    unfold argmin at ha
    split at ha
    · next hrest =>
      obtain rfl := Option.some.inj ha
      rw [argmin_eq_none.1 hrest, List.mem_singleton] at hc
      exact absurd hc hne
    · next j hj =>
      split at ha <;> obtain rfl := Option.some.inj ha
      · next hij =>
        have hij := keyLt_iff.1 hij
        by_cases hcj : c = j
        · exact hcj ▸ hij
        · exact extractedBefore_trans hij (ih hj ((List.mem_cons.1 hc).resolve_left hne) hcj)
      · next hij =>
        rcases List.mem_cons.1 hc with rfl | hc
        · exact extractedBefore_of_not hne.symm (mt keyLt_iff.2 hij)
        · exact ih hj hc hne

/-! ### One merge -/

/-- Slot `c` was live when slot `n` was made: made before `n`, and child of no earlier slot. -/
def LiveAt (nd : Table Node) (n c : Nat) : Prop :=
  c < n ∧ (nodeGet nd c).used = true ∧ ∀ i, i < n → ¬ ParentOf nd i c

/-- R130, R132, R133: slot `n` is the merge of the two least keys of its time, and its FREQ is their exact sum. -/
structure LeastMerge (nd : Table Node) (n : Nat) : Prop where
  leftLive : LiveAt nd n (nodeGet nd n).left.toNat
  rightLive : LiveAt nd n (nodeGet nd n).right.toNat
  order : ExtractedBefore nd (nodeGet nd n).left.toNat (nodeGet nd n).right.toNat
  least : ∀ c, LiveAt nd n c → c ≠ (nodeGet nd n).left.toNat → c ≠ (nodeGet nd n).right.toNat →
    ExtractedBefore nd (nodeGet nd n).right.toNat c
  exactSum : (nodeGet nd n).freq.toNat =
    (nodeGet nd (nodeGet nd n).left.toNat).freq.toNat + (nodeGet nd (nodeGet nd n).right.toNat).freq.toNat

section Earlier

variable {nd nd' : Table Node} {n : Nat} (h : ∀ i, i < n → nodeGet nd' i = nodeGet nd i)
include h

theorem liveAt_congr {c : Nat} : LiveAt nd' n c ↔ LiveAt nd n c := by
  unfold LiveAt ParentOf
  refine and_congr_right fun hc => ?_
  rw [h c hc]
  exact and_congr_right fun _ => forall₂_congr fun i hi => by rw [h i hi]

theorem extractedBefore_congr {i j : Nat} (hi : i < n) (hj : j < n) :
    ExtractedBefore nd' i j ↔ ExtractedBefore nd i j := by
  unfold ExtractedBefore
  rw [h i hi, h j hj]

/-- A merge is judged by its own slot and the earlier ones, so later merges leave it as it is. -/
theorem LeastMerge.congr (hm : LeastMerge nd n) (hn : nodeGet nd' n = nodeGet nd n) : LeastMerge nd' n := by
  have hl := hm.leftLive.1
  have hr := hm.rightLive.1
  constructor <;> rw [hn]
  · exact (liveAt_congr h).2 hm.leftLive
  · exact (liveAt_congr h).2 hm.rightLive
  · exact (extractedBefore_congr h hl hr).2 hm.order
  · exact fun c hc hcl hcr => (extractedBefore_congr h hr hc.1).2 (hm.least c ((liveAt_congr h).1 hc) hcl hcr)
  · rw [h _ hl, h _ hr]
    exact hm.exactSum

end Earlier

/-! ### The weight of the live nodes (R136) -/

/-- What a list of slots weighs. -/
def weightOf (nd : Table Node) (live : List Nat) : Nat := (live.map fun j => (nodeGet nd j).freq.toNat).sum

theorem perm_cons_without {live : List Nat} (hnd : live.Nodup) {a : Nat} (ha : a ∈ live) :
    live.Perm (a :: without live a) := by
  have herase : live.erase a = without live a := by
    rw [hnd.erase_eq_filter]; exact List.filter_congr fun j _ => by rw [Bool.eq_iff_iff]; simp
  exact herase ▸ List.perm_cons_erase ha

theorem weightOf_without {nd : Table Node} {live : List Nat} (hnd : live.Nodup) {a : Nat} (ha : a ∈ live) :
    weightOf nd live = (nodeGet nd a).freq.toNat + weightOf nd (without live a) := by
  rw [weightOf, ((perm_cons_without hnd ha).map _).sum_eq, List.map_cons, List.sum_cons, weightOf]

theorem weightOf_nodePut_of_not_mem {nd : Table Node} {live : List Nat} {n : Nat} {r : Node} (hn : n ∉ live) :
    weightOf (nodePut nd n r) live = weightOf nd live := by
  unfold weightOf
  congr 1
  refine List.map_congr_left fun j hj => ?_
  rw [nodeGet_nodePut, if_neg]
  rintro rfl
  exact hn hj

theorem weightOf_leaves (ft : Table Word) : weightOf (leaves ft) (presentSyms ft) = ftTotal ft := by
  have hleaf : ∀ s ∈ presentSyms ft, (nodeGet (leaves ft) s).freq.toNat = (ftGet ft s).toNat := by
    intro s hs
    rw [nodeGet_leaves, if_pos hs]
    exact (BitVec.toNat_setWidth ..).trans (Nat.mod_eq_of_lt ((ftGet ft s).isLt.trans (by decide)))
  have hsyms : presentSyms ft = (List.range 256).filter ((· != 0) ∘ fun s => (ftGet ft s).toNat) :=
    List.filter_congr fun s _ => by rw [Bool.eq_iff_iff]; simp [← BitVec.toNat_inj]
  rw [weightOf, List.map_congr_left hleaf, hsyms, ← List.filter_map, List.sum_filter_bne_zero, ftTotal]

theorem ftTotal_lt (ft : Table Word) : ftTotal ft < 2 ^ 40 := by
  have hle : ftTotal ft ≤ ((List.range 256).map fun s => (ftGet ft s).toNat).length • (2 ^ 32 - 1) := by
    refine List.sum_le_card_nsmul _ _ fun w hw => ?_
    obtain ⟨s, -, rfl⟩ := List.mem_map.1 hw
    exact Nat.le_sub_one_of_lt (ftGet ft s).isLt
  rw [List.length_map, List.length_range] at hle
  exact hle.trans_lt (by decide)

/-! ### The loop -/

/-- The loop's forest, made of merges of the least keys, whose roots weigh the whole table. -/
structure HuffmanForest (ft : Table Word) (k : Nat) (nd : Table Node) (live : List Nat) : Prop where
  forest : Forest ft k nd live
  weight : weightOf nd live = ftTotal ft
  merges : ∀ n, 256 ≤ n → (nodeGet nd n).used = true → LeastMerge nd n

theorem huffmanForest_leaves (ft : Table Word) : HuffmanForest ft 0 (leaves ft) (presentSyms ft) where
  forest := forest_leaves ft
  weight := weightOf_leaves ft
  merges n hn hu := absurd (((forest_leaves ft).internal n hn).1 hu) (by omega)

section Merge

variable {ft : Table Word} {k a b : Nat} {nd : Table Node} {live : List Nat}

/-- LIVE are the used slots without a parent. -/
theorem Forest.liveAt_next (hf : Forest ft k nd live) {c : Nat} : LiveAt nd (256 + k) c ↔ c ∈ live := by
  constructor
  · rintro ⟨-, hu, hno⟩
    by_contra hc
    obtain ⟨p, hp, -⟩ := hf.oneParent c hu hc
    exact hno p (hf.used_lt hp.2.1) hp
  · exact fun hc => ⟨hf.live_lt hc, (hf.root c hc).1, fun i _ => (hf.root c hc).2 i⟩

theorem nodeGet_nodePut_of_lt {n : Nat} {r : Node} (i : Nat) (hi : i < n) :
    nodeGet (nodePut nd n r) i = nodeGet nd i := by
  rw [nodeGet_nodePut, if_neg hi.ne]

section OneMerge

variable (hf : HuffmanForest ft k nd live) (ha : argmin nd live = some a) (hb : argmin nd (without live a) = some b)
include hf ha hb

/-- What the two extracted nodes weigh together is part of the table's weight. -/
theorem HuffmanForest.weight_extracted :
    (nodeGet nd a).freq.toNat + (nodeGet nd b).freq.toNat + weightOf nd (without (without live a) b) =
      ftTotal ft := by
  have hnd := hf.forest.nodup
  rw [← hf.weight, weightOf_without hnd (argmin_mem ha), weightOf_without (without_nodup hnd a) (argmin_mem hb),
    add_assoc]

/-- R136: the sum does not wrap. -/
theorem HuffmanForest.mergeNode_freq :
    (mergeNode nd a b).freq.toNat = (nodeGet nd a).freq.toNat + (nodeGet nd b).freq.toNat := by
  have hsum := hf.weight_extracted ha hb
  have hlt := ftTotal_lt ft
  exact (BitVec.toNat_add ..).trans (Nat.mod_eq_of_lt (by omega))

theorem HuffmanForest.merge_weight :
    weightOf (nodePut nd (256 + k) (mergeNode nd a b)) (mergedLive live k a b) = ftTotal ft := by
  have hnew : 256 + k ∉ without (without live a) b := fun h =>
    absurd (hf.forest.live_lt (mem_without.1 (mem_without.1 h).1).1) (lt_irrefl _)
  have hrest := weightOf_nodePut_of_not_mem (nd := nd) (r := mergeNode nd a b) hnew
  rw [← hf.weight_extracted ha hb, ← hf.mergeNode_freq ha hb, ← hrest]
  simp [weightOf, mergedLive, add_comm]

/-- R132, R133: the slot just made is the merge of the two least keys. -/
theorem HuffmanForest.merge_least : LeastMerge (nodePut nd (256 + k) (mergeNode nd a b)) (256 + k) := by
  obtain ⟨hbl, hne⟩ := mem_without.1 (argmin_mem hb)
  have hk := hf.forest.room (argmin_mem ha) hbl hne
  have hla := hf.forest.live_lt (argmin_mem ha)
  have hlb := hf.forest.live_lt hbl
  have hleft : (mergeNode nd a b).left.toNat = a := Nat.mod_eq_of_lt (by omega)
  have hright : (mergeNode nd a b).right.toNat = b := Nat.mod_eq_of_lt (by omega)
  have hold : ∀ i, i < 256 + k → nodeGet (nodePut nd (256 + k) (mergeNode nd a b)) i = nodeGet nd i :=
    nodeGet_nodePut_of_lt
  have hlive : ∀ {c}, LiveAt (nodePut nd (256 + k) (mergeNode nd a b)) (256 + k) c ↔ c ∈ live :=
    (liveAt_congr hold).trans hf.forest.liveAt_next
  have hnew : nodeGet (nodePut nd (256 + k) (mergeNode nd a b)) (256 + k) = mergeNode nd a b := by
    rw [nodeGet_nodePut, if_pos rfl]
  constructor <;> simp only [hnew, hleft, hright]
  case leftLive => exact hlive.2 (argmin_mem ha)
  case rightLive => exact hlive.2 hbl
  case order => exact (extractedBefore_congr hold hla hlb).2 (argmin_extractedBefore ha hbl hne)
  case least =>
    intro c hc hca hcb
    exact (extractedBefore_congr hold hlb hc.1).2
      (argmin_extractedBefore hb (mem_without.2 ⟨hlive.1 hc, hca⟩) hcb)
  case exactSum =>
    rw [hold a hla, hold b hlb]
    exact hf.mergeNode_freq ha hb

theorem HuffmanForest.merge :
    HuffmanForest ft (k + 1) (nodePut nd (256 + k) (mergeNode nd a b)) (mergedLive live k a b) where
  forest := hf.forest.merge (argmin_mem ha) (mem_without.1 (argmin_mem hb)).1 (mem_without.1 (argmin_mem hb)).2
  weight := hf.merge_weight ha hb
  merges n hn hu := by
    by_cases hnew : n = 256 + k
    · exact hnew ▸ hf.merge_least ha hb
    · have hu := (used_merge.1 hu).resolve_right hnew
      have hlt := hf.forest.used_lt hu
      exact (hf.merges n hn hu).congr (fun i hi => nodeGet_nodePut_of_lt i (hi.trans hlt)) (nodeGet_nodePut_of_lt n hlt)

end OneMerge

theorem mergeLoop_huffmanForest (fuel : Nat) (hf : HuffmanForest ft k nd live) :
    ∃ k', HuffmanForest ft k' (mergeLoop fuel k nd live).1 (mergeLoop fuel k nd live).2 := by
  induction fuel generalizing k nd live with
  | zero => exact ⟨k, hf⟩
  | succ fuel ih =>
    rcases mergeLoop_cases fuel k nd hf.forest.nodup with ⟨-, hstop⟩ | ⟨a, b, ha, hb, hnext⟩
    · exact hstop ▸ ⟨k, hf⟩
    · exact hnext ▸ ih (hf.merge ha hb)

end Merge

/-- R130: what BUILD leaves, ROOT being the one live node if there is one. -/
theorem buildTree_huffmanForest (ft : Table Word) :
    ∃ k live, (buildTree ft).2 = rootOf live ∧ HuffmanForest ft k (buildTree ft).1 live :=
  have ⟨k, hf⟩ := mergeLoop_huffmanForest (presentSyms ft).length (huffmanForest_leaves ft)
  ⟨k, _, rfl, hf⟩

theorem rootOf_ne_noNode {live : List Nat} (h : rootOf live ≠ Config.noNode) : ∃ r, live = [r] := by
  unfold rootOf at h
  split at h
  · next r => exact ⟨r, rfl⟩
  · exact absurd rfl h

theorem execBuild_eq {s t : State} (h : exec .build s = .next t) :
    t = (buildStage s).complete (buildFailure s.ft) :=
  (Host.Outcome.next.inj h).symm

/-- Settles O33: every slot of the finished arena is a merge of the two least keys of its time. -/
theorem mergesTakeTheLeastKeys : Obligations.MergesTakeTheLeastKeys := by
  rintro s t h k hu a b rfl rfl
  obtain rfl := execBuild_eq h
  obtain ⟨_, _, -, hf⟩ := buildTree_huffmanForest s.ft
  obtain ⟨⟨hlt, -, hleft⟩, ⟨hrt, -, hright⟩, horder, hleast, -⟩ := hf.merges (256 + k) (by omega) hu
  exact ⟨horder, hlt, hrt, fun i hi => ⟨hleft i hi, hright i hi⟩,
    fun c hc hcu hca hcb hno => hleast c ⟨hc, hcu, hno⟩ hca hcb⟩

/-- Settles O34: each merge added exactly, and the one live node left weighs the whole table. -/
theorem frequenciesNeverWrap : Obligations.FrequenciesNeverWrap := by
  intro s t h
  obtain rfl := execBuild_eq h
  obtain ⟨k, live, hroot, hf⟩ := buildTree_huffmanForest s.ft
  refine ⟨fun i hi hu => (hf.merges i hi hu).exactSum, fun hne => ?_⟩
  rw [complete_root, buildStage_root, hroot] at hne ⊢
  obtain ⟨r, rfl⟩ := rootOf_ne_noNode hne
  have hr := hf.forest.live_lt (List.mem_singleton_self r)
  have hsize : 1 + k = (presentSyms s.ft).length := hf.forest.size
  have hle := presentSyms_length_le s.ft
  have hrn : (rootOf [r]).toNat = r := Nat.mod_eq_of_lt (by omega)
  rw [hrn, ← hf.weight]
  simp [weightOf]

end Sys2Proof.Proofs
end

section
/-! WALK and COMPILE as commands (42_walk_compile R150 to R156): every leaf is coded by its one path from the root, the
codes cover every bit sequence, and COMPILE of a non-empty input is its three stages run as commands. -/

namespace Sys2Proof.Proofs

open Sys2Proof.Machine Sys2Proof.Laws Sys2Proof.Safety

/-! ### WALK with a root -/

theorem ne_noNode_of_leaf {root : NodeIx} (h : root.toNat < 256) : root ≠ Config.noNode := by
  rintro rfl
  exact absurd h (by decide)

/-- A WALK that finds a root writes CB and does not fail. -/
theorem exec_walk_of_root {s : State} (h : s.root ≠ Config.noNode) :
    exec .walk s = .next { s with
      cb := walkTree s.node s.root, run := .idle, status := okStatus, scan := Scan.empty } := by
  simp only [exec, execWalk, walkFailure, if_neg h]
  rfl

/-- Settles O36: a leaf root is coded by the sentinel, and nothing else is coded. -/
theorem walkOfOneLeafGivesTheSentinel : Obligations.WalkOfOneLeafGivesTheSentinel := fun _ hleaf =>
  ⟨_, exec_walk_of_root (ne_noNode_of_leaf hleaf), (cbGet_walkTree_leaf hleaf _).trans (if_pos rfl),
    fun i hi => (cbGet_walkTree_leaf hleaf i).trans (if_neg hi), rfl⟩

/-- Settles O37: the coded symbols are the tree's leaves, and each record spells the path to its leaf. -/
theorem walkGivesEveryLeafItsPath : Obligations.WalkGivesEveryLeafItsPath := by
  intro s ht hroot
  refine ⟨_, exec_walk_of_root ht.rootUsed.1, fun i hi => walkTree_valid_iff_used ht hroot hi, fun i _ hv => ?_,
    fun i hi => walkTree_invalid _ _ hi, rfl⟩
  rcases walkTree_valid hv with ⟨hi, hlt, -⟩ | ⟨-, -, bs, -, hp, hsp⟩
  · omega
  · exact ⟨hsp.code ▸ hp.descend_eq, (walkTree_len hv).1, hsp.padding⟩

/-! ### Each slot has one path (R36) -/

theorem parentOf_childSlot {nd : Table Node} {i : Nat} (hi : 256 ≤ i) (hu : (nodeGet nd i).used = true) (b : Bool) :
    ParentOf nd i (childSlot nd i b) := by
  cases b with
  | false => exact ⟨hi, hu, .inl rfl⟩
  | true => exact ⟨hi, hu, .inr rfl⟩

section Tree

variable {nd : Table Node} {root : NodeIx} (ht : IsTree nd root)
include ht

/-- Slot numbers fall along a path. -/
theorem isTree_pathTo_le {i j : Nat} {bs : Bits} (hp : PathTo nd i bs j) : j + bs.length ≤ i := by
  induction bs generalizing i with
  | nil => exact hp.ge
  | cons b bs ih =>
    obtain ⟨hi, hu, hp⟩ := hp
    have hlt := isTree_childSlot_lt ht hi hu b
    have hle := ih hp
    rw [List.length_cons]
    omega

theorem isTree_childSlot_used {i : Nat} (hi : 256 ≤ i) (hu : (nodeGet nd i).used = true) (b : Bool) :
    (nodeGet nd (childSlot nd i b)).used = true := by
  obtain ⟨-, hl, hr, -⟩ := ht.fork i hi hu
  cases b with
  | false => exact hl
  | true => exact hr

/-- A child slot names its parent and the bit that leads to it. -/
theorem isTree_childSlot_inj {m n : Nat} {b c : Bool} (hm : 256 ≤ m) (hmu : (nodeGet nd m).used = true)
    (hn : 256 ≤ n) (hnu : (nodeGet nd n).used = true) (hroot : childSlot nd m b ≠ root.toNat)
    (h : childSlot nd m b = childSlot nd n c) : m = n ∧ b = c := by
  obtain rfl : m = n := (ht.oneParent _ (isTree_childSlot_used ht hm hmu b) hroot).unique
    (parentOf_childSlot hm hmu b) (h ▸ parentOf_childSlot hn hnu c)
  have hne : childSlot nd m false ≠ childSlot nd m true := fun h =>
    (ht.fork m hm hmu).1 (BitVec.eq_of_toNat_eq h)
  refine ⟨rfl, ?_⟩
  cases b <;> cases c
  · rfl
  · exact absurd h hne
  · exact absurd h.symm hne
  · rfl

/-- Two paths from the root to one slot are the same path: their last steps come from its one parent. -/
theorem isTree_pathTo_unique {i : Nat} {bs cs : Bits} (hb : PathTo nd root.toNat bs i)
    (hc : PathTo nd root.toNat cs i) : bs = cs := by
  induction bs using List.reverseRecOn generalizing i cs with
  | nil =>
    have hle := isTree_pathTo_le ht hc
    have hi : root.toNat = i := hb
    exact (List.eq_nil_of_length_eq_zero (by omega)).symm
  | append_singleton bs b ih =>
    obtain ⟨m, hbm, hm, hmu, rfl⟩ := pathTo_append.1 hb
    have hlt := isTree_pathTo_le ht hb
    rw [List.length_append, List.length_singleton] at hlt
    cases cs using List.reverseRecOn with
    | nil => exact absurd (show root.toNat = _ from hc) (by omega)
    | append_singleton cs c =>
      obtain ⟨n, hcn, hn, hnu, hcb⟩ := pathTo_append.1 hc
      obtain ⟨rfl, rfl⟩ := isTree_childSlot_inj ht hm hmu hn hnu (by omega) hcb.symm
      rw [ih hbm hcn]

/-! ### The codes are complete (R156 (4)) -/

/-- Following any bit sequence from a used slot ends at a leaf. -/
theorem isTree_exists_leaf_along {i : Nat} (hu : (nodeGet nd i).used = true) (f : Nat → Bool) :
    ∃ n s, s < 256 ∧ PathTo nd i ((List.range n).map f) s := by
  induction i using Nat.strongRecOn generalizing f with
  | ind i ih =>
    by_cases hi : i < 256
    · exact ⟨0, i, hi, rfl⟩
    · have hi : 256 ≤ i := by omega
      obtain ⟨n, s, hs, hp⟩ := ih _ (isTree_childSlot_lt ht hi hu (f 0)) (isTree_childSlot_used ht hi hu (f 0))
        fun k => f (k + 1)
      refine ⟨n + 1, s, hs, ?_⟩
      rw [List.range_succ_eq_map, List.map_cons, List.map_map]
      exact ⟨hi, hu, hp⟩

/-- Under an internal root the record of a leaf spells the path to it. -/
theorem walkTree_spells_path (hroot : 256 ≤ root.toNat) {s : Nat} (hs : s < 256) {bs : Bits}
    (hp : PathTo nd root.toNat bs s) : Spells (cbGet (walkTree nd root) s) bs := by
  have hv := (walkTree_valid_iff_used ht hroot hs).2 ((ht.reachable s).2 (hp.reach .root))
  rcases walkTree_valid hv with ⟨hi, -, -⟩ | ⟨-, -, cs, -, hq, hsp⟩
  · omega
  · exact isTree_pathTo_unique ht hp hq ▸ hsp

end Tree

theorem map_range_prefix {α : Type} (f : Nat → α) {m n : Nat} (h : m ≤ n) :
    (List.range m).map f <+: (List.range n).map f := by
  obtain ⟨d, rfl⟩ := Nat.exists_eq_add_of_le h
  exact ⟨_, by rw [List.range_add, List.map_append]⟩

/-- Of two codes that begin one bit sequence, the shorter begins the longer; so they are one symbol's. -/
theorem walkTree_code_along_unique {nd : Table Node} {root : NodeIx} (f : Nat → Bool) {s t m n : Nat}
    (hs : (cbGet (walkTree nd root) s).valid = true) (ht : (cbGet (walkTree nd root) t).valid = true)
    (hsf : (cbGet (walkTree nd root) s).code = (List.range m).map f)
    (htf : (cbGet (walkTree nd root) t).code = (List.range n).map f) : s = t := by
  by_contra hne
  rcases Nat.le_total m n with h | h
  · exact walkTree_prefixFree hs ht hne (hsf ▸ htf ▸ map_range_prefix f h)
  · exact walkTree_prefixFree ht hs (Ne.symm hne) (hsf ▸ htf ▸ map_range_prefix f h)

/-- Settles O39: the sequence leads from the root to a leaf, whose record spells that path; no second code begins the
sequence, since no code begins another. -/
theorem compiledCodesAreComplete : Obligations.CompiledCodesAreComplete := by
  intro s t ht hroot h f
  obtain rfl := execWalk_eq h
  simp only [complete_cb, walkStage_cb]
  obtain ⟨n, x, hx, hp⟩ := isTree_exists_leaf_along ht ht.rootUsed.2 f
  have hsp := walkTree_spells_path ht hroot hx hp
  have hlen := hsp.len_eq
  rw [List.length_map, List.length_range] at hlen
  exact ⟨x, ⟨hx, hsp.valid, hlen ▸ hsp.code⟩,
    fun y ⟨_, hy, hyf⟩ => walkTree_code_along_unique f hy hsp.valid hyf hsp.code⟩

/-! ### COMPILE (R151) -/

theorem presentSyms_input_ne_nil {s : State} (hpos : 1 ≤ s.ilen.toNat) : presentSyms (countBytes s.input) ≠ [] := by
  refine presentSyms_countBytes_ne_nil (List.ne_nil_of_length_pos ?_) ?_ <;> rw [input_length]
  · exact hpos
  · exact s.ilen.isLt

/-- Settles O40: COUNT of a non-empty input leaves a symbol, BUILD of it leaves a root, so none of the three stages
fails. -/
theorem compileEqualsCountBuildWalk : Obligations.CompileEqualsCountBuildWalk := by
  intro s hpos hlen
  have hfits := (lengthBad_eq_false s).2 hlen
  have hsyms := presentSyms_input_ne_nil hpos
  have hroot := (buildTree_isTree hsyms).rootUsed.1
  have hcount : exec .count s = .next ((countStage s).complete none) := by rw [exec_count_eq_ite, hfits]; rfl
  refine ⟨_, _, _, hcount, exec_build_of_some_symbol hsyms, exec_walk_of_root hroot, rfl, rfl, rfl, ?_⟩
  rw [exec_compile_eq_ite, hfits, buildFailure, if_neg hsyms, walkFailure, if_neg hroot]
  rfl

end Sys2Proof.Proofs
end

section
/-! ENCODE as a command (43_encode R170 to R177): the container, byte by byte, when it is written, and each failure, in
the order of the checks, when it is not; and the frame it shares with DECODE (44_decode R190, R207, R208). -/

namespace Sys2Proof.Proofs

open Sys2Proof.Machine Sys2Proof.Laws Sys2Proof.Safety

/-! ### A result committed (R177, R207) -/

theorem commit_error (s : State) (f : Failure) :
    s.commit (.error f) =
      { s with olen := 0, run := .idle, status := Status.ofResult (some f), scan := Scan.empty } := rfl

theorem obufByte_commit_error (s : State) (f : Failure) (a : Nat) :
    (s.commit (.error f)).obufByte a = s.obufByte a :=
  obufByte_congr rfl rfl a

theorem obufByte_commit_ok (s : State) (out : List Byte) (a : Nat) :
    (s.commit (.ok out)).obufByte a = if a < out.length then out.getD a 0 else s.obufByte a :=
  (obufByte_congr (s := s.setOutput out) rfl rfl a).trans (obufByte_setOutput s out a)

/-- ENCODE and DECODE commit a result, which fits OBUF when there is one. -/
theorem exec_eq_commit {i : Instr} (hi : i = .encode ∨ i = .decode) (s : State) :
    ∃ r, exec i s = .next (s.commit r) ∧ ∀ out, r = .ok out → out.length ≤ s.params.obufSize := by
  rcases hi with rfl | rfl
  · exact ⟨encodeResult s, rfl, fun _ h => (encodeResult_ok h).2.2⟩
  · exact ⟨decodeResult s, rfl, fun _ h => decodeResult_ok_length h⟩

/-- Settles O43: a commit writes the result from OBUF[0] on, or only empties OLEN. -/
theorem failedCommandsLeaveNoOutput : Obligations.FailedCommandsLeaveNoOutput := by
  intro s i hlegal hi
  obtain ⟨r, hexec, hfit⟩ := exec_eq_commit hi s
  refine ⟨_, hexec, commit_frame s r, ?_⟩
  cases r with
  | error f => exact ⟨rfl, fun _ => ⟨rfl, obufByte_commit_error s f⟩, fun herr => Bool.noConfusion herr⟩
  | ok out =>
    obtain ⟨hok, holen, -⟩ := commit_ok_produced hlegal (hfit out rfl)
    refine ⟨rfl, fun herr => Bool.noConfusion herr, fun _ => ⟨hok, fun a ha => ?_⟩⟩
    rw [obufByte_commit_ok, if_neg (by omega)]

/-! ### Equal inputs (R176 (6), R208 (1)) -/

theorem input_eq_of_bytes_eq {s u : State} (hlen : s.ilen = u.ilen)
    (hbytes : ∀ a, a < s.ilen.toNat → s.ibufByte a = u.ibufByte a) : s.input = u.input := by
  unfold State.input
  rw [← hlen]
  exact List.map_congr_left fun a ha => hbytes a (List.mem_range.1 ha)

section EqualCodes

variable {cb cb' : Table CbRec} (h : ∀ k, k < 256 → cbGet cb k = cbGet cb' k) (data : List Byte)
include h

theorem codedSyms_congr : codedSyms cb = codedSyms cb' :=
  List.filter_congr fun k hk => by rw [h k (List.mem_range.1 hk)]

theorem firstUncovered_congr : firstUncovered cb data = firstUncovered cb' data :=
  congrArg (List.find? · data) (funext fun b => by rw [h _ b.isLt])

theorem payloadBits_congr : payloadBits cb data = payloadBits cb' data :=
  List.flatMap_congr fun b _ => by rw [h _ b.isLt]

theorem headerBytes_congr : headerBytes cb = headerBytes cb' := by
  rw [headerBytes, headerBytes, codedSyms_congr h]
  exact congrArg _ (List.flatMap_congr fun k hk => by rw [entryBytes, entryBytes, h k (mem_codedSyms.1 hk).1])

theorem containerOf_congr : containerOf cb data = containerOf cb' data := by
  rw [containerOf, containerOf, headerBytes_congr h, payloadBits_congr h]

end EqualCodes

section EqualInput

variable {s u : State} (hparams : s.params = u.params) (hlen : s.ilen = u.ilen)
include hparams

theorem fitOutput_congr : fitOutput s = fitOutput u :=
  funext fun out => by rw [fitOutput, fitOutput, hparams]

include hlen

theorem lengthBad_congr : s.lengthBad = u.lengthBad := by
  rw [State.lengthBad, State.lengthBad, hparams, hlen]

variable (hinput : s.input = u.input)
include hinput

theorem decodeResult_congr : decodeResult s = decodeResult u := by
  rw [decodeResult, decodeResult, lengthBad_congr hparams hlen, hinput, fitOutput_congr hparams]

theorem encodeResult_congr (hcb : ∀ k, k < 256 → cbGet s.cb k = cbGet u.cb k) : encodeResult s = encodeResult u := by
  rw [encodeResult, encodeResult, lengthBad_congr hparams hlen, hlen, hinput, firstUncovered_congr hcb,
    containerOf_congr hcb, hparams]

end EqualInput

/-- What one result leaves for the Host to fetch does not depend on the state it is committed in. -/
theorem commit_output_eq (s u : State) (r : Except Failure (List Byte)) :
    (s.commit r).status = (u.commit r).status ∧ (s.commit r).olen = (u.commit r).olen ∧
      ∀ a, a < (s.commit r).olen.toNat → (s.commit r).obufByte a = (u.commit r).obufByte a := by
  cases r with
  | error f => exact ⟨rfl, rfl, fun a ha => absurd ha a.not_lt_zero⟩
  | ok out =>
    refine ⟨rfl, rfl, fun a ha => ?_⟩
    have hlt : a < out.length := ha.trans_le (Nat.mod_le _ _)
    rw [obufByte_commit_ok, obufByte_commit_ok, if_pos hlt, if_pos hlt]

/-- Settles O50: both states commit the same result. -/
theorem resultsDependOnlyOnTheInput : Obligations.ResultsDependOnlyOnTheInput := by
  intro s u hparams hlen hbytes i hi
  have hinput := input_eq_of_bytes_eq hlen hbytes
  rcases hi with rfl | ⟨rfl, hcb⟩
  · refine ⟨_, _, rfl, rfl, ?_⟩
    rw [decodeResult_congr hparams hlen hinput]
    exact commit_output_eq s u (decodeResult u)
  · refine ⟨_, _, rfl, rfl, ?_⟩
    rw [encodeResult_congr hparams hlen hinput hcb]
    exact commit_output_eq s u (encodeResult u)

/-! ### The sizes of the container (R100 to R105) -/

theorem entryBytes_length (cb : Table CbRec) (r : Nat) :
    (entryBytes cb r).length = 2 + ceilDiv8 (cbGet cb r).len.toNat := by
  rw [entryBytes, List.length_cons, List.length_cons, pack_length, code_length, Nat.add_comm 2]

theorem headerBytes_length (cb : Table CbRec) : (headerBytes cb).length = headerSize cb := by
  simp only [headerBytes, headerSize, List.length_cons, List.length_flatMap, entryBytes_length]
  omega

theorem payloadBits_length (cb : Table CbRec) (data : List Byte) :
    (payloadBits cb data).length = payloadSize cb data := by
  simp [payloadBits, payloadSize, List.length_flatMap]

/-- R171: what ENCODE judges, H + P + 1, is the length of the container it writes. -/
theorem containerOf_length (cb : Table CbRec) (data : List Byte) :
    (containerOf cb data).length = containerSize cb data := by
  simp only [containerOf, containerSize, List.length_append, List.length_singleton, headerBytes_length, pack_length,
    payloadBits_length]

/-! ### The checks of R171 -/

theorem firstUncovered_eq_none {cb : Table CbRec} {data : List Byte} (h : Covers cb data) :
    firstUncovered cb data = none :=
  List.find?_eq_none.2 fun b hb => by simp [h b hb]

/-- R173: the first byte without a code is the one reported. -/
theorem firstUncovered_append_cons {cb : Table CbRec} {pre : List Byte} {b : Byte} (post : List Byte)
    (hpre : Covers cb pre) (hb : (cbGet cb b.toNat).valid = false) :
    firstUncovered cb (pre ++ b :: post) = some b := by
  rw [firstUncovered, List.find?_append, show pre.find? _ = none from firstUncovered_eq_none hpre]
  simp [hb]

theorem encodeResult_of_no_byte {s : State} (h : s.ilen = 0) : encodeResult s = .error .emptyInput := by
  simp [encodeResult, State.lengthBad, h]

section SomeByte

variable {s : State} (hpos : 1 ≤ s.ilen.toNat) (hlen : s.ilen.toNat ≤ s.params.ibufSize)
include hpos hlen

theorem ilen_checks_pass : s.lengthBad = false ∧ s.ilen ≠ 0 :=
  ⟨(lengthBad_eq_false s).2 hlen, fun h => by rw [h] at hpos; exact absurd hpos (by decide)⟩

theorem encodeResult_of_uncovered {b : Byte} (h : firstUncovered s.cb s.input = some b) :
    encodeResult s = .error (.missingCode b) := by
  obtain ⟨hbad, hne⟩ := ilen_checks_pass hpos hlen
  simp only [encodeResult, hbad, Bool.false_eq_true, if_false, if_neg hne, h]

/-- R171: with every byte coded, the size of the container decides. -/
theorem encodeResult_of_covered (hcov : Covers s.cb s.input) :
    encodeResult s =
      if s.params.obufSize < containerSize s.cb s.input then .error .outputOverflow
      else .ok (containerOf s.cb s.input) := by
  obtain ⟨hbad, hne⟩ := ilen_checks_pass hpos hlen
  simp only [encodeResult, hbad, Bool.false_eq_true, if_false, if_neg hne, firstUncovered_eq_none hcov,
    containerOf_length]

end SomeByte

theorem exec_encode_of_error {s : State} {f : Failure} (h : encodeResult s = .error f) :
    exec .encode s =
      .next { s with olen := 0, run := .idle, status := Status.ofResult (some f), scan := Scan.empty } := by
  rw [exec, execEncode, h, commit_error]

/-- Settles O42: each clause is one failing check, and the checks before it pass. -/
theorem encodeFailures : Obligations.EncodeFailures := by
  refine fun s => ⟨fun hzero => ?empty, fun pre b post hlen hinput hpre hb => ?missing,
    fun hpos hlen hcov hbig => ?overflow⟩
  case empty => exact exec_encode_of_error (encodeResult_of_no_byte hzero)
  case missing =>
    have hpos : 1 ≤ s.ilen.toNat := by rw [← input_length, hinput, List.length_append, List.length_cons]; omega
    exact exec_encode_of_error
      (encodeResult_of_uncovered hpos hlen (hinput ▸ firstUncovered_append_cons post hpre hb))
  case overflow => exact exec_encode_of_error ((encodeResult_of_covered hpos hlen hcov).trans (if_pos hbig))

/-! ### Where the parts of the container stand (R100 to R104, R174) -/

/-- A part of an output stands in OBUF after the parts before it. -/
theorem produced_part {s : State} {pre mid post : List Byte} (h : Produced s (pre ++ mid ++ post)) {k : Nat}
    (hk : k < mid.length) : s.obufByte (pre.length + k) = mid.getD k 0 := by
  obtain ⟨-, hbytes⟩ := h
  have hlt : pre.length + k < (pre ++ mid).length := by simpa using hk
  rw [hbytes _ (by rw [List.length_append]; omega), List.getD_append _ _ _ _ hlt,
    List.getD_append_right _ _ _ _ (by omega), Nat.add_sub_cancel_left]

/-- A packed part of an output, bit by bit. -/
theorem produced_pack {s : State} {pre post : List Byte} {bits : Bits} (h : Produced s (pre ++ pack bits ++ post))
    {k : Nat} (hk : k < 8 * ceilDiv8 bits.length) :
    (s.obufByte (pre.length + k / 8)).getLsbD (k % 8) = bits.getD k false := by
  rw [produced_part h (by rw [pack_length]; omega)]
  exact bitAt_pack bits hk

theorem code_getD (c : CbRec) (k : Nat) : c.code.getD k false = (decide (k < c.len.toNat) && c.bits.getLsbD k) := by
  by_cases hk : k < c.len.toNat
  · rw [List.getD_eq_getElem?_getD, code_getElem? c hk, decide_eq_true hk, Bool.true_and, Option.getD_some]
  · rw [List.getD_eq_default _ _ (by rw [code_length]; omega), decide_eq_false hk, Bool.false_and]

/-- R101: the COUNT byte says how many entries follow. -/
theorem countByte_toNat {n : Nat} (hpos : 1 ≤ n) (hle : n ≤ 256) : (countByte n).toNat + 1 = n := by
  rw [countByte, BitVec.toNat_ofNat]; omega

theorem codedSyms_length_le (cb : Table CbRec) : (codedSyms cb).length ≤ 256 :=
  (List.length_filter_le _ _).trans_eq List.length_range

section CodedSymbol

variable {cb : Table CbRec} {r : Nat} (hr : r ∈ codedSyms cb)
include hr

/-- R174: the entries are in ascending order, so those before a symbol's are the smaller symbols'. -/
theorem codedSyms_eq_smaller_append : ∃ larger, codedSyms cb = (codedSyms cb).filter (· < r) ++ r :: larger := by
  obtain ⟨smaller, larger, hsplit⟩ := List.append_of_mem hr
  have hsorted : (codedSyms cb).Pairwise (· < ·) := List.pairwise_lt_range.filter _
  rw [hsplit, List.pairwise_append, List.pairwise_cons] at hsorted
  obtain ⟨-, ⟨hlarger, -⟩, hsmaller⟩ := hsorted
  have hfilter : (codedSyms cb).filter (· < r) = smaller := by
    rw [hsplit, List.filter_append, List.filter_cons_of_neg (by simp),
      List.filter_eq_self.2 fun x hx => decide_eq_true (hsmaller x hx r List.mem_cons_self),
      List.filter_eq_nil_iff.2 fun x hx => by simpa using (hlarger x hx).le, List.append_nil]
  exact ⟨larger, by rw [hfilter, hsplit]⟩

/-- R100: a symbol's entry stands in the container at its offset. -/
theorem containerOf_eq_entry (data : List Byte) :
    ∃ pre post, containerOf cb data = pre ++ entryBytes cb r ++ post ∧ pre.length = entryOffset cb r := by
  obtain ⟨larger, hsyms⟩ := codedSyms_eq_smaller_append hr
  refine ⟨countByte (codedSyms cb).length :: ((codedSyms cb).filter (· < r)).flatMap (entryBytes cb),
    larger.flatMap (entryBytes cb) ++ pack (payloadBits cb data) ++ [padByte (payloadBits cb data).length], ?_, ?_⟩
  · rw [containerOf, headerBytes]
    nth_rw 2 [hsyms]
    simp [List.flatMap_append]
  · simp only [entryOffset, List.length_cons, List.length_flatMap, entryBytes_length]
    omega

end CodedSymbol

section Container

variable {s : State} {cb : Table CbRec} {data : List Byte} (h : Produced s (containerOf cb data))
include h

theorem produced_containerOf_count (hpos : 1 ≤ (codedSyms cb).length) :
    (s.obufByte 0).toNat + 1 = (codedSyms cb).length := by
  obtain ⟨-, hbytes⟩ := h
  rw [hbytes 0 (by simp [containerOf])]
  exact countByte_toNat hpos (codedSyms_length_le cb)

theorem produced_containerOf_entry {r : Nat} (hr : r ∈ codedSyms cb) :
    (s.obufByte (entryOffset cb r)).toNat = r ∧ s.obufByte (entryOffset cb r + 1) = (cbGet cb r).len ∧
      ∀ k, k < 8 * ceilDiv8 (cbGet cb r).len.toNat →
        (s.obufByte (entryOffset cb r + 2 + k / 8)).getLsbD (k % 8) =
          (decide (k < (cbGet cb r).len.toNat) && (cbGet cb r).bits.getLsbD k) := by
  obtain ⟨pre, post, hsplit, hoffset⟩ := containerOf_eq_entry hr data
  rw [hsplit] at h
  have hlen := entryBytes_length cb r
  refine ⟨?sym, ?len, fun k hk => ?code⟩ <;> rw [← hoffset]
  case sym =>
    rw [← Nat.add_zero pre.length, produced_part h (by omega)]
    exact Nat.mod_eq_of_lt (mem_codedSyms.1 hr).1
  case len => exact produced_part h (by omega)
  case code =>
    have hcode : Produced s ((pre ++ [BitVec.ofNat 8 r, (cbGet cb r).len]) ++ pack (cbGet cb r).code ++ post) := by
      simpa [entryBytes] using h
    have hbit := produced_pack hcode (by rwa [code_length])
    rwa [List.length_append, code_getD] at hbit

theorem produced_containerOf_payload {k : Nat} (hk : k < 8 * ceilDiv8 (payloadSize cb data)) :
    (s.obufByte (headerSize cb + k / 8)).getLsbD (k % 8) = (payloadBits cb data).getD k false := by
  rw [← headerBytes_length]
  exact produced_pack h (by rwa [payloadBits_length])

theorem produced_containerOf_pad : s.obufByte (containerSize cb data - 1) = padByte (payloadSize cb data) := by
  have hlast : containerSize cb data - 1 = (headerBytes cb ++ pack (payloadBits cb data)).length + 0 := by
    simp [containerSize, headerBytes_length, payloadBits_length]
  rw [containerOf, ← List.append_nil (_ ++ _ ++ _)] at h
  rw [hlast, produced_part h Nat.zero_lt_one, ← payloadBits_length]
  rfl

end Container

/-- Settles O41: the result is the container, and each clause is one part of it, found at its place in OBUF. -/
theorem encodeWritesTheContainer : Obligations.EncodeWritesTheContainer := by
  intro s hlegal hpos hlen hcov hfit
  have hresult := (encodeResult_of_covered hpos hlen hcov).trans (if_neg (Nat.not_lt.2 hfit))
  have hsize := containerOf_length s.cb s.input
  obtain ⟨hok, hprod⟩ := commit_ok_produced hlegal (hsize.trans_le hfit)
  have hsyms : 1 ≤ (codedSyms s.cb).length := by
    obtain ⟨b, hb⟩ := List.exists_mem_of_length_pos (l := s.input) (by rw [input_length]; exact hpos)
    exact List.length_pos_of_mem (mem_codedSyms.2 ⟨b.isLt, hcov b hb⟩)
  have hpad := produced_containerOf_pad hprod
  refine ⟨_, congrArg (fun r => Host.Outcome.next (s.commit r)) hresult, ?frame, hprod.left.trans hsize,
    produced_containerOf_count hprod hsyms, fun r hr hv => produced_containerOf_entry hprod (mem_codedSyms.2 ⟨hr, hv⟩),
    fun k hk => produced_containerOf_payload hprod hk, fun hzero => ?padZero, fun hne => ?padSome, fun a ha => ?past⟩
  case frame => rw [← hok]; exact commit_frame s _
  case padZero =>
    refine hpad.trans (BitVec.eq_of_toNat_eq ?_)
    rw [padByte_toNat, hzero]; rfl
  case padSome => rw [hpad, padByte_toNat]; omega
  case past => rw [obufByte_commit_ok, if_neg (by omega)]

end Sys2Proof.Proofs
end

section
/-! DECODE as a command on a container whose header is whole (44_decode R195 to R207): the data it leaves, and the
conflicting code, the PAD byte or the payload bit it fails on. -/

namespace Sys2Proof.Proofs

open Sys2Proof.Machine Sys2Proof.Laws Sys2Proof.Safety

/-! ### The container in IBUF (R190, R206, R207) -/

/-- R191: with a legal length, the container is decoded and what it emits must fit OBUF. -/
theorem decodeResult_eq_bind {s : State} (h : s.lengthBad = false) :
    decodeResult s = (decodeContainer s.input).bind (fitOutput s) := by
  rw [decodeResult, if_neg (by simp [h])]
  cases decodeContainer s.input <;> rfl

theorem exec_decode_of_holds {s : State} {c : List Byte} (h : Holds s c) :
    exec .decode s = .next (s.commit ((decodeContainer c).bind (fitOutput s))) := by
  obtain ⟨hinput, hlen⟩ := input_eq_of_holds h
  rw [exec, execDecode, decodeResult_eq_bind hlen, hinput]

/-- R207: a container that does not decode leaves its failure and no output. -/
theorem exec_decode_of_error {s : State} {c : List Byte} {f : Failure} (h : Holds s c)
    (hd : decodeContainer c = .error f) :
    exec .decode s =
      .next { s with olen := 0, run := .idle, status := Status.ofResult (some f), scan := Scan.empty } := by
  rw [exec_decode_of_holds h, hd]
  rfl

/-- R206, R207: what a container decodes to is committed, or is too long for OBUF. -/
theorem exec_decode_of_ok {s : State} {c out : List Byte} (hlegal : s.params.Legal) (h : Holds s c)
    (hd : decodeContainer c = .ok out) :
    (out.length ≤ s.params.obufSize →
      ∃ t, exec .decode s = .next t ∧
        t = { s with obuf := t.obuf, olen := t.olen, run := .idle, status := okStatus, scan := Scan.empty } ∧
        Produced t out ∧ ∀ a, t.olen.toNat ≤ a → t.obufByte a = s.obufByte a) ∧
    (s.params.obufSize < out.length →
      exec .decode s = .next { s with olen := 0, run := .idle, status := failStatus 5 0 0, scan := Scan.empty }) := by
  have hexec : exec .decode s = .next (s.commit (fitOutput s out)) := by rw [exec_decode_of_holds h, hd]; rfl
  rcases fitOutput_cases s out with ⟨hfit, hr⟩ | ⟨hbig, hr⟩ <;> rw [hr] at hexec
  · obtain ⟨-, hprod⟩ := commit_ok_produced hlegal hfit
    refine ⟨fun _ => ⟨_, hexec, rfl, hprod, fun a ha => ?_⟩, fun hbig => absurd hfit hbig.not_ge⟩
    rw [obufByte_commit_ok, if_neg (hprod.1 ▸ ha.not_gt)]
  · exact ⟨fun hfit => absurd hfit hbig.not_ge, fun _ => hexec⟩

/-- Settles O46: the codes lead to different leaves of the trie, so the payload is cut into them in one way. -/
theorem decodeRecoversSymbols : Obligations.DecodeRecoversSymbols := by
  intro s es xs payload pad hlegal hok h2 hpf hpad hholds hxs hbits
  have hdata := exec_decode_of_ok hlegal hholds (decodeContainer_codes hok h2 hpf hpad hxs hbits)
  rwa [List.length_map] at hdata

/-- Settles O45: the one entry's symbol is emitted for each usable bit, without a trie. -/
theorem decodeOfSingleEntry : Obligations.DecodeOfSingleEntry := by
  intro s e payload pad hlegal he hpad hholds
  have hdata := exec_decode_of_ok hlegal hholds (decodeContainer_single he hpad)
  rwa [List.length_replicate] at hdata

/-- Settles O52: ENCODE's container under a codebook is read back code by code, in any state that holds it. -/
theorem decodeOfEncodeIsTheData : Obligations.DecodeOfEncodeIsTheData := by
  intro s t hlegal hcb hencode herr u hu hulen hufit hubytes hout
  obtain ⟨v, hdecode, hok, holen, hbytes⟩ := execDecode_of_execEncode hlegal hcb hencode herr hu hulen hufit hubytes
    hout
  rw [input_length] at holen hbytes
  exact ⟨v, hdecode, hok, BitVec.eq_of_toNat_eq holen, fun a ha => (hbytes a ha).trans (input_getD s ha)⟩

/-! ### The payload that leaves the codes (R204, R205) -/

/-- Only a node with children is on the way to another node. -/
theorem exists_fork_of_trieAt_ne_empty {t : Trie} {bs : Bits} (hne : bs ≠ []) (h : trieAt t bs ≠ .empty) :
    ∃ l r, t = .fork l r := by
  cases t with
  | empty => exact absurd (trieAt_empty bs) h
  | leaf s => exact absurd (trieAt_leaf s hne) h
  | fork l r => exact ⟨l, r, rfl⟩

/-- R205: bits that lead to a node with children, away from the root, end mid-code. -/
theorem traverse_fork (root : Trie) {cur l r : Trie} {away : Bool} {bs : Bits} (haway : away = true ∨ bs ≠ [])
    (h : trieAt cur bs = .fork l r) : traverse root cur away bs = .error .partialCode := by
  induction bs generalizing cur away with
  | nil => rw [haway.resolve_right (by simp)]; rfl
  | cons b bs ih =>
    rw [trieAt_cons] at h
    have hchild : ∃ l' r', cur.child b = .fork l' r' := by
      by_cases hbs : bs = []
      · subst hbs; exact ⟨l, r, h⟩
      · exact exists_fork_of_trieAt_ne_empty hbs (by simp [h])
    obtain ⟨l', r', hchild⟩ := hchild
    rw [Sys2Proof.Machine.traverse, hchild]
    exact ih (.inl rfl) (hchild ▸ h)

/-- R205: bits that lead to no node, by no leaf, meet an absent child. -/
theorem traverse_empty (root : Trie) {cur : Trie} (away : Bool) {bs : Bits} (hne : bs ≠ [])
    (hend : trieAt cur bs = .empty) (hthrough : ∀ d s, d <+: bs → trieAt cur d ≠ .leaf s) :
    traverse root cur away bs = .error .noChild := by
  induction bs generalizing cur away with
  | nil => exact absurd rfl hne
  | cons b bs ih =>
    rw [Sys2Proof.Machine.traverse]
    cases hchild : cur.child b with
    | empty => rfl
    | leaf s => exact absurd hchild (hthrough [b] s (by simp))
    | fork l r =>
      rw [trieAt_cons, hchild] at hend
      refine ih true (fun hnil => ?_) hend fun d s hd => ?_
      · rw [hnil] at hend; cases hend
      · have hcons := hthrough (b :: d) s (List.cons_prefix_cons.2 ⟨rfl, hd⟩)
        rwa [trieAt_cons, hchild] at hcons

section HoldsEntries

variable {t : Trie} {es : List WireEntry} (ht : HoldsEntries t es)
include ht

/-- A proper beginning of a code leads to a node with children. -/
theorem HoldsEntries.fork_of_prefix {e : WireEntry} (he : e ∈ es) {r : Bits} (hr : r <+: e.bits) (hne : r ≠ e.bits) :
    ∃ a b, trieAt t r = .fork a b := by
  obtain ⟨c, hc⟩ := hr
  have hleaf : trieAt (trieAt t r) c = .leaf e.sym := by rw [← trieAt_append, hc]; exact ht.leaf e he
  have hcne : c ≠ [] := fun h => hne (by rw [← hc, h, List.append_nil])
  exact exists_fork_of_trieAt_ne_empty hcne (by simp [hleaf])

/-- Bits that begin no code lead to no node. -/
theorem HoldsEntries.empty_of_not_prefix {r : Bits} (hr : ∀ e ∈ es, ¬ r <+: e.bits) : trieAt t r = .empty := by
  by_contra h
  obtain ⟨e, he, hpre⟩ := ht.node r h
  exact hr e he hpre

/-- A leaf stands at the end of a code and nowhere else. -/
theorem HoldsEntries.exists_of_leaf {d : Bits} {s : Byte} (h : trieAt t d = .leaf s) : ∃ e ∈ es, e.bits = d := by
  obtain ⟨e, he, c, hc⟩ := ht.node d (by simp [h])
  have hcode := ht.leaf e he
  rw [← hc, trieAt_append, h] at hcode
  have hnil : c = [] := by
    by_contra hne
    rw [trieAt_leaf s hne] at hcode; cases hcode
  exact ⟨e, he, by rw [← hc, hnil, List.append_nil]⟩

/-- R204: after whole codes the cursor is back at the root, so what follows them decides how the traversal fails. -/
theorem HoldsEntries.traverse_codes_append {xs : List WireEntry} {r : Bits} {f : Failure}
    (hne : ∀ e ∈ es, e.bits ≠ []) (hxs : ∀ x ∈ xs, x ∈ es) (hr : traverse t t false r = .error f) :
    traverse t t false (xs.flatMap WireEntry.bits ++ r) = .error f := by
  induction xs with
  | nil => exact hr
  | cons x xs ih =>
    obtain ⟨hx, hxs⟩ := List.forall_mem_cons.1 hxs
    rw [List.flatMap_cons, List.append_assoc, traverse_leaf t t false _ (hne x hx) (ht.leaf x hx), ih hxs]
    rfl

end HoldsEntries

/-- R191: with two or more entries without a conflict, the usable bits are read through the trie of their codes. -/
theorem decodeContainer_eq_traverse {es : List WireEntry} (hok : WireOk es) (h2 : 2 ≤ es.length) (hpf : PrefixFree es)
    {payload : List Byte} {pad : Byte} (hpad : PadOk payload pad) :
    ∃ t, HoldsEntries t es ∧
      decodeContainer (wireContainer es payload pad) = traverse t t false (usableBits payload pad) := by
  obtain ⟨t, hbuild, ht⟩ := buildTrie_ok h2 hpf
  refine ⟨t, ht, ?_⟩
  rw [decodeContainer_wire hok, closeContainer_wire hbuild hpad]
  match es, h2 with
  | _ :: _ :: _, _ => rfl

/-- Settles O47: a proper beginning of a code stops at a node with children, bits that begin none at an absent
child. -/
theorem decodeRejectsBadPayload : Obligations.DecodeRejectsBadPayload := by
  intro s es xs r payload pad hok h2 hpf hpad hholds hxs hbits
  obtain ⟨t, ht, hdecode⟩ := decodeContainer_eq_traverse hok h2 hpf hpad
  have hfail : ∀ {f}, traverse t t false r = .error f → decodeContainer (wireContainer es payload pad) = .error f := by
    intro f hr
    rw [hdecode, hbits]
    exact ht.traverse_codes_append (prefixFree_bits_ne_nil h2 hpf) hxs hr
  refine ⟨fun hne ⟨e, he, hpre, hproper⟩ => ?partialCode, fun hno => ?noChild⟩
  case partialCode =>
    obtain ⟨_, _, hfork⟩ := ht.fork_of_prefix he hpre hproper
    exact exec_decode_of_error hholds (hfail (traverse_fork t (.inr hne) hfork))
  case noChild =>
    obtain ⟨e, he⟩ := List.exists_mem_of_length_pos (Nat.zero_lt_of_lt h2)
    have hne : r ≠ [] := fun hnil => (hno e he).1 (hnil ▸ List.nil_prefix)
    have hthrough : ∀ d sym, d <+: r → trieAt t d ≠ .leaf sym := fun d sym hd hleaf =>
      have ⟨e, he, hcode⟩ := ht.exists_of_leaf hleaf
      (hno e he).2 (hcode ▸ hd)
    exact exec_decode_of_error hholds
      (hfail (traverse_empty t false hne (ht.empty_of_not_prefix fun e he => (hno e he).1) hthrough))

/-! ### Conflicting codes (R196, R197) -/

/-- R196: an insertion that gets to a node meets the conflict that is there. -/
theorem insert_append_error {t : Trie} {d c : Bits} {sym : Byte} {f : Failure} (hnode : trieAt t d ≠ .empty)
    (h : Trie.insert sym c (trieAt t d) = .error f) : t.insert sym (d ++ c) = .error f := by
  induction d generalizing t with
  | nil => exact h
  | cons b d ih =>
    obtain ⟨l, r, rfl⟩ := exists_fork_of_trieAt_ne_empty (List.cons_ne_nil b d) hnode
    rw [List.cons_append, insert_cons (by simp), ih hnode h]
    rfl

section Conflict

variable {t : Trie} {es : List WireEntry} (ht : HoldsEntries t es) {e : WireEntry} (he : e ∈ es) {code : Bits}
include ht he

theorem HoldsEntries.insert_throughLeaf (hpre : e.bits <+: code) (hne : e.bits ≠ code) (sym : Byte) :
    t.insert sym code = .error .throughLeaf := by
  obtain ⟨c, rfl⟩ := hpre
  obtain ⟨b, c, rfl⟩ := List.exists_cons_of_ne_nil fun hnil : c = [] => hne (by rw [hnil, List.append_nil])
  have hleaf := ht.leaf e he
  exact insert_append_error (by simp [hleaf]) (by rw [hleaf, Trie.insert])

theorem HoldsEntries.insert_sameNode (sym : Byte) : t.insert sym e.bits = .error .sameNode := by
  have hleaf := ht.leaf e he
  rw [← List.append_nil e.bits]
  exact insert_append_error (by simp [hleaf]) (by rw [hleaf, Trie.insert])

theorem HoldsEntries.insert_endsAtInternal (hpre : code <+: e.bits) (hne : code ≠ e.bits) (sym : Byte) :
    t.insert sym code = .error .endsAtInternal := by
  obtain ⟨l, r, hfork⟩ := ht.fork_of_prefix he hpre hne
  rw [← List.append_nil code]
  exact insert_append_error (by simp [hfork]) (by rw [hfork, Trie.insert])

end Conflict

/-- R191 phase B: entries go into the trie that the entries before them left. -/
theorem insertAll_append {es fs : List Entry} {t t' : Trie} (h : insertAll es t = .ok t') :
    insertAll (es ++ fs) t = insertAll fs t' := by
  induction es generalizing t with
  | nil => obtain rfl := Except.ok.inj h; rfl
  | cons e es ih =>
    rw [insertAll] at h
    rw [List.cons_append, insertAll]
    cases hins : t.insert e.sym e.code with
    | error f => rw [hins] at h; cases h
    | ok t1 => rw [hins] at h; exact ih h

theorem buildTrie_of_two_le {es : List Entry} (h : 2 ≤ es.length) : buildTrie es = insertAll es .empty :=
  match es, h with
  | _ :: _ :: _, _ => rfl

theorem closeContainer_of_conflict {c : List Byte} {sc : Scan} {pad : Byte} {f : Failure}
    (h : buildTrie sc.ents = .error f) : closeContainer c sc pad = .error f := by
  rw [closeContainer, h]

/-- R197, R200: an entry that conflicts with the trie of those before it is what DECODE reports. -/
theorem decodeContainer_of_conflict {pre post : List WireEntry} {e : WireEntry} (hok : WireOk (pre ++ e :: post))
    (hne : pre ≠ []) (hpf : PrefixFree pre) (payload : List Byte) (pad : Byte) :
    ∃ t, HoldsEntries t pre ∧ ∀ f, t.insert e.sym e.bits = .error f →
      decodeContainer (wireContainer (pre ++ e :: post) payload pad) = .error f := by
  obtain ⟨t, hall, ht⟩ := insertAll_ok (done := []) holdsEntries_nil hpf
  refine ⟨t, ht, fun f hins => ?_⟩
  have hbuild : buildTrie ((pre ++ e :: post).map wireToEntry) = .error f := by
    have hpos := List.length_pos_of_ne_nil hne
    rw [buildTrie_of_two_le (by simp; omega), List.map_append, insertAll_append hall, List.map_cons, insertAll,
      show t.insert (wireToEntry e).sym (wireToEntry e).code = .error f from hins]
  rw [decodeContainer_wire hok]
  exact closeContainer_of_conflict (by rwa [headerScan_ents])

/-- Settles O48: the earlier code ends at a leaf, which e's code goes through or ends at, or goes through the node that
e's code ends at. -/
theorem decodeRejectsConflictingCodes : Obligations.DecodeRejectsConflictingCodes := by
  intro s pre e post payload pad hok hpf hholds
  have hconflict : ∀ x ∈ pre, ∃ t, HoldsEntries t pre ∧ ∀ f, t.insert e.sym e.bits = .error f →
      decodeContainer (wireContainer (pre ++ e :: post) payload pad) = .error f := fun x hx =>
    decodeContainer_of_conflict hok (List.ne_nil_of_mem hx) hpf payload pad
  refine ⟨fun ⟨x, hx, hpre, hne⟩ => ?throughLeaf, fun ⟨x, hx, heq⟩ => ?sameNode,
    fun ⟨x, hx, hpre, hne⟩ => ?endsAtInternal⟩ <;>
  obtain ⟨t, ht, hdecode⟩ := hconflict x hx
  case throughLeaf => exact exec_decode_of_error hholds (hdecode .throughLeaf (ht.insert_throughLeaf hx hpre hne _))
  case sameNode => exact exec_decode_of_error hholds (hdecode .sameNode (heq ▸ ht.insert_sameNode hx _))
  case endsAtInternal =>
    exact exec_decode_of_error hholds (hdecode .endsAtInternal (ht.insert_endsAtInternal hx hpre hne _))

/-! ### The PAD byte (R203) -/

/-- R197, R198: entries without a conflict never fail phase B. -/
theorem exists_buildTrie_ok {es : List WireEntry} (hok : WireOk es) (hpf : PrefixFree es) :
    ∃ t, buildTrie (es.map wireToEntry) = .ok t := by
  obtain ⟨hpos, -, -⟩ := hok
  match es, hpos with
  | [_], _ => exact ⟨_, rfl⟩
  | _ :: _ :: _, _ =>
    obtain ⟨t, hbuild, -⟩ := buildTrie_ok (by simp) hpf
    exact ⟨t, hbuild⟩

theorem emit_nil (ents : List Entry) (t : Trie) : emit ents t [] = .ok [] := by
  unfold emit
  split <;> rfl

theorem padBad_eq_true {payload : List Byte} {pad : Byte} :
    padBad payload.length pad.toNat = true ↔ 7 < pad.toNat ∨ (payload = [] ∧ pad ≠ 0) := by
  simp [padBad, ← BitVec.toNat_inj]

/-- R203: with the trie built, a PAD byte that is not acceptable is refused. -/
theorem closeContainer_of_padBad {es : List WireEntry} {payload : List Byte} {pad : Byte} {t : Trie}
    (ht : buildTrie (es.map wireToEntry) = .ok t) (hpad : padBad payload.length pad.toNat = true) :
    closeContainer (wireContainer es payload pad) (headerScan es) pad = .error .padding := by
  have hsize : (wireContainer es payload pad).length - (wireHeader es).length - 1 = payload.length := by
    simp [wireContainer]
  simp only [closeContainer, headerScan_ents, ht, headerScan_p, hsize, if_pos hpad]

/-- Settles O49: without a conflict the PAD byte is judged, and with no payload there is no bit to read. -/
theorem decodeJudgesThePadByte : Obligations.DecodeJudgesThePadByte := by
  intro s es payload pad hok hpf hholds
  obtain ⟨t, hbuild⟩ := exists_buildTrie_ok hok hpf
  refine ⟨fun hbad => ?padding, fun hnil hzero => ?noPayload⟩
  case padding =>
    exact exec_decode_of_error hholds
      ((decodeContainer_wire hok _ _).trans (closeContainer_of_padBad hbuild (padBad_eq_true.2 hbad)))
  case noPayload =>
    subst hnil hzero
    have hdata : decodeContainer (wireContainer es [] 0) = .ok [] := by
      rw [decodeContainer_wire hok, closeContainer_wire hbuild ⟨by simp, fun _ => rfl⟩]
      exact emit_nil _ t
    rw [exec_decode_of_holds hholds, hdata]
    rfl

end Sys2Proof.Proofs
end

section
/-! The readings of a container's bytes one after another (44_decode R191 to R194, R202; assumption log 5): what the
reading of a COUNT, SYM, LEN or PAD byte does, where a container that is cut short stops them, and that a DECODE ends in
the state they end in. -/

namespace Sys2Proof.Proofs

open Sys2Proof.Machine Sys2Proof.Laws Sys2Proof.Safety

/-! ### The loop over the entries (R191 phase A) -/

/-- The scratch after an entry whose bytes are all there. -/
def nextEntry (c : List Byte) (sc : Scan) : Scan where
  left := sc.left - 1
  p := sc.p + 2 + ceilDiv8 (c.getD (sc.p + 1) 0).toNat
  sym := c.getD sc.p 0
  ents := sc.ents ++ [{ sym := c.getD sc.p 0, code := unpack (c.drop (sc.p + 2)) (c.getD (sc.p + 1) 0).toNat }]

/-- R193: the next entry is read whole, or the container is truncated. -/
theorem scanEntries_succ (c : List Byte) (n : Nat) (sc : Scan) :
    scanEntries c (n + 1) sc =
      if c.length < (nextEntry c sc).p then .error .truncated else scanEntries c n (nextEntry c sc) := by
  have hp : (nextEntry c sc).p = sc.p + 1 + 1 + ceilDiv8 (c.getD (sc.p + 1) 0).toNat := rfl
  rw [scanEntries, scanSym]
  by_cases hsym : c.length < sc.p + 2
  · rw [if_pos hsym, if_pos (by omega)]
  · rw [if_neg hsym]
    simp only [scanLen, ← hp]
    by_cases hlen : c.length < (nextEntry c sc).p
    · rw [if_pos hlen, if_pos hlen]
    · rw [if_neg hlen, if_neg hlen]; rfl

theorem scanEntries_error {c : List Byte} {n : Nat} {sc : Scan} {f : Failure} (h : scanEntries c n sc = .error f) :
    f = .truncated := by
  induction n generalizing sc with
  | zero => cases h
  | succ n ih =>
    rw [scanEntries_succ] at h
    split at h
    · exact (Except.error.inj h).symm
    · exact ih h

/-- Entries that were read have been counted off. -/
theorem scanEntries_left {c : List Byte} {n : Nat} {sc sc' : Scan} (h : scanEntries c n sc = .ok sc') :
    sc'.left = sc.left - n := by
  induction n generalizing sc with
  | zero => rw [← Except.ok.inj h, Nat.sub_zero]
  | succ n ih =>
    rw [scanEntries_succ] at h
    split at h
    · cases h
    · rw [ih h, nextEntry, Nat.sub_sub, Nat.add_comm]

/-- R193: an entry that is all there is read without a look at what follows it. -/
theorem nextEntry_append {c : List Byte} {sc : Scan} (h : (nextEntry c sc).p ≤ c.length) (rest : List Byte) :
    nextEntry (c ++ rest) sc = nextEntry c sc := by
  have hp : (nextEntry c sc).p = sc.p + 2 + ceilDiv8 (c.getD (sc.p + 1) 0).toNat := rfl
  have hsym : (c ++ rest).getD sc.p 0 = c.getD sc.p 0 := List.getD_append _ _ _ _ (by omega)
  have hlen : (c ++ rest).getD (sc.p + 1) 0 = c.getD (sc.p + 1) 0 := List.getD_append _ _ _ _ (by omega)
  have hcode : unpack ((c ++ rest).drop (sc.p + 2)) (c.getD (sc.p + 1) 0).toNat =
      unpack (c.drop (sc.p + 2)) (c.getD (sc.p + 1) 0).toNat := by
    rw [List.drop_append_of_le_length (by omega), unpack_append]
    rw [ceilDiv8] at hp
    rw [List.length_drop]
    omega
  rw [nextEntry, hsym, hlen, hcode, nextEntry]

theorem scanEntries_append {c : List Byte} {n : Nat} {sc sc' : Scan} (h : scanEntries c n sc = .ok sc')
    (rest : List Byte) : scanEntries (c ++ rest) n sc = .ok sc' := by
  induction n generalizing sc with
  | zero => exact h
  | succ n ih =>
    rw [scanEntries_succ] at h ⊢
    split at h
    · cases h
    · next hroom =>
      rw [nextEntry_append (Nat.not_lt.1 hroom), if_neg (by rw [List.length_append]; omega)]
      exact ih h

/-! ### The header, whole or cut short (R192, R193) -/

theorem parseHeader_error {c : List Byte} {f : Failure} (h : parseHeader c = .error f) : f = .truncated := by
  cases c with
  | nil => exact (Except.error.inj h).symm
  | cons b rest => exact scanEntries_error h

theorem parseHeader_append {c : List Byte} {sc : Scan} (h : parseHeader c = .ok sc) (rest : List Byte) :
    parseHeader (c ++ rest) = .ok sc := by
  cases c with
  | nil => cases h
  | cons b c => exact scanEntries_append h rest

/-- Every entry the COUNT byte declared has been read. -/
theorem parseHeader_left {c : List Byte} {sc : Scan} (h : parseHeader c = .ok sc) : sc.left = 0 := by
  cases c with
  | nil => cases h
  | cons b rest => rw [scanEntries_left h]; exact Nat.sub_self _

/-- R193: a container with no room for a PAD byte after its header does not decode. -/
theorem decodeContainer_of_parse_ok {c : List Byte} {sc : Scan} (h : parseHeader c = .ok sc) :
    decodeContainer c =
      if c.length < sc.p + 1 then .error .truncated else closeContainer c sc (c.getD (c.length - 1) 0) := by
  rw [decodeContainer, h]

theorem decodeContainer_of_parse_error {c : List Byte} {f : Failure} (h : parseHeader c = .error f) :
    decodeContainer c = .error f := by
  rw [decodeContainer, h]

/-- R192, R193: a beginning of a header, if it is read at all, is all of it, and has no PAD byte. -/
theorem decodeContainer_of_cut_header {es : List WireEntry} (hok : WireOk es) {c : List Byte}
    (hcut : c <+: wireHeader es) : decodeContainer c = .error .truncated := by
  cases hparse : parseHeader c with
  | error f => rw [decodeContainer_of_parse_error hparse, parseHeader_error hparse]
  | ok sc =>
    have hsc : sc = headerScan es := by
      obtain ⟨rest, hrest⟩ := hcut
      have happend := parseHeader_append hparse rest
      have hwhole := parseHeader_wire hok []
      rw [List.append_nil, ← hrest, happend] at hwhole
      exact Except.ok.inj hwhole
    have hlen := hcut.length_le
    rw [decodeContainer_of_parse_ok hparse, hsc, headerScan_p, if_pos (by omega)]

/-- Settles O44: the parse of a beginning of a header does not fail otherwise than truncated, and leaves no PAD byte. -/
theorem decodeOfTruncatedContainer : Obligations.DecodeOfTruncatedContainer := fun _ _ _ hok hcut hholds =>
  exec_decode_of_error hholds (decodeContainer_of_cut_header hok hcut)

/-! ### The readings on the scratch of the state -/

/-- The state with its scratch moved on. -/
def withScan (s : State) (sc : Scan) : State := { s with scan := sc }

@[simp] theorem withScan_run (s : State) (sc : Scan) : (withScan s sc).run = s.run := rfl
@[simp] theorem withScan_scan (s : State) (sc : Scan) : (withScan s sc).scan = sc := rfl
@[simp] theorem withScan_input (s : State) (sc : Scan) : (withScan s sc).input = s.input := rfl
@[simp] theorem scanTo_withScan (s : State) (sc : Scan) (r : Except Failure Scan) :
    (withScan s sc).scanTo r = s.scanTo r := by
  cases r <;> rfl

/-- A commit drops the scratch, wherever it stood. -/
@[simp] theorem commit_withScan (s : State) (sc : Scan) (r : Except Failure (List Byte)) :
    (withScan s sc).commit r = s.commit r := by
  cases r <;> rfl

theorem scanTo_ok {s : State} (h : s.lengthBad = false) (sc : Scan) : s.scanTo (.ok sc) = withScan s sc :=
  if_neg (by simp [h])

theorem scanTo_error {s : State} (h : s.lengthBad = false) (f : Failure) : s.scanTo (.error f) = s.raiseNoOutput f :=
  if_neg (by simp [h])

/-- R65: the bits of a region that begins inside the input. -/
theorem unpack_drop_input {s : State} {p n : Nat} (h : p + ceilDiv8 n ≤ s.ilen.toNat) :
    unpack (s.input.drop p) n = (List.range n).map fun k => (s.ibufByte (p + k / 8)).getLsbD (k % 8) := by
  rw [ceilDiv8] at h
  refine List.map_congr_left fun k hk => ?_
  have hk := List.mem_range.1 hk
  rw [bitAt, List.getD_eq_getElem?_getD, List.getElem?_drop, ← List.getD_eq_getElem?_getD, input_getD s (by omega)]

/-- Settles O54: each reading is one check of the room that is left, and then the scratch it says. -/
theorem headerBytesAreRead : Obligations.HeaderBytesAreRead := by
  intro s b hfit
  have hlen := (lengthBad_eq_false s).2 hfit
  refine ⟨fun hroom => ?count, fun hroom => ?sym, fun hroom => ?len, fun i hi => ?truncated⟩
  case count =>
    rw [exec, execContainerCount, countReading, input_length, if_neg (by omega), scanTo_ok hlen]
    rfl
  case sym =>
    rw [exec, execContainerEntrySym, symReading, scanSym, input_length, if_neg (by omega), scanTo_ok hlen]
    rfl
  case len =>
    change s.scan.p + 1 + ceilDiv8 b.toNat ≤ s.ilen.toNat at hroom
    rw [exec, execContainerEntryLen, lenReading, scanLen, input_length, unpack_drop_input hroom,
      if_neg (Nat.not_lt.2 hroom), scanTo_ok hlen]
    rfl
  case truncated =>
    have hraise : ∀ {r}, r = .error .truncated → s.scanTo r =
        { s with olen := 0, run := .idle, status := failStatus 3 1 0, scan := Scan.empty } := by
      rintro _ rfl
      exact scanTo_error hlen _
    rcases hi with ⟨rfl, hshort⟩ | ⟨rfl, hshort⟩ | ⟨rfl, hshort⟩
    · exact congrArg _ (hraise (if_pos (by rw [input_length]; omega)))
    · exact congrArg _ (hraise (if_pos (by rwa [input_length])))
    · exact congrArg _ (hraise (if_pos (by rwa [input_length])))

/-! ### The reading of the PAD byte (R202, R203) -/

/-- R193: once every entry is read, the PAD byte is the end of the DECODE, if there is room for it. -/
theorem padReading_eq_commit {s : State} (hlen : s.lengthBad = false) (hleft : s.scan.left = 0) (b : Byte) :
    padReading b s = s.commit ((if s.input.length < s.scan.p + 1 then .error .truncated
      else closeContainer s.input s.scan b).bind (fitOutput s)) := by
  rw [padReading, if_neg (by simp [hlen])]
  by_cases hroom : s.input.length < s.scan.p + 1
  · rw [if_pos (.inr hroom), if_pos hroom]; rfl
  · rw [if_neg (not_or.2 ⟨not_not.2 hleft, hroom⟩), if_neg hroom]
    cases closeContainer s.input s.scan b <;> rfl

/-- Phases B to D read of the scratch only the entries and the position. -/
theorem closeContainer_congr {sc sc' : Scan} (hp : sc.p = sc'.p) (hents : sc.ents = sc'.ents) (c : List Byte)
    (pad : Byte) : closeContainer c sc pad = closeContainer c sc' pad := by
  rw [closeContainer, closeContainer, hp, hents]

/-- Settles O55: the scratch is the one DECODE's own parse of the header ends with. -/
theorem padByteClosesTheContainer : Obligations.PadByteClosesTheContainer := by
  intro s es sym payload pad hok hholds hscan
  obtain ⟨hinput, hlen⟩ := input_eq_of_holds hholds
  have hp : s.scan.p = (headerScan es).p := by rw [hscan, headerScan_p]
  have hents : s.scan.ents = (headerScan es).ents := by rw [hscan, headerScan_ents]; rfl
  have hroom : ¬ (wireContainer es payload pad).length < s.scan.p + 1 := by simp [hp, wireContainer]
  refine ⟨_, rfl, ?_⟩
  rw [exec_decode_of_holds hholds, padReading_eq_commit hlen (by rw [hscan]), hinput, if_neg hroom,
    decodeContainer_wire hok, closeContainer_congr hp hents]

/-! ### The readings one after another -/

/-- R191 phase A: the readings of the entries' bytes move the scratch as the loop over the entries does. -/
theorem entriesBytewise_eq_scanTo (n : Nat) {s : State} (hbusy : s.run = .busy) (hlen : s.lengthBad = false) :
    entriesBytewise n s = s.scanTo (scanEntries s.input n s.scan) := by
  induction n generalizing s with
  | zero => exact (scanTo_ok hlen s.scan).symm
  | succ n ih =>
    rw [entriesBytewise, symReading, scanEntries]
    cases hsym : scanSym s.input (s.input.getD s.scan.p 0) s.scan with
    | error f => rw [scanTo_error hlen]; exact if_pos rfl
    | ok sc1 =>
      rw [scanTo_ok hlen, lenReading]
      simp only [withScan_run, hbusy, reduceCtorEq, if_false, withScan_input, withScan_scan, scanTo_withScan]
      cases hcode : scanLen s.input (s.input.getD sc1.p 0) sc1 with
      | error f => rw [scanTo_error hlen]; exact if_pos rfl
      | ok sc2 =>
        rw [scanTo_ok hlen, withScan_run, hbusy, if_neg (by simp), ih (s := withScan s sc2) hbusy hlen, scanTo_withScan]
        rfl

theorem decodeBytewise_of_count_raised {s : State} {f : Failure}
    (h : countReading (s.input.getD 0 0) s = s.raiseNoOutput f) : decodeBytewise s = s.raiseNoOutput f := by
  rw [decodeBytewise, h]
  exact if_pos rfl

/-- R191: the readings of a container of legal length end with what it decodes to, committed. -/
theorem decodeBytewise_eq_commit {s : State} (hbusy : s.run = .busy) (hlen : s.lengthBad = false) :
    decodeBytewise s = s.commit ((decodeContainer s.input).bind (fitOutput s)) := by
  cases hinput : s.input with
  | nil =>
    refine decodeBytewise_of_count_raised ?_
    rw [countReading, hinput]
    exact scanTo_error hlen _
  | cons b rest =>
    have hcount : countReading (s.input.getD 0 0) s = withScan s (scanCount b) := by
      rw [countReading, hinput]
      exact scanTo_ok hlen _
    have hentries : entriesBytewise (scanCount b).left (withScan s (scanCount b)) = s.scanTo (parseHeader s.input) := by
      rw [entriesBytewise_eq_scanTo _ (s := withScan s (scanCount b)) hbusy hlen, scanTo_withScan, withScan_input,
        hinput]
      rfl
    rw [decodeBytewise, hcount, ← hinput]
    simp only [withScan_run, hbusy, reduceCtorEq, if_false, withScan_scan, hentries]
    cases hparse : parseHeader s.input with
    | error f => rw [scanTo_error hlen, decodeContainer_of_parse_error hparse]; exact if_pos rfl
    | ok sc =>
      rw [scanTo_ok hlen, withScan_run, hbusy, if_neg (by simp),
        padReading_eq_commit (s := withScan s sc) hlen (parseHeader_left hparse), commit_withScan,
        decodeContainer_of_parse_ok hparse]
      rfl

/-- Settles O56: a length that is not legal stops the first reading, and otherwise the readings move the scratch as
DECODE's own parse does. -/
theorem decodeIsItsBytewiseReading : Obligations.DecodeIsItsBytewiseReading := by
  intro s hbusy
  refine congrArg Host.Outcome.next ?_
  cases hlen : s.lengthBad with
  | true => rw [decodeResult, if_pos hlen, decodeBytewise_of_count_raised (if_pos hlen)]; rfl
  | false => rw [decodeResult_eq_bind hlen, decodeBytewise_eq_commit hbusy hlen]

end Sys2Proof.Proofs
end

section
/-! The bounds of DECODE (44_decode R201, R206): how large the trie can grow, how much a payload can emit, and which
failures each phase can end with. -/

namespace Sys2Proof.Proofs

open Sys2Proof.Machine Sys2Proof.Laws Sys2Proof.Safety

/-! ### A result mapped -/

theorem map_eq_ok {α β : Type} {r : Except Failure α} {g : α → β} {y : β} (h : r.map g = .ok y) :
    ∃ x, r = .ok x ∧ g x = y := by
  cases r with
  | error f => cases h
  | ok x => exact ⟨x, rfl, Except.ok.inj h⟩

theorem map_eq_error {α β : Type} {r : Except Failure α} {g : α → β} {f : Failure} (h : r.map g = .error f) :
    r = .error f := by
  cases r with
  | error f' => exact congrArg _ (Except.error.inj h)
  | ok x => cases h

/-! ### The size of the trie (R201) -/

theorem withChild_size (t : Trie) (b : Bool) (x : Trie) :
    (withChild t b x).size = 1 + x.size + (t.child !b).size := by
  cases b
  · rfl
  · exact Nat.add_right_comm ..

/-- A node that is no leaf has no more nodes than itself and those under its two children. -/
theorem size_le_children {t : Trie} (h : ∀ s, t ≠ .leaf s) (b : Bool) :
    (t.child b).size + (t.child !b).size + 1 ≤ max 1 t.size := by
  cases t with
  | leaf s => exact absurd rfl (h s)
  | empty => cases b <;> simp [Trie.child, Trie.size]
  | fork l r => cases b <;> simp only [Trie.child, Trie.size, Bool.not_true, Bool.not_false] <;> omega

/-- R196: a further bit of a code goes through a leaf, or into a child. -/
theorem insert_cons_cases (t : Trie) (sym : Byte) (b : Bool) (bs : Bits) :
    t.insert sym (b :: bs) = .error .throughLeaf ∨
      ((∀ s, t ≠ .leaf s) ∧ t.insert sym (b :: bs) = (Trie.insert sym bs (t.child b)).map (withChild t b)) := by
  by_cases hleaf : ∃ s, t = .leaf s
  · obtain ⟨s, rfl⟩ := hleaf
    exact .inl (by rw [Trie.insert])
  · have hnot : ∀ s, t ≠ .leaf s := fun s hs => hleaf ⟨s, hs⟩
    exact .inr ⟨hnot, insert_cons hnot sym b bs⟩

/-- R201: an insertion makes at most one node for each bit of the code, besides the root. -/
theorem insert_size {t t' : Trie} {sym : Byte} {bs : Bits} (h : t.insert sym bs = .ok t') :
    t'.size ≤ max 1 t.size + bs.length := by
  induction bs generalizing t t' with
  | nil =>
    cases t with
    | empty => obtain rfl := Except.ok.inj h; simp [Trie.size]
    | leaf s => cases h
    | fork l r => cases h
  | cons b bs ih =>
    rcases insert_cons_cases t sym b bs with hleaf | ⟨hnot, hins⟩
    · cases hleaf.symm.trans h
    · obtain ⟨x, hx, rfl⟩ := map_eq_ok (hins.symm.trans h)
      have hxsize := ih hx
      have hsize := size_le_children hnot b
      rw [withChild_size, List.length_cons]
      omega

theorem insertAll_size {es : List Entry} {t t' : Trie} {n : Nat} (hn : ∀ e ∈ es, e.code.length ≤ n)
    (h : insertAll es t = .ok t') : t'.size ≤ max 1 t.size + n * es.length := by
  induction es generalizing t with
  | nil => obtain rfl := Except.ok.inj h; simp
  | cons e es ih =>
    obtain ⟨he, hn⟩ := List.forall_mem_cons.1 hn
    rw [insertAll] at h
    cases hins : t.insert e.sym e.code with
    | error f => rw [hins] at h; cases h
    | ok t1 =>
      rw [hins] at h
      have h1 := insert_size hins
      have hall := ih hn h
      rw [List.length_cons, Nat.mul_succ]
      omega

/-! ### The length of the output (R206) -/

/-- Each symbol that the trie emits consumes a bit. -/
theorem traverse_length {root cur : Trie} {away : Bool} {bits : Bits} {out : List Byte}
    (h : traverse root cur away bits = .ok out) : out.length ≤ bits.length := by
  induction bits generalizing cur away out with
  | nil =>
    cases away
    · obtain rfl := Except.ok.inj h; exact Nat.le_refl 0
    · cases h
  | cons b bits ih =>
    rw [Sys2Proof.Machine.traverse] at h
    split at h
    · cases h
    · obtain ⟨rest, hrest, rfl⟩ := map_eq_ok h
      exact Nat.succ_le_succ (ih hrest)
    · exact (ih h).trans (Nat.le_succ _)

theorem emit_length {ents : List Entry} {t : Trie} {bits : Bits} {out : List Byte} (h : emit ents t bits = .ok out) :
    out.length ≤ bits.length := by
  unfold emit at h
  split at h
  · obtain rfl := Except.ok.inj h; exact (List.length_map _).le
  · exact traverse_length h

theorem closeContainer_length {c : List Byte} {sc : Scan} {pad : Byte} {out : List Byte}
    (h : closeContainer c sc pad = .ok out) : out.length ≤ 8 * c.length := by
  unfold closeContainer at h
  split at h
  · cases h
  simp only at h
  split at h
  · cases h
  have hout := emit_length h
  rw [unpack_length] at hout
  omega

/-! ### The failures of each phase (R191) -/

theorem insert_error {t : Trie} {sym : Byte} {bs : Bits} {f : Failure} (h : t.insert sym bs = .error f) :
    f ∈ [.throughLeaf, .sameNode, .endsAtInternal] := by
  induction bs generalizing t with
  | nil =>
    cases t with
    | empty => cases h
    | leaf s => obtain rfl := Except.error.inj h; simp
    | fork l r => obtain rfl := Except.error.inj h; simp
  | cons b bs ih =>
    rcases insert_cons_cases t sym b bs with hleaf | ⟨-, hins⟩
    · obtain rfl := Except.error.inj (hleaf.symm.trans h); simp
    · exact ih (map_eq_error (hins.symm.trans h))

theorem insertAll_error {es : List Entry} {t : Trie} {f : Failure} (h : insertAll es t = .error f) :
    f ∈ [.throughLeaf, .sameNode, .endsAtInternal] := by
  induction es generalizing t with
  | nil => cases h
  | cons e es ih =>
    rw [insertAll] at h
    split at h
    · next hins => exact Except.error.inj h ▸ insert_error hins
    · exact ih h

theorem buildTrie_error {es : List Entry} {f : Failure} (h : buildTrie es = .error f) :
    f ∈ [.throughLeaf, .sameNode, .endsAtInternal] := by
  unfold buildTrie at h
  split at h
  · cases h
  · exact insertAll_error h

theorem traverse_error {root cur : Trie} {away : Bool} {bits : Bits} {f : Failure}
    (h : traverse root cur away bits = .error f) : f ∈ [.noChild, .partialCode] := by
  induction bits generalizing cur away with
  | nil =>
    cases away
    · cases h
    · obtain rfl := Except.error.inj h; simp
  | cons b bits ih =>
    rw [Sys2Proof.Machine.traverse] at h
    split at h
    · obtain rfl := Except.error.inj h; simp
    · exact ih (map_eq_error h)
    · exact ih h

theorem emit_error {ents : List Entry} {t : Trie} {bits : Bits} {f : Failure} (h : emit ents t bits = .error f) :
    f ∈ [.noChild, .partialCode] := by
  unfold emit at h
  split at h
  · cases h
  · exact traverse_error h

/-- The failures of a container that does not decode: TRUNCATED, a conflict, PADDING, NOCHILD or PARTIAL. -/
def containerFailures : List Failure :=
  [.truncated, .throughLeaf, .sameNode, .endsAtInternal, .padding, .noChild, .partialCode]

theorem conflict_mem : [.throughLeaf, .sameNode, .endsAtInternal] ⊆ containerFailures := by decide

theorem payload_mem : [.noChild, .partialCode] ⊆ containerFailures := by decide

theorem closeContainer_error {c : List Byte} {sc : Scan} {pad : Byte} {f : Failure}
    (h : closeContainer c sc pad = .error f) : f ∈ containerFailures := by
  unfold closeContainer at h
  split at h
  · next hbuild =>
    obtain rfl := Except.error.inj h
    exact conflict_mem (buildTrie_error hbuild)
  simp only at h
  split at h
  · obtain rfl := Except.error.inj h; decide
  · exact payload_mem (emit_error h)

/-- R191, R206: a container decodes to at most eight symbols for each of its bytes, or fails in one of the ways of the
phases. -/
theorem decodeContainer_cases (c : List Byte) :
    (∃ f ∈ containerFailures, decodeContainer c = .error f) ∨
      ∃ out, out.length ≤ 8 * c.length ∧ decodeContainer c = .ok out := by
  cases hparse : parseHeader c with
  | error f =>
    exact .inl ⟨f, parseHeader_error hparse ▸ by decide, decodeContainer_of_parse_error hparse⟩
  | ok sc =>
    rw [decodeContainer_of_parse_ok hparse]
    split
    · exact .inl ⟨_, by decide, rfl⟩
    · cases hclose : closeContainer c sc (c.getD (c.length - 1) 0) with
      | error f => exact .inl ⟨f, closeContainer_error hclose, rfl⟩
      | ok out => exact .inr ⟨out, closeContainer_length hclose, rfl⟩

/-! ### No overflow (R206) -/

theorem decodeResult_ne_overflow {s : State} (hsize : 8 * s.params.ibufSize ≤ s.params.obufSize) :
    decodeResult s ≠ .error .outputOverflow := by
  cases hlen : s.lengthBad with
  | true => rw [decodeResult, if_pos hlen]; simp
  | false =>
    have hfit := (lengthBad_eq_false s).1 hlen
    rw [decodeResult_eq_bind hlen]
    rcases decodeContainer_cases s.input with ⟨f, hf, hd⟩ | ⟨out, hout, hd⟩ <;> rw [hd]
    · rintro h
      obtain rfl : f = .outputOverflow := Except.error.inj h
      exact absurd hf (by decide)
    · rw [input_length] at hout
      rw [Except.bind, fitOutput, if_neg (by omega)]
      simp

theorem kindCode_eq_five {f : Failure} (h : f.kindCode = 5) : f = .outputOverflow := by
  cases f <;> simp [Failure.kindCode] at h ⊢

/-- R220: only OutputOverflow is of kind 5. -/
theorem commit_overflow {s : State} {r : Except Failure (List Byte)} (h : (s.commit r).status = failStatus 5 0 0) :
    r = .error .outputOverflow := by
  have hkind := congrArg Status.kind h
  rcases commit_cases s r with ⟨out, -, hr⟩ | ⟨f, rfl, hr⟩ <;> rw [hr] at hkind
  · rw [complete_status] at hkind
    exact absurd hkind (by decide)
  · rw [kindCode_eq_five hkind]

/-- Settles O51: a code adds at most a node for each of its bits, and a symbol of the output consumes at least one of
the fewer than 8 x ILEN payload bits. -/
theorem decodeStaysWithinItsBounds : Obligations.DecodeStaysWithinItsBounds := by
  refine ⟨fun es t hes hcodes hall => ?_, fun s t hsize hexec hstatus => ?_⟩
  · have hbound := insertAll_size hcodes hall
    rw [Trie.size] at hbound
    omega
  · obtain rfl : s.commit (decodeResult s) = t := Host.Outcome.next.inj hexec
    exact decodeResult_ne_overflow hsize (commit_overflow hstatus)

end Sys2Proof.Proofs
end

section
/-! The failures (60_exceptions): the STATUS word of each (R221), which of them a command can end with (R222), and the
length check that comes before everything else (R224). -/

namespace Sys2Proof.Proofs

open Sys2Proof.Machine Sys2Proof.Laws Sys2Proof.Safety

/-! ### Which failure a command can end with (R222) -/

theorem buildFailure_cases (ft : Table Word) : buildFailure ft = none ∨ buildFailure ft = some .emptyInput := by
  unfold buildFailure
  split
  · exact .inr rfl
  · exact .inl rfl

theorem walkFailure_cases (root : NodeIx) : walkFailure root = none ∨ walkFailure root = some .emptyInput := by
  unfold walkFailure
  split
  · exact .inr rfl
  · exact .inl rfl

theorem firstFailure_cases {r q : Option Failure} {f : Failure} (hr : r = none ∨ r = some f)
    (hq : q = none ∨ q = some f) : firstFailure r q = none ∨ firstFailure r q = some f := by
  rcases hr with rfl | rfl
  · exact hq
  · exact .inr rfl

/-- R223: ENCODE's checks, in the order of R171. -/
theorem encodeResult_error {s : State} {f : Failure} (h : encodeResult s = .error f) :
    f = .illegalLength ∨ f = .emptyInput ∨ (∃ b, f = .missingCode b) ∨ f = .outputOverflow := by
  unfold encodeResult at h
  split at h
  · exact .inl (Except.error.inj h).symm
  split at h
  · exact .inr (.inl (Except.error.inj h).symm)
  split at h
  · next b _ => exact .inr (.inr (.inl ⟨b, (Except.error.inj h).symm⟩))
  split at h
  · exact .inr (.inr (.inr (Except.error.inj h).symm))
  · cases h

/-- The failures of DECODE, in the order in which it finds them. -/
def decodeFailures : List Failure := .illegalLength :: containerFailures ++ [.outputOverflow]

theorem decodeResult_error {s : State} {f : Failure} (h : decodeResult s = .error f) : f ∈ decodeFailures := by
  cases hlen : s.lengthBad with
  | true =>
    rw [decodeResult, if_pos hlen] at h
    obtain rfl := Except.error.inj h
    decide
  | false =>
    rw [decodeResult_eq_bind hlen] at h
    rcases decodeContainer_cases s.input with ⟨g, hg, hd⟩ | ⟨out, -, hd⟩ <;> rw [hd, Except.bind] at h
    · obtain rfl := Except.error.inj h
      exact List.mem_append_left _ (List.mem_cons_of_mem _ hg)
    · rcases fitOutput_cases s out with ⟨-, hfit⟩ | ⟨-, hfit⟩ <;> rw [hfit] at h
      · cases h
      · obtain rfl := Except.error.inj h
        decide

/-- What STATUS says of a command that can fail in one way only. -/
theorem ofResult_cases {r : Option Failure} {f : Failure} (h : r = none ∨ r = some f) :
    Status.ofResult r = okStatus ∨ Status.ofResult r = failStatus f.kindCode f.subCode f.detailByte := by
  rcases h with rfl | rfl
  · exact .inl rfl
  · exact .inr rfl

theorem commit_status_cases (s : State) (r : Except Failure (List Byte)) :
    (s.commit r).status = okStatus ∨ ∃ f, r = .error f ∧ (s.commit r).status = Status.ofResult (some f) := by
  rcases commit_cases s r with ⟨out, -, hr⟩ | ⟨f, hf, hr⟩ <;> rw [hr]
  · exact .inl rfl
  · exact .inr ⟨f, hf, rfl⟩

/-- Settles O58: COUNT and COMPILE check the length, BUILD and WALK only find nothing to work on, and ENCODE and DECODE
commit their results, which fail by their own checks alone. -/
theorem commandsRaiseOnlyTheirFailures : Obligations.CommandsRaiseOnlyTheirFailures := by
  refine fun s => ⟨⟨_, exec_count_eq_ite s, ?count⟩, ⟨_, rfl, ofResult_cases (buildFailure_cases s.ft)⟩,
    ⟨_, rfl, ofResult_cases (walkFailure_cases s.root)⟩, ⟨_, exec_compile_eq_ite s, ?compile⟩,
    ⟨s.commit (encodeResult s), rfl, ?encode⟩, ⟨s.commit (decodeResult s), rfl, ?decode⟩,
    fun op hop => ⟨_, exec_decodeOpcode_illegal hop s, rfl⟩⟩
  case count =>
    split
    · exact .inr rfl
    · exact .inl rfl
  case compile =>
    split
    · exact .inr (.inl rfl)
    · exact (ofResult_cases (firstFailure_cases (buildFailure_cases _) (walkFailure_cases _))).imp_right .inr
  case encode =>
    refine (commit_status_cases s (encodeResult s)).imp_right ?_
    rintro ⟨f, hf, hst⟩
    rw [hst]
    rcases encodeResult_error hf with rfl | rfl | ⟨b, rfl⟩ | rfl
    · exact .inl rfl
    · exact .inr (.inl rfl)
    · exact .inr (.inr (.inl ⟨b, rfl⟩))
    · exact .inr (.inr (.inr rfl))
  case decode =>
    refine (commit_status_cases s (decodeResult s)).imp_right ?_
    rintro ⟨f, hf, hst⟩
    rw [hst]
    have hmem := decodeResult_error hf
    -- What is left speaks of the closed list `decodeFailures` alone.
    clear hf hst
    revert f
    decide

/-! ### The STATUS word of a failure (R93, R221) -/

theorem shiftLeft_or_toNat (b : Byte) {c : Word} (hc : c.toNat < 2 ^ 16) :
    (b.setWidth 32 <<< 16 ||| c).toNat = b.toNat * 2 ^ 16 + c.toNat := by
  have hb : b.toNat <<< 16 < 2 ^ 32 := by rw [Nat.shiftLeft_eq]; omega
  rw [BitVec.toNat_or, BitVec.toNat_shiftLeft, BitVec.toNat_setWidth_of_le (by omega), Nat.mod_eq_of_lt hb,
    ← Nat.shiftLeft_add_eq_or_of_lt hc, Nat.shiftLeft_eq]

theorem statusWord_failure_eq {f : Failure} {c : Word}
    (hc : c.toNat = f.detailByte.toNat * 2 ^ 16 + f.subCode.toNat * 2 ^ 12 + f.kindCode.toNat * 2 ^ 8 + 6) :
    statusWord .idle (Status.ofResult (some f)) = c :=
  BitVec.eq_of_toNat_eq ((statusWord_failure_toNat f).trans hc.symm)

/-- The detail byte stands above the halfword that the kind and the sub-cause decide. -/
theorem statusWord_failure_detail {f : Failure} {c : Word}
    (hc : c.toNat = f.subCode.toNat * 2 ^ 12 + f.kindCode.toNat * 2 ^ 8 + 6) :
    statusWord .idle (Status.ofResult (some f)) = f.detailByte.setWidth 32 <<< 16 ||| c :=
  statusWord_failure_eq (by rw [shiftLeft_or_toNat _ (by omega)]; omega)

/-- Settles O22: each word is the sum of its fields, and only MissingCode and OPCODE have a detail byte. -/
theorem failureStatusWords : Obligations.FailureStatusWords := by
  intro w hw
  simp only [hw]
  refine ⟨statusWord_failure_eq rfl, statusWord_failure_eq rfl, statusWord_failure_eq rfl, statusWord_failure_eq rfl,
    statusWord_failure_eq rfl, statusWord_failure_eq rfl, statusWord_failure_eq rfl, statusWord_failure_eq rfl,
    statusWord_failure_eq rfl, statusWord_failure_eq rfl, fun b => ?missingCode, fun b => ?illegalOpcode⟩
  case missingCode => exact statusWord_failure_detail (by simp [Failure.subCode, Failure.kindCode])
  case illegalOpcode => exact statusWord_failure_detail (by simp [Failure.subCode, Failure.kindCode])

/-! ### An input longer than IBUF (R224) -/

section Overlong

variable {s : State} (h : s.lengthBad = true)
include h

theorem exec_count_of_overlong : exec .count s = .next (s.raise .illegalLength) := by
  rw [exec_count_eq_ite, if_pos h]

theorem exec_compile_of_overlong : exec .compile s = .next (s.raise .illegalLength) := by
  rw [exec_compile_eq_ite, if_pos h]

theorem exec_encode_of_overlong : exec .encode s = .next (s.raiseNoOutput .illegalLength) := by
  rw [exec, execEncode, encodeResult, if_pos h, State.commit]

theorem exec_decode_of_overlong : exec .decode s = .next (s.raiseNoOutput .illegalLength) := by
  rw [exec, execDecode, decodeResult, if_pos h, State.commit]

end Overlong

/-- R221: neither success nor EmptyInput shows as LENGTH. -/
theorem ofResult_ne_length {r : Option Failure} (h : r = none ∨ r = some .emptyInput) :
    Status.ofResult r ≠ failStatus 6 2 0 := by
  rcases h with rfl | rfl <;> decide

/-- Settles O29: four commands raise before any stage of theirs runs; BUILD and WALK do not read ILEN, and the only
failure they have is EmptyInput. -/
theorem overlongInputIsIllegalCommand : Obligations.OverlongInputIsIllegalCommand := by
  intro s hlong
  have hbad := (lengthBad_eq_true s).2 hlong
  refine ⟨?raise, ?noOutput, ?noCheck⟩
  case raise =>
    rintro i (rfl | rfl)
    · exact exec_count_of_overlong hbad
    · exact exec_compile_of_overlong hbad
  case noOutput =>
    rintro i (rfl | rfl)
    · exact exec_encode_of_overlong hbad
    · exact exec_decode_of_overlong hbad
  case noCheck =>
    rintro i (rfl | rfl)
    · exact ⟨_, rfl, rfl, ofResult_ne_length (buildFailure_cases s.ft)⟩
    · exact ⟨_, rfl, rfl, ofResult_ne_length (walkFailure_cases s.root)⟩

end Sys2Proof.Proofs
end

section
/-! Reset and hazards (70_reset_and_hazards): the reset event from any state (R250), the end of every command in flight
(R262), and what the reset state means to each command (R252). -/

namespace Sys2Proof.Proofs

open Sys2Proof.Machine Sys2Proof.Laws Sys2Proof.Safety

/-! ### The end of a command in flight (R23, R262) -/

/-- R62, R108, R250: an access while BUSY leaves the command in flight, or is the reset that abandons it. -/
theorem hostAccess_busy {s : State} (op : HostOp) (hbusy : s.run = .busy) :
    (s.hostAccess op).run = .idle ∨ (s.hostAccess op).run = .busy ∧ (s.hostAccess op).wait = s.wait := by
  cases op with
  | read addr =>
    obtain ⟨_, _, hread, -⟩ := hostRead_busy addr hbusy
    exact .inr (by rw [State.hostAccess, hread]; exact ⟨hbusy, rfl⟩)
  | write addr v => exact .inr (by rw [State.hostAccess, hostWrite_busy addr v hbusy]; exact ⟨hbusy, rfl⟩)
  | wait => exact .inr (by rw [State.hostAccess, hostWait_busy hbusy]; exact ⟨hbusy, rfl⟩)
  | reset => exact .inl rfl

/-- V10: while BUSY a step ends the command, or is one of the accesses that land before its completion. -/
theorem step_busy {s : State} (hbusy : s.run = .busy) :
    ∃ t, step s = .next t ∧ (t.run = .idle ∨ t.run = .busy ∧ t.wait < s.wait) := by
  rcases step_cases s with ⟨-, -, hexec⟩ | ⟨-, hwait, hne, -⟩ | ⟨hidle, -⟩
  · obtain ⟨v, hv⟩ := encode_decodeOpcode s.cmd
    obtain ⟨t, ht, hc⟩ := exec_completion hv s
    obtain ⟨u, r, rfl⟩ := hc.eq_complete
    exact ⟨_, hexec.trans ht, .inl (complete_run u r)⟩
  · obtain ⟨op, rest, hin⟩ := List.exists_cons_of_ne_nil hne
    refine ⟨_, step_busy_hostAccess hbusy hwait hin, ?_⟩
    refine (hostAccess_busy (s := { s with inbox := rest, wait := s.wait - 1 }) op hbusy).imp_right ?_
    exact fun ⟨hrun, hw⟩ => ⟨hrun, hw.trans_lt (Nat.sub_lt hwait Nat.one_pos)⟩
  · cases hidle.symm.trans hbusy

theorem run_succ_of_step {M : Host.Core} {s t : M.State} (h : M.step s = .next t) (k : Nat) :
    M.run (k + 1) s = M.run k t := by
  rw [Host.Core.run, h]

/-- Settles O15, by induction on the accesses that may still land before the completion. -/
theorem everyCommandCompletes : Obligations.EveryCommandCompletes := by
  intro s
  induction hn : s.wait using Nat.strong_induction_on generalizing s with
  | _ n ih =>
    intro hbusy
    obtain ⟨t, hstep, hidle | ⟨htbusy, hlt⟩⟩ := step_busy hbusy
    · exact ⟨1, t, le_rfl, by omega, run_succ_of_step (M := Sys2Proof.core) hstep 0, hidle⟩
    · obtain ⟨k, u, -, hk, hrun, hidle⟩ := ih t.wait (hn ▸ hlt) t rfl htbusy
      exact ⟨k + 1, u, by omega, by omega, (run_succ_of_step (M := Sys2Proof.core) hstep k).trans hrun, hidle⟩

/-! ### The reset event (R250) -/

/-- R38, R250: the scalar registers are stated, and every entry of an empty file reads as after reset. -/
theorem resetEvent_atReset (s : State) : AtReset s.resetEvent :=
  ⟨rfl, rfl, rfl, rfl, rfl, rfl, rfl, rfl, rfl, rfl, fun i _ => ftGet_nil i, fun i _ => nodeGet_nil i,
    fun i _ => cbGet_nil i, fun _ => rfl, fun _ => rfl, rfl⟩

/-- Settles O7: the Host's turn is the reset event, which keeps nothing of the command in flight. -/
theorem resetEventFromAnyState : Obligations.ResetEventFromAnyState := by
  intro s rest hin hturn
  obtain ⟨n, hstep⟩ := step_hostAccess hin hturn
  exact ⟨_, hstep, resetEvent_atReset _, rfl, rfl, rfl, rfl, rfl⟩

/-! ### The commands from reset (R252) -/

section NoByte

variable {s : State} (h : s.ilen = 0)
include h

/-- R120: COUNT of no byte succeeds and clears FT. -/
theorem exec_count_of_no_byte :
    exec .count s = .next { s with ft := [], run := .idle, status := okStatus, scan := Scan.empty } := by
  have hfits : s.lengthBad = false := (lengthBad_eq_false s).2 (by rw [h]; exact Nat.zero_le _)
  rw [exec_count_eq_ite, hfits, countStage, countBytes_input_of_no_byte h]
  rfl

/-- R171: ENCODE of no byte is EmptyInput. -/
theorem exec_encode_of_no_byte :
    exec .encode s = .next { s with olen := 0, run := .idle, status := failStatus 1 0 0, scan := Scan.empty } :=
  exec_encode_of_error (encodeResult_of_no_byte h)

/-- R192: no byte is no container, for want of a COUNT byte. -/
theorem exec_decode_of_no_byte :
    exec .decode s = .next { s with olen := 0, run := .idle, status := failStatus 3 1 0, scan := Scan.empty } :=
  exec_decode_of_error (c := []) ⟨by rw [h]; rfl, Nat.zero_le _, fun a ha => absurd ha a.not_lt_zero⟩ rfl

end NoByte

/-- Settles O60: with ILEN, FT and ROOT as reset left them, each command has one end, which names no byte of IBUF; it is
the same end with the bytes numbered anew. -/
theorem commandsFromReset : Obligations.CommandsFromReset := by
  rintro e v s rfl
  refine ⟨⟨_, exec_count_of_no_byte rfl, rfl, ftGet_nil⟩, ?empty, ⟨_, exec_decode_of_no_byte rfl, rfl⟩, ?anyByte⟩
  case empty =>
    rintro i (rfl | rfl | rfl | rfl)
    · exact ⟨_, exec_build_of_no_symbol presentSyms_nil, rfl⟩
    · exact ⟨_, exec_walk_of_no_root rfl, rfl⟩
    · exact ⟨_, exec_compile_of_no_byte rfl, rfl⟩
    · exact ⟨_, exec_encode_of_no_byte rfl, rfl⟩
  case anyByte =>
    rintro i (rfl | rfl | rfl | rfl | rfl | rfl) e'
    · exact ⟨_, exec_count_of_no_byte rfl, exec_count_of_no_byte rfl⟩
    · exact ⟨_, exec_build_of_no_symbol presentSyms_nil, exec_build_of_no_symbol presentSyms_nil⟩
    · exact ⟨_, exec_walk_of_no_root rfl, exec_walk_of_no_root rfl⟩
    · exact ⟨_, exec_compile_of_no_byte rfl, exec_compile_of_no_byte rfl⟩
    · exact ⟨_, exec_encode_of_no_byte rfl, exec_encode_of_no_byte rfl⟩
    · exact ⟨_, exec_decode_of_no_byte rfl, exec_decode_of_no_byte rfl⟩

end Sys2Proof.Proofs
end
